-- ==== Sys2Proof/Word.lean ====
section
/-! DEFINITION. The two data widths of the core (00_scope.md R6, R50): a Word is 32 bits, a byte is 8.
All Word arithmetic is the modular arithmetic of `BitVec` (R11). -/

namespace Sys2Proof

/-- A Word: "32-bit unsigned integer, all arithmetic modulo 2^32" (00_scope.md R15). -/
abbrev Word := BitVec 32

/-- A byte of DMEM (20_memory.md R50). -/
abbrev Byte := BitVec 8

end Sys2Proof
end

