-- ==== Sys2Proof/Config.lean ====
section
/-! DEFINITION. What an implementation fixes (00_scope.md R7, R9) and the free values of the model:
every constant here that is `opaque` has no body, so that nothing proved of the model rests on its value. -/

namespace Sys2Proof

/-- The implementation parameters of 00_scope.md R7 that are plain data. They are hard-wired: `State`
carries them so that a statement about every state holds for every implementation (log 3). -/
structure Params where
  /-- `BASE`: host byte address of the register block. -/
  base : Nat
  /-- `MEM_SIZE`: size of DMEM in bytes. -/
  memSize : Nat
  /-- `R_MAX`: the largest `r` any command accepts. -/
  rMax : Nat
  /-- `CAP_SIMD`: the shuffled Salsa datapath is present. -/
  capSimd : Bool
  /-- `CAP_BATCH3`: the 3-lane datapath is present. -/
  capBatch3 : Bool
  /-- `CAP_BATCH4`: the 4-lane datapath is present. -/
  capBatch4 : Bool
deriving DecidableEq, Repr

/-- The constraints 00_scope.md R7 puts on the parameters. -/
abbrev Params.Legal (p : Params) : Prop :=
  p.base % 4096 = 0 ∧ p.memSize % 128 = 0 ∧ 128 ≤ p.memSize ∧ p.memSize ≤ 2 ^ 32 ∧ 1 ≤ p.rMax ∧ p.rMax ≤ 255

/-- DESIGN CHOICE (log 3; unsafe): the parameters `State.reset` carries, the example values of R7; the spec
gives no example for `BASE`, and 0 stands there. -/
def Params.atReset : Params :=
  { base := 0, memSize := 2 ^ 24, rMax := 32, capSimd := true, capBatch3 := true, capBatch4 := true }

/-- The type of the black-box SHA-256 compression function: "(state[8], block[64 bytes]) → updated
state[8]" (00_scope.md R9). -/
abbrev Compress := Vector Word 8 → Vector Byte 64 → Vector Word 8

/-- `SHA256_COMPRESS` (00_scope.md R9): a total function of its two operands, of which nothing else is
assumed (log 4). -/
opaque Config.sha256Compress : Compress

/-- The byte DMEM holds at an address after power-up, before anything is written there: unspecified, "a
model draws every byte" (70_reset_and_hazards.md R231; log 5). -/
opaque Config.powerUpByte : Nat → Byte

/-- An unspecified Word: slot `k` of draw number `n` (93_implementation_defined.md U7, U8, U18; log 7). -/
opaque Config.freeWord : Nat → Nat → Word

/-- An unspecified list of Words: slot `k` of draw number `n` (93_implementation_defined.md U18; log 9). -/
opaque Config.freeWords : Nat → Nat → List Word

/-- The unspecified byte at address `a` in draw number `n` (93_implementation_defined.md U9, U17; log 7). -/
opaque Config.freeByte : Nat → Nat → Byte

end Sys2Proof
end

