-- ==== Sys2Proof/Syntax.lean ====
section
/-! DEFINITION. The commands of the core, one constructor for each row of spec/opcode_table.json
(30_encoding.md R71), the two cores they select, and the error codes a command can end with. -/

namespace Sys2Proof

/-- A command. The only operand a command word carries beside the selector is the raw 6-bit `ROUNDS`
field of the rows that use it (30_encoding.md R70, R76); every other operand is in the latched `ARG`s. -/
inductive Instr where
  /-- `SALSA.CORE` (41_core_permutation.md R117). -/
  | salsaCore (rounds : BitVec 6)
  /-- `CHACHA.CORE` (41_core_permutation.md R118). -/
  | chachaCore (rounds : BitVec 6)
  /-- `BLOCKMIX.S` (42_block_mixer.md R125). -/
  | blockmixS (rounds : BitVec 6)
  /-- `BLOCKMIX.C` (42_block_mixer.md R126). -/
  | blockmixC (rounds : BitVec 6)
  /-- `SHUFFLE` (42_block_mixer.md R127). -/
  | shuffle
  /-- `UNSHUFFLE` (42_block_mixer.md R128). -/
  | unshuffle
  /-- `BLKXOR` (42_block_mixer.md R129). -/
  | blkxor
  /-- `ROMIX.S` (43_romix.md R147). -/
  | romixS (rounds : BitVec 6)
  /-- `ROMIX.C` (43_romix.md R148). -/
  | romixC (rounds : BitVec 6)
  /-- `ROMIX2` (43_romix.md R149). -/
  | romix2 (rounds : BitVec 6)
  /-- `HMAC.INIT` (44_pbkdf2.md R166). -/
  | hmacInit
  /-- `PBKDF2.BLK` (44_pbkdf2.md R167). -/
  | pbkdf2Blk
  /-- `PBKDF2` (44_pbkdf2.md R168). -/
  | pbkdf2
  /-- `SCRYPT` (45_drivers.md R181). -/
  | scrypt
  /-- `POWHASH` (45_drivers.md R184). -/
  | powhash
  /-- `POWHASH3` (45_drivers.md R186). -/
  | powhash3
  /-- `POWHASH4` (45_drivers.md R187). -/
  | powhash4
deriving DecidableEq, Repr

/-- The raw `ROUNDS` field, in the rows that use it (30_encoding.md R71, "ROUNDS used"). -/
def Instr.roundsField : Instr → Option (BitVec 6)
  | .salsaCore f => some f
  | .chachaCore f => some f
  | .blockmixS f => some f
  | .blockmixC f => some f
  | .shuffle => none
  | .unshuffle => none
  | .blkxor => none
  | .romixS f => some f
  | .romixC f => some f
  | .romix2 f => some f
  | .hmacInit => none
  | .pbkdf2Blk => none
  | .pbkdf2 => none
  | .scrypt => none
  | .powhash => none
  | .powhash3 => none
  | .powhash4 => none

/-- The core permutation a command selects (30_encoding.md R72; 41_core_permutation.md R116). -/
inductive Alg where
  /-- `ALG = 0`. -/
  | salsa
  /-- `ALG = 1`. -/
  | chacha
deriving DecidableEq, Repr

/-- The errors of 60_exceptions.md R200, in the order of their codes. -/
inductive ErrCode where
  | illegal
  | reserved
  | rounds
  | zero
  | paramN
  | length
  | tooLarge
  | align
  | bounds
  | alloc
  | overlap
deriving DecidableEq, Repr

/-- `raise Error(code, argidx)` (00_scope.md R13): the code and the `ERRARG` value it records. -/
structure CmdError where
  code : ErrCode
  arg : BitVec 4
deriving DecidableEq, Repr

end Sys2Proof
end

