-- ==== Sys2Proof/WellFormed.lean ====
section
/-! DEFINITION. Which commands a command word can stand for: the round count of a row that uses `ROUNDS`
must be even (30_encoding.md R73). There is no other check on a command's syntax. -/

namespace Sys2Proof

/-- The `ROUNDS` field is even, or the row has none (30_encoding.md R73). -/
def Instr.wf (i : Instr) : Bool :=
  match i.roundsField with
  | some f => !f.getLsbD 0
  | none => true

end Sys2Proof
end

