-- ==== Sys2Proof/Decode.lean ====
section
/-! DEFINITION. The command word: the opcode map of 30_encoding.md R71 as a table, the total decoder of
R75 read from it, and the encoder. -/

namespace Sys2Proof

/-- One row of the opcode map (30_encoding.md R71). -/
structure Row where
  /-- The row's `match`. -/
  pattern : Word
  /-- The row's `mask`. -/
  mask : Word
  /-- The row is marked "ROUNDS used". -/
  usesRounds : Bool
  /-- The command of the row, given the `ROUNDS` field. -/
  make : BitVec 6 → Instr

/-- The mask of the rows marked "ROUNDS used" (30_encoding.md R71). -/
def roundsMask : Word := 0xFFFF03FF

/-- The mask of every other row (30_encoding.md R71). -/
def fullMask : Word := 0xFFFFFFFF

/-- The opcode map of 30_encoding.md R71, in its order. -/
def rows : List Row :=
  [ ⟨0x00000001, roundsMask, true, .salsaCore⟩,
    ⟨0x00000101, roundsMask, true, .chachaCore⟩,
    ⟨0x00000002, roundsMask, true, .blockmixS⟩,
    ⟨0x00000102, roundsMask, true, .blockmixC⟩,
    ⟨0x00000003, fullMask, false, fun _ => .shuffle⟩,
    ⟨0x00000004, fullMask, false, fun _ => .unshuffle⟩,
    ⟨0x00000005, fullMask, false, fun _ => .blkxor⟩,
    ⟨0x00000008, roundsMask, true, .romixS⟩,
    ⟨0x00000108, roundsMask, true, .romixC⟩,
    ⟨0x00000009, roundsMask, true, .romix2⟩,
    ⟨0x00000010, fullMask, false, fun _ => .hmacInit⟩,
    ⟨0x00000011, fullMask, false, fun _ => .pbkdf2Blk⟩,
    ⟨0x00000012, fullMask, false, fun _ => .pbkdf2⟩,
    ⟨0x00000020, fullMask, false, fun _ => .scrypt⟩,
    ⟨0x00000021, fullMask, false, fun _ => .powhash⟩,
    ⟨0x00000022, fullMask, false, fun _ => .powhash3⟩,
    ⟨0x00000023, fullMask, false, fun _ => .powhash4⟩ ]

/-- The selector, `OPCODE` and `ALG` together: bits 9:0 (30_encoding.md R70). -/
def selector (w : Word) : BitVec 10 := w.extractLsb' 0 10

/-- The `ROUNDS` field: bits 15:10 (30_encoding.md R70). -/
def roundsBits (w : Word) : BitVec 6 := w.extractLsb' 10 6

/-- `decode` of 30_encoding.md R75, total on all 2^32 command words. -/
def decode (w : Word) : Except ErrCode Instr :=
  match rows.find? (fun row => selector row.pattern == selector w) with
  | none => .error .illegal
  | some row =>
    if w &&& row.mask ≠ row.pattern then .error .reserved
    else if row.usesRounds && (roundsBits w).getLsbD 0 then .error .rounds
    else .ok (row.make (roundsBits w))

/-- `match` of a command's row (30_encoding.md R71). -/
def Instr.pattern : Instr → Word
  | .salsaCore _ => 0x00000001
  | .chachaCore _ => 0x00000101
  | .blockmixS _ => 0x00000002
  | .blockmixC _ => 0x00000102
  | .shuffle => 0x00000003
  | .unshuffle => 0x00000004
  | .blkxor => 0x00000005
  | .romixS _ => 0x00000008
  | .romixC _ => 0x00000108
  | .romix2 _ => 0x00000009
  | .hmacInit => 0x00000010
  | .pbkdf2Blk => 0x00000011
  | .pbkdf2 => 0x00000012
  | .scrypt => 0x00000020
  | .powhash => 0x00000021
  | .powhash3 => 0x00000022
  | .powhash4 => 0x00000023

/-- The command word of a command: `match | (R << 10)` in the rows that use `ROUNDS`, `match` in the others
(30_encoding.md R79). -/
def encode (i : Instr) : Word :=
  match i.roundsField with
  | some f => i.pattern ||| (f.setWidth 32 <<< 10)
  | none => i.pattern

/-- The round count `R` of a `ROUNDS` field: 8 for the field 0, the field's value otherwise
(30_encoding.md R73). -/
def roundCount (f : BitVec 6) : Nat := if f = 0 then 8 else f.toNat

/-- The command the decoder reads from a word of `nbits` bits, its higher bits 0. A command is one 32-bit
host write, so there is no byte order to lay it out in (30_encoding.md R78). -/
def decodeTableWord (nbits w : Nat) : Option Instr :=
  match decode (BitVec.ofNat 32 (w % 2 ^ nbits)) with
  | .ok i => some i
  | .error _ => none

end Sys2Proof
end

