-- ==== Sys2Proof/Machine/State.lean ====
section
/-! DEFINITION. The state of the core: the register block (10_state.md R20-R36), the hidden command state
(R37, R38), DMEM (20_memory.md R50), the implementation parameters (00_scope.md R7), and the model's own
fields: the input still to come, the replies given, the number of free values drawn. -/

namespace Sys2Proof.Machine

/-- DMEM as (address, byte) pairs: the bytes something has written. A byte that is not listed has not been
written since power-up (log 5). -/
abbrev Memory := List Host.Cell

/-- `CTRL` (10_state.md R24); bits 31:2 are reserved, read 0 and ignore writes. -/
structure Ctrl where
  ie : Bool
  accelEn : Bool
deriving DecidableEq, Repr

/-- `STATUS` (10_state.md R25). `ERR` and the reserved bits are computed where the register is read. -/
structure Status where
  busy : Bool
  done : Bool
  overrun : Bool
  errcode : BitVec 4
  errarg : BitVec 4
  phase : BitVec 3
  lane : BitVec 2
deriving DecidableEq, Repr

/-- The latched command state (10_state.md R37). -/
structure Latch where
  /-- `LCMD`. -/
  cmd : Word
  /-- `LA[0..11]`. -/
  args : Vector Word 12
  /-- `LSBASE`. -/
  scratchBase : Word
  /-- `LSLIMIT`. -/
  scratchLimit : Word
  /-- `LACCEL`, which no rule reads (00_scope.md R10; log 22). -/
  accel : Bool
deriving DecidableEq, Repr

/-- The working state internal to a command (10_state.md R38). Every command writes it before it reads it
and completes in one step, so only its unspecified value between commands stands here (log 9). -/
structure Work where
  /-- The current Block `X`. -/
  x : List Word
  /-- The second Block `XC` of `ROMIX2`. -/
  xc : List Word
  /-- One Block for each lane of `POWHASH3` and `POWHASH4`. -/
  lanes : List (List Word)
  /-- The intermediate HMAC values. -/
  hmac : List Word
deriving DecidableEq, Repr

/-- The width of a host access. -/
inductive Width where
  | b8
  | b16
  | b32
  | b64
deriving DecidableEq, Repr

/-- What can happen to the core from outside, and the turn of the CORE agent (40_command_protocol.md R90). -/
inductive Event where
  /-- A host read at a byte address of the host's map, meant for the register block. -/
  | regRead (width : Width) (addr : Nat)
  /-- A host write at a byte address of the host's map, meant for the register block. -/
  | regWrite (width : Width) (addr : Nat) (value : Word)
  /-- A host read at an address of the DMEM port. -/
  | dmemRead (width : Width) (addr : Nat)
  /-- A host write at an address of the DMEM port; an 8-bit write stores the low byte. -/
  | dmemWrite (width : Width) (addr : Nat) (value : Word)
  /-- The pseudo-instruction `wait` (30_encoding.md R80): `STATUS` is read until `DONE` is 1; a pending
  command completes after `polls` of these reads (log 1). -/
  | wait (polls : Nat)
  /-- The reset input is asserted (70_reset_and_hazards.md R230). -/
  | reset
  /-- The CORE takes its step, where it is enabled (40_command_protocol.md R90). -/
  | core
deriving DecidableEq, Repr

/-- The state of the machine. -/
structure State where
  /-- The implementation parameters, which no step changes (log 3). -/
  params : Params
  /-- `CTRL`. -/
  ctrl : Ctrl
  /-- `STATUS`. -/
  status : Status
  /-- `CMD`: the last command word accepted (10_state.md R29). -/
  cmd : Word
  /-- `ITER` (10_state.md R27). -/
  iter : Word
  /-- `JIDX` (10_state.md R28). -/
  jidx : Word
  /-- `SCRATCH_BASE` (10_state.md R30). -/
  scratchBase : Word
  /-- `SCRATCH_LIMIT` (10_state.md R31). -/
  scratchLimit : Word
  /-- `ARG0`-`ARG11` (10_state.md R32). -/
  args : Vector Word 12
  /-- `IST0`-`IST7` (10_state.md R33). -/
  ist : Vector Word 8
  /-- `OST0`-`OST7` (10_state.md R33). -/
  ost : Vector Word 8
  /-- The latched command state (10_state.md R37). -/
  latch : Latch
  /-- The working state (10_state.md R38). -/
  work : Work
  /-- DMEM (20_memory.md R50). -/
  mem : Memory
  /-- The model's own: how many free values have been drawn (log 7). -/
  draws : Nat
  /-- The model's own: the events still to come, in order (log 1). -/
  inbox : List Event
  /-- The model's own: the values host reads returned, newest first (log 20). -/
  replies : List Word
deriving DecidableEq, Repr

/-- Why the machine stops. -/
inductive Fault where
  /-- A host write to a byte of the executing command's footprint, which "a model records" as a fault
  (20_memory.md R58; 70_reset_and_hazards.md R242; log 10). Raised by the DMEM port. Safe: the model stops where the
  hardware goes on with unspecified results. -/
  | footprintWrite
  /-- A CORE step while busy with a latch that holds no command. Raised by the CORE's step. Safe: no run from
  reset reaches it, since only a decoded command makes the core busy (40_command_protocol.md R93; log 12). -/
  | noLatchedCommand
deriving DecidableEq, Repr

/-- What the model does not admit. -/
inductive Refusal where
  /-- An instruction without a meaning in this model. Raised by no arm of `exec`. Safe. -/
  | notModelled (mnemonic : String)
  /-- A narrower, wider or misaligned access to the register block (10_state.md R40). Raised by the register
  port (log 11). Safe: the spec gives it no effect. -/
  | registerAccess
  /-- A register access outside the 4096 bytes of the block (10_state.md R20). Raised by the register port
  (log 11). Safe: it reaches no part of the core. -/
  | outsideRegisterBlock
  /-- A misaligned 32-bit host access to DMEM (20_memory.md R51). Raised by the DMEM port (log 11). Safe. -/
  | dmemMisaligned
  /-- A host access to DMEM at an address `≥ MEM_SIZE` (20_memory.md R51). Raised by the DMEM port
  (log 11). Safe. -/
  | dmemOutOfRange
  /-- A host access to DMEM that is neither 8 nor 32 bits wide (20_memory.md R51). Raised by the DMEM port
  (log 11). Safe: the port has no such access. -/
  | dmemWidth
deriving DecidableEq, Repr

/-- The reset value of `STATUS`, `0x0000F000` (10_state.md R41). -/
def Status.atReset : Status :=
  { busy := false, done := false, overrun := false, errcode := 0, errarg := 0xF, phase := 0, lane := 0 }

/-- DESIGN CHOICE (log 6; unsafe): the latches after power-up, which the spec leaves unspecified. -/
def Latch.atPowerUp : Latch :=
  { cmd := 0, args := Vector.replicate 12 0, scratchBase := 0, scratchLimit := 0, accel := false }

/-- DESIGN CHOICE (log 6; unsafe): the working state after power-up, which the spec leaves unspecified. -/
def Work.atPowerUp : Work := { x := [], xc := [], lanes := [], hmac := [] }

/-- The machine right after the reset at power-up (10_state.md R41; 70_reset_and_hazards.md R230, R231):
nothing of DMEM has been written, and no input is waiting. -/
def State.reset : State where
  params := Params.atReset
  ctrl := { ie := false, accelEn := false }
  status := Status.atReset
  cmd := 0
  iter := 0
  jidx := 0
  scratchBase := 0
  scratchLimit := 0
  args := Vector.replicate 12 0
  ist := Vector.replicate 8 0
  ost := Vector.replicate 8 0
  latch := Latch.atPowerUp
  work := Work.atPowerUp
  mem := []
  draws := 0
  inbox := []
  replies := []

end Sys2Proof.Machine
end

