-- ==== Sys2Proof/Machine/Flags.lean ====
section
/-! DEFINITION. The fields of `CTRL`, `STATUS` and `CAP` as software reads and writes them, the error codes,
the values `PHASE` and `LANE` may show while busy, and the interrupt output. -/

namespace Sys2Proof.Machine

/-- The code of an error in `STATUS.ERRCODE` (60_exceptions.md R200). -/
def errBits : ErrCode → BitVec 4
  | .illegal => 1
  | .reserved => 2
  | .rounds => 3
  | .zero => 4
  | .paramN => 5
  | .length => 6
  | .tooLarge => 7
  | .align => 8
  | .bounds => 9
  | .alloc => 10
  | .overlap => 11

/-- `ERRARG` where no register is implicated (60_exceptions.md R200). -/
def noArg : BitVec 4 := 15

/-- `ERRARG` naming `SCRATCH_BASE` (60_exceptions.md R200). -/
def scratchBaseArg : BitVec 4 := 12

/-- `ERRARG` naming `SCRATCH_LIMIT` (60_exceptions.md R200). -/
def scratchLimitArg : BitVec 4 := 13

/-- `STATUS.ERR` reads 1 exactly when `ERRCODE ≠ 0` (10_state.md R25). -/
def Status.err (st : Status) : Bool := st.errcode != 0

/-- `STATUS` as a 32-bit read sees it (10_state.md R25); the reserved bits read 0. -/
def Status.word (st : Status) : Word :=
  (0 : BitVec 6) ++ st.lane ++ (0 : BitVec 5) ++ st.phase ++ st.errarg ++ st.errcode ++ (0 : BitVec 4)
    ++ BitVec.ofBool st.overrun ++ BitVec.ofBool st.err ++ BitVec.ofBool st.done ++ BitVec.ofBool st.busy

/-- A host write to `STATUS`: bits 1 and 3 written as 1 clear `DONE` and `OVERRUN`, the rest is ignored
(10_state.md R26). -/
def Status.write (st : Status) (v : Word) : Status :=
  { st with done := st.done && !v.getLsbD 1, overrun := st.overrun && !v.getLsbD 3 }

/-- `CTRL` as a 32-bit read sees it (10_state.md R24). -/
def Ctrl.word (c : Ctrl) : Word := (0 : BitVec 30) ++ BitVec.ofBool c.accelEn ++ BitVec.ofBool c.ie

/-- `CTRL` after a host write (10_state.md R24); writes to bits 31:2 are ignored. -/
def ctrlOf (v : Word) : Ctrl := { ie := v.getLsbD 0, accelEn := v.getLsbD 1 }

/-- `CAP`: `CAP_SIMD`, `CAP_BATCH3`, `CAP_BATCH4` in bits 0 to 2 and `R_MAX` in bits 15:8 (10_state.md R23). -/
def capWord (p : Params) : Word :=
  (0 : BitVec 16) ++ BitVec.ofNat 8 p.rMax ++ (0 : BitVec 5)
    ++ BitVec.ofBool p.capBatch4 ++ BitVec.ofBool p.capBatch3 ++ BitVec.ofBool p.capSimd

/-- The phases a command passes through (10_state.md R35): the input derivation, fill, gather and the output
derivation for `SCRYPT` and the coin hashes; fill and gather for the ROMix commands; `SINGLE` for the rest
(DEDUCED, log 8). -/
def phases : Instr → List (BitVec 3)
  | .salsaCore _ => [5]
  | .chachaCore _ => [5]
  | .blockmixS _ => [5]
  | .blockmixC _ => [5]
  | .shuffle => [5]
  | .unshuffle => [5]
  | .blkxor => [5]
  | .romixS _ => [2, 3]
  | .romixC _ => [2, 3]
  | .romix2 _ => [2, 3]
  | .hmacInit => [5]
  | .pbkdf2Blk => [5]
  | .pbkdf2 => [5]
  | .scrypt => [1, 2, 3, 4]
  | .powhash => [1, 2, 3, 4]
  | .powhash3 => [1, 2, 3, 4]
  | .powhash4 => [1, 2, 3, 4]

/-- How many lane numbers `STATUS.LANE` may show while a command executes: `k` for the batched commands, only
lane 0 for every other (10_state.md R36). -/
def laneCount : Instr → Nat
  | .powhash3 => 3
  | .powhash4 => 4
  | .salsaCore _ | .chachaCore _ | .blockmixS _ | .blockmixC _ | .shuffle | .unshuffle | .blkxor => 1
  | .romixS _ | .romixC _ | .romix2 _ | .hmacInit | .pbkdf2Blk | .pbkdf2 | .scrypt | .powhash => 1

/-- `PHASE` as a read while `i` executes shows it: one of the command's phases, unspecified which. -/
def drawnPhase (i : Instr) (n : Nat) : BitVec 3 :=
  (phases i).getD ((Config.freeWord n 0).toNat % (phases i).length) 0

/-- `LANE` as a read while `i` executes shows it: a lane number below `k`, unspecified which. -/
def drawnLane (i : Instr) (n : Nat) : BitVec 2 :=
  BitVec.ofNat 2 ((Config.freeWord n 1).toNat % laneCount i)

/-- The interrupt output: `IRQ = CTRL.IE ∧ STATUS.DONE`, evaluated in every state (60_exceptions.md R211). -/
def State.irq (s : State) : Bool := s.ctrl.ie && s.status.done

end Sys2Proof.Machine
end

