-- ==== Sys2Proof/Machine/Ops.lean ====
section
/-! DEFINITION. The named operations over DMEM and the registers: byte order (00_scope.md R12), the memory
primitives (R13), reads and writes of the register block (10_state.md), and the shared parts of every
command: the latching of its operands (40_command_protocol.md R92), its error end (60_exceptions.md R201),
its start (R93) and its completion (R96). -/

namespace Sys2Proof.Machine

/-! ### Byte order -/

/-- `LE32(b0, b1, b2, b3)` (00_scope.md R12). -/
def le32 (b0 b1 b2 b3 : Byte) : Word := b3 ++ b2 ++ b1 ++ b0

/-- `le32(w)`: 4 bytes, least significant first (00_scope.md R12). -/
def toLE (w : Word) : List Byte :=
  [w.extractLsb' 0 8, w.extractLsb' 8 8, w.extractLsb' 16 8, w.extractLsb' 24 8]

/-- `be32(w)`: 4 bytes, most significant first (00_scope.md R12). -/
def toBE (w : Word) : List Byte := (toLE w).reverse

/-- `be64(v)`: the 8-byte big-endian form of a 64-bit value (00_scope.md R12; DEDUCED, log 16). -/
def be64 (v : Nat) : List Byte :=
  toBE (BitVec.ofNat 32 (v / 2 ^ 32)) ++ toBE (BitVec.ofNat 32 v)

/-- The little-endian Words of a byte string, 4 bytes each (45_drivers.md R180, `words(b)`). -/
def wordsOf : List Byte → List Word
  | b0 :: b1 :: b2 :: b3 :: rest => le32 b0 b1 b2 b3 :: wordsOf rest
  | _ => []

/-- The little-endian serialization of a list of Words (45_drivers.md R180, `bytes(X)`). -/
def bytesOf (ws : List Word) : List Byte := ws.flatMap toLE

/-! ### DMEM -/

/-- The canonical form: addresses strictly rising. An unlisted address holds no written value, so no entry
can equal what an unlisted address holds (log 5). -/
abbrev Memory.wf (m : Memory) : Prop := m.Pairwise (fun c d => c.1 < d.1)

/-- The byte at an address: the one last written, or the free power-up byte (70_reset_and_hazards.md R231). -/
def byteAt (m : Memory) (a : Nat) : Byte := (m.lookup a).getD (Config.powerUpByte a)

/-- `MemRead(addr, n)` (00_scope.md R13). -/
def memRead (m : Memory) (a n : Nat) : List Byte := (List.range n).map fun k => byteAt m (a + k)

/-- The cells a byte string occupies from an address up. -/
def cellsFrom : Nat → List Byte → Memory
  | _, [] => []
  | a, b :: bs => (a, b) :: cellsFrom (a + 1) bs

/-- `MemWrite(addr, n, v)` with `n` the length of `v` (00_scope.md R13). Nothing is changed by an empty `v`. -/
def memWrite (m : Memory) (a : Nat) (v : List Byte) : Memory :=
  m.filter (fun c => c.1 < a) ++ cellsFrom a v ++ m.filter (fun c => a + v.length ≤ c.1)

/-- The Word at an address: `LE32` of its four bytes (20_memory.md R51, R52). -/
def wordAt (m : Memory) (a : Nat) : Word :=
  le32 (byteAt m a) (byteAt m (a + 1)) (byteAt m (a + 2)) (byteAt m (a + 3))

/-- `ReadWords(addr, m)` (00_scope.md R13). -/
def readWords (m : Memory) (a n : Nat) : List Word := (List.range n).map fun i => wordAt m (a + 4 * i)

/-- Several writes, in order. -/
def memWrites (m : Memory) (ws : List (Nat × List Byte)) : Memory :=
  ws.foldl (fun m w => memWrite m w.1 w.2) m

/-! ### The register block -/

/-- The registers of 10_state.md R20. -/
inductive Reg where
  | id
  | version
  | cap
  | ctrl
  | status
  | cmd
  | iter
  | jidx
  | scratchBase
  | scratchLimit
  | arg (i : Fin 12)
  | ist (i : Fin 8)
  | ost (i : Fin 8)
  | reserved
deriving DecidableEq, Repr

/-- The register at a 4-byte-aligned offset of the block (10_state.md R20). -/
def Reg.ofOffset (off : Nat) : Reg :=
  if off = 0x000 then .id
  else if off = 0x004 then .version
  else if off = 0x008 then .cap
  else if off = 0x00C then .ctrl
  else if off = 0x010 then .status
  else if off = 0x014 then .cmd
  else if off = 0x018 then .iter
  else if off = 0x01C then .jidx
  else if off = 0x020 then .scratchBase
  else if off = 0x024 then .scratchLimit
  else if 0x040 ≤ off ∧ off < 0x070 then .arg (Fin.ofNat 12 ((off - 0x040) / 4))
  else if 0x080 ≤ off ∧ off < 0x0A0 then .ist (Fin.ofNat 8 ((off - 0x080) / 4))
  else if 0x0A0 ≤ off ∧ off < 0x0C0 then .ost (Fin.ofNat 8 ((off - 0x0A0) / 4))
  else .reserved

/-- The offset of a register in the block; `reserved` stands for the first reserved offset (10_state.md R20). -/
def Reg.offset : Reg → Nat
  | .id => 0x000
  | .version => 0x004
  | .cap => 0x008
  | .ctrl => 0x00C
  | .status => 0x010
  | .cmd => 0x014
  | .iter => 0x018
  | .jidx => 0x01C
  | .scratchBase => 0x020
  | .scratchLimit => 0x024
  | .arg i => 0x040 + 4 * i.val
  | .ist i => 0x080 + 4 * i.val
  | .ost i => 0x0A0 + 4 * i.val
  | .reserved => 0x028

/-- The command the latch holds. While busy it is the executing command (10_state.md R37). -/
def executing (s : State) : Option Instr :=
  match decode s.latch.cmd with
  | .ok i => some i
  | .error _ => none

/-- `STATUS` with the phase and lane a read shows: the register's own while idle, drawn from what the
executing command allows while busy (10_state.md R35, R36). -/
def shownStatus (s : State) : Status :=
  match s.status.busy, executing s with
  | true, some i => { s.status with phase := drawnPhase i s.draws, lane := drawnLane i s.draws }
  | _, _ => s.status

/-- A register that reads `v` while idle and an unspecified value while busy (10_state.md R27, R28, R33). -/
def settled (s : State) (slot : Nat) (v : Word) : Word :=
  if s.status.busy then Config.freeWord s.draws slot else v

/-- The value a host read of a register returns (10_state.md R21-R36). -/
def readReg (s : State) : Reg → Word
  | .id => 0x53323038
  | .version => 0x00000007
  | .cap => capWord s.params
  | .ctrl => s.ctrl.word
  | .status => (shownStatus s).word
  | .cmd => s.cmd
  | .iter => settled s 0 s.iter
  | .jidx => settled s 0 s.jidx
  | .scratchBase => s.scratchBase
  | .scratchLimit => s.scratchLimit
  | .arg i => s.args[i]
  | .ist i => settled s 0 s.ist[i]
  | .ost i => settled s 0 s.ost[i]
  | .reserved => 0

/-- The state after a host write to a register (10_state.md R21-R34). A write to `CMD` issues a command and
is not handled here: it changes nothing here. -/
def writeReg (r : Reg) (v : Word) (s : State) : State :=
  match r with
  | .id => s
  | .version => s
  | .cap => s
  | .ctrl => { s with ctrl := ctrlOf v }
  | .status => { s with status := s.status.write v }
  | .cmd => s
  | .iter => s
  | .jidx => s
  | .scratchBase => { s with scratchBase := v }
  | .scratchLimit => { s with scratchLimit := v }
  | .arg i => { s with args := s.args.set i.val v }
  | .ist i => if s.status.busy then s else { s with ist := s.ist.set i.val v }
  | .ost i => if s.status.busy then s else { s with ost := s.ost.set i.val v }
  | .reserved => s

/-- The reply of a host read. A read while busy may have drawn free values, so it counts as a draw. -/
def reply (v : Word) (s : State) : State :=
  { s with replies := v :: s.replies, draws := if s.status.busy then s.draws + 1 else s.draws }

/-! ### Free hidden state -/

/-- Latches of which nothing is known (10_state.md R37, R41; log 9). -/
def freeLatch (n : Nat) : Latch where
  cmd := Config.freeWord n 0
  args := Vector.ofFn fun i => Config.freeWord n (1 + i.val)
  scratchBase := Config.freeWord n 13
  scratchLimit := Config.freeWord n 14
  accel := (Config.freeWord n 15).getLsbD 0

/-- Working state of which nothing is known but the bound on a Block's length (10_state.md R38; log 9). -/
def freeWork (p : Params) (n : Nat) : Work where
  x := (Config.freeWords n 0).take (32 * p.rMax)
  xc := (Config.freeWords n 1).take (32 * p.rMax)
  lanes := [2, 3, 4, 5].map fun k => (Config.freeWords n k).take (32 * p.rMax)
  hmac := Config.freeWords n 6

/-! ### The parts every command shares -/

/-- Acceptance up to `decode` (40_command_protocol.md R92): `CMD` and the latches take the word and the
operands, `DONE`, `ERRCODE` and `ERRARG` are cleared; `OVERRUN` stays. -/
def latchCommand (w : Word) (s : State) : State :=
  { s with
    cmd := w
    latch :=
      { cmd := w, args := s.args, scratchBase := s.scratchBase, scratchLimit := s.scratchLimit,
        accel := s.ctrl.accelEn }
    status := { s.status with done := false, errcode := 0, errarg := noArg } }

/-- A `CMD` write while busy is dropped and sets `OVERRUN` (40_command_protocol.md R91). -/
def overrun (s : State) : State := { s with status := { s.status with overrun := true } }

/-- THE ERROR END (60_exceptions.md R201), the one way a command ends with an error: the code and the
register at fault are recorded, `DONE` is set, and nothing else changes. There is no return from it
(R204): the next accepted command clears it. -/
def errorEnd (e : CmdError) (s : State) : State :=
  { s with status := { s.status with errcode := errBits e.code, errarg := e.arg, done := true } }

/-- Every check passed: the command is executing (40_command_protocol.md R93). -/
def beginExec (s : State) : State := { s with status := { s.status with busy := true } }

/-- What a command computes (40_command_protocol.md R96): the DMEM bytes it writes, in order, and the values
of `IST`, `OST`, `ITER` and `JIDX` it leaves. -/
structure Results where
  writes : List (Nat × List Byte)
  ist : Vector Word 8
  ost : Vector Word 8
  iter : Word
  jidx : Word

/-- The results of a command that runs no ROMix and no HMAC set-up: `IST` and `OST` keep their values and
`ITER` and `JIDX` are 0 (10_state.md R27, R28, R33). -/
def Results.writing (s : State) (writes : List (Nat × List Byte)) : Results :=
  { writes := writes, ist := s.ist, ost := s.ost, iter := 0, jidx := 0 }

/-- COMPLETION (40_command_protocol.md R96), one atomic step: the results are written, then `BUSY`, `PHASE`
and `LANE` become 0 and `DONE` becomes 1; `ERRCODE` stays. The results are computed from this state, which equals
the acceptance snapshot in what they depend on (DEDUCED, log 21). The hidden state is unspecified afterwards
(10_state.md R37, R38; log 9). -/
def complete (r : Results) (s : State) : State :=
  { s with
    mem := memWrites s.mem r.writes
    ist := r.ist
    ost := r.ost
    iter := r.iter
    jidx := r.jidx
    status := { s.status with busy := false, done := true, phase := 0, lane := 0 }
    latch := freeLatch s.draws
    work := freeWork s.params s.draws
    draws := s.draws + 1 }

end Sys2Proof.Machine
end

