-- ==== Sys2Proof/Machine/Operands.lean ====
section
/-! DEFINITION. Operands: the latched arguments, the operand table of every command (40_command_protocol.md
R95, and each command's own rule), the checks of R94, and the footprint of R56 (20_memory.md). -/

namespace Sys2Proof.Machine

/-- `arg[i]`, the latched `LA[i]`, as the unbounded integer address arithmetic uses (00_scope.md R8, R13;
30_encoding.md R76). -/
def Latch.arg (l : Latch) (i : Fin 12) : Nat := l.args[i].toNat

/-- `LSBASE` as an unbounded integer. -/
def Latch.sbase (l : Latch) : Nat := l.scratchBase.toNat

/-- What a command does with a region (40_command_protocol.md R95). -/
inductive RegionUse where
  | input
  | result
  | scratch
deriving DecidableEq, Repr

/-- A region `(a, n)` (20_memory.md R53), with the `ERRARG` value that names its address register. -/
structure Region where
  arg : BitVec 4
  base : Nat
  len : Nat
  use : RegionUse
  aligned : Bool
deriving DecidableEq, Repr

/-- A listed pair `(X, Y, ok)`: regions that must not overlap, unless `ok` and they are identical
(20_memory.md R55). -/
structure OverlapPair where
  fst : Region
  snd : Region
  sameAllowed : Bool
deriving DecidableEq, Repr

/-- The operand table of a command (40_command_protocol.md R95). -/
structure OperandTable where
  /-- Nonzero-parameter arguments. -/
  nonzero : List (Fin 12) := []
  /-- Power-of-two arguments. -/
  pow2 : List (Fin 12) := []
  /-- Header-length arguments. -/
  header : List (Fin 12) := []
  /-- `r`-parameter arguments. -/
  rparam : List (Fin 12) := []
  /-- The regions, in the order of the `ALIGN` and `BOUNDS` checks. -/
  regions : List Region := []
  /-- The scratch region `(LSBASE, S)`, where the command uses scratch. -/
  scratch : Option Region := none
  /-- The overlap pairs, in order. -/
  overlaps : List OverlapPair := []
deriving DecidableEq, Repr

/-- The `ERRARG` value that names `ARGi` (60_exceptions.md R200). -/
def argName (i : Fin 12) : BitVec 4 := BitVec.ofNat 4 i.val

/-! ### The checks -/

/-- `inbounds(a, n)`: an empty region always, another when `a + n ≤ MEM_SIZE` (20_memory.md R53). -/
def inbounds (p : Params) (r : Region) : Bool := r.len == 0 || r.base + r.len ≤ p.memSize

/-- `overlap(X, Y)` (20_memory.md R55). -/
def overlap (x y : Region) : Bool :=
  0 < x.len && 0 < y.len && x.base < y.base + y.len && y.base < x.base + x.len

/-- `identical(X, Y)` (20_memory.md R55). -/
def identical (x y : Region) : Bool := x.base == y.base && x.len == y.len

/-- `v` is `2^m` for some `m ≥ 0` (40_command_protocol.md R94). -/
def isPow2 (v : Word) : Bool := (List.range 32).any fun m => v.toNat == 2 ^ m

/-- The `ZERO` checks. -/
def checkZero (l : Latch) (t : OperandTable) : Option CmdError :=
  t.nonzero.findSome? fun i => if l.arg i = 0 then some ⟨.zero, argName i⟩ else none

/-- The `PARAM_N` checks. -/
def checkPow2 (l : Latch) (t : OperandTable) : Option CmdError :=
  t.pow2.findSome? fun i => if isPow2 l.args[i] then none else some ⟨.paramN, argName i⟩

/-- The `LENGTH` checks. -/
def checkHeader (l : Latch) (t : OperandTable) : Option CmdError :=
  t.header.findSome? fun i => if l.arg i = 80 then none else some ⟨.length, argName i⟩

/-- The `TOO_LARGE` checks on `r`. -/
def checkRMax (p : Params) (l : Latch) (t : OperandTable) : Option CmdError :=
  t.rparam.findSome? fun i => if p.rMax < l.arg i then some ⟨.tooLarge, argName i⟩ else none

/-- The `TOO_LARGE` check on the scratch need. -/
def checkLimit (l : Latch) (t : OperandTable) : Option CmdError :=
  t.scratch.bind fun sc => if l.scratchLimit.toNat < sc.len then some ⟨.tooLarge, scratchLimitArg⟩ else none

/-- The `ALIGN` checks on the 4-aligned regions. -/
def checkAlign (t : OperandTable) : Option CmdError :=
  t.regions.findSome? fun r => if r.aligned && r.base % 4 != 0 then some ⟨.align, r.arg⟩ else none

/-- The `ALIGN` check on `SCRATCH_BASE`. -/
def checkScratchAlign (t : OperandTable) : Option CmdError :=
  t.scratch.bind fun sc => if sc.base % 128 ≠ 0 then some ⟨.align, sc.arg⟩ else none

/-- The `BOUNDS` checks. -/
def checkBounds (p : Params) (t : OperandTable) : Option CmdError :=
  t.regions.findSome? fun r => if inbounds p r then none else some ⟨.bounds, r.arg⟩

/-- The `ALLOC` check. -/
def checkAlloc (p : Params) (t : OperandTable) : Option CmdError :=
  t.scratch.bind fun sc => if inbounds p sc then none else some ⟨.alloc, sc.arg⟩

/-- The `OVERLAP` checks. -/
def checkOverlap (t : OperandTable) : Option CmdError :=
  t.overlaps.findSome? fun o =>
    if overlap o.fst o.snd && !(o.sameAllowed && identical o.fst o.snd) then some ⟨.overlap, o.fst.arg⟩
    else none

/-- `check(row, LA, LSBASE, LSLIMIT)` (40_command_protocol.md R94; 60_exceptions.md R202): the first check
that fails, in the fixed order. -/
def check (p : Params) (l : Latch) (t : OperandTable) : Option CmdError :=
  checkZero l t <|> checkPow2 l t <|> checkHeader l t <|> checkRMax p l t <|> checkLimit l t
    <|> checkAlign t <|> checkScratchAlign t <|> checkBounds p t <|> checkAlloc p t <|> checkOverlap t

/-- The `ROUNDS` check of `decode` (30_encoding.md R73, R75), for a command that did not come out of `decode`
(log 14). -/
def checkRounds (i : Instr) : Option CmdError := if i.wf then none else some ⟨.rounds, noArg⟩

/-! ### The regions of the operand tables -/

/-- An input region at the address in `ARGi`. -/
def inputAt (l : Latch) (i : Fin 12) (len : Nat) (aligned : Bool) : Region :=
  { arg := argName i, base := l.arg i, len := len, use := .input, aligned := aligned }

/-- A result region at the address in `ARGi`. -/
def resultAt (l : Latch) (i : Fin 12) (len : Nat) (aligned : Bool) : Region :=
  { arg := argName i, base := l.arg i, len := len, use := .result, aligned := aligned }

/-- The scratch region `(LSBASE, S)`. -/
def scratchOf (l : Latch) (need : Nat) : Region :=
  { arg := scratchBaseArg, base := l.sbase, len := need, use := .scratch, aligned := false }

/-- The table of the two core permutations (41_core_permutation.md R117). -/
def coreTable (l : Latch) : OperandTable where
  regions := [inputAt l 0 64 true, resultAt l 1 64 true]
  overlaps := [⟨resultAt l 1 64 true, inputAt l 0 64 true, true⟩]

/-- The table of a command from one Block to another: `ARG0`, `ARG1`, `r = ARG2` (42_block_mixer.md R125,
R127). -/
def blockTable (l : Latch) : OperandTable where
  nonzero := [2]
  rparam := [2]
  regions := [inputAt l 0 (128 * l.arg 2) true, resultAt l 1 (128 * l.arg 2) true]
  overlaps := [⟨resultAt l 1 (128 * l.arg 2) true, inputAt l 0 (128 * l.arg 2) true, true⟩]

/-- The table of a ROMix command whose scratch need is `need` (43_romix.md R147, R149). -/
def romixTable (l : Latch) (need : Nat) : OperandTable where
  nonzero := [2]
  pow2 := [3]
  rparam := [2]
  regions := [inputAt l 0 (128 * l.arg 2) true, resultAt l 1 (128 * l.arg 2) true]
  scratch := some (scratchOf l need)
  overlaps :=
    [⟨resultAt l 1 (128 * l.arg 2) true, inputAt l 0 (128 * l.arg 2) true, true⟩,
     ⟨inputAt l 0 (128 * l.arg 2) true, scratchOf l need, false⟩,
     ⟨resultAt l 1 (128 * l.arg 2) true, scratchOf l need, false⟩]

/-- Bytes of scratch one lane of a coin-hash command uses: its Block and 1024 slots, `128·1025`
(45_drivers.md R184). -/
def laneBytes : Nat := 131200

/-- The table of a coin-hash command of `k` lanes (45_drivers.md R184, R186, R187). -/
def powTable (l : Latch) (k : Nat) : OperandTable where
  header := [1]
  regions := [inputAt l 0 (80 * k) false, resultAt l 2 (32 * k) false]
  scratch := some (scratchOf l (laneBytes * k))
  overlaps :=
    [⟨resultAt l 2 (32 * k) false, inputAt l 0 (80 * k) false, false⟩,
     ⟨inputAt l 0 (80 * k) false, scratchOf l (laneBytes * k), false⟩,
     ⟨resultAt l 2 (32 * k) false, scratchOf l (laneBytes * k), false⟩]

/-! ### The operand table of each row -/

/-- `SALSA.CORE` (41_core_permutation.md R117). -/
def salsaCoreTable (l : Latch) : OperandTable := coreTable l

/-- `CHACHA.CORE` (41_core_permutation.md R118). -/
def chachaCoreTable (l : Latch) : OperandTable := coreTable l

/-- `BLOCKMIX.S` (42_block_mixer.md R125). -/
def blockmixSTable (l : Latch) : OperandTable := blockTable l

/-- `BLOCKMIX.C` (42_block_mixer.md R126). -/
def blockmixCTable (l : Latch) : OperandTable := blockTable l

/-- `SHUFFLE` (42_block_mixer.md R127). -/
def shuffleTable (l : Latch) : OperandTable := blockTable l

/-- `UNSHUFFLE` (42_block_mixer.md R128). -/
def unshuffleTable (l : Latch) : OperandTable := blockTable l

/-- `BLKXOR` (42_block_mixer.md R129). -/
def blkxorTable (l : Latch) : OperandTable where
  nonzero := [2]
  rparam := [2]
  regions :=
    [inputAt l 0 (128 * l.arg 2) true, inputAt l 1 (128 * l.arg 2) true, resultAt l 3 (128 * l.arg 2) true]
  overlaps :=
    [⟨resultAt l 3 (128 * l.arg 2) true, inputAt l 0 (128 * l.arg 2) true, true⟩,
     ⟨resultAt l 3 (128 * l.arg 2) true, inputAt l 1 (128 * l.arg 2) true, true⟩]

/-- `ROMIX.S`: `S = 128·r·N` (43_romix.md R147). -/
def romixSTable (l : Latch) : OperandTable := romixTable l (128 * l.arg 2 * l.arg 3)

/-- `ROMIX.C`: `S = 128·r·N` (43_romix.md R148). -/
def romixCTable (l : Latch) : OperandTable := romixTable l (128 * l.arg 2 * l.arg 3)

/-- `ROMIX2`: `S = 2·128·r·N` (43_romix.md R149). -/
def romix2Table (l : Latch) : OperandTable := romixTable l (2 * (128 * l.arg 2 * l.arg 3))

/-- `HMAC.INIT` (44_pbkdf2.md R166). -/
def hmacInitTable (l : Latch) : OperandTable where
  regions := [inputAt l 0 (l.arg 1) false]

/-- `PBKDF2.BLK` (44_pbkdf2.md R167). -/
def pbkdf2BlkTable (l : Latch) : OperandTable where
  regions := [inputAt l 0 (l.arg 1) false, resultAt l 3 32 false]
  overlaps := [⟨resultAt l 3 32 false, inputAt l 0 (l.arg 1) false, false⟩]

/-- `PBKDF2` (44_pbkdf2.md R168). -/
def pbkdf2Table (l : Latch) : OperandTable where
  nonzero := [4, 6]
  regions := [inputAt l 0 (l.arg 1) false, inputAt l 2 (l.arg 3) false, resultAt l 5 (l.arg 6) false]
  overlaps :=
    [⟨resultAt l 5 (l.arg 6) false, inputAt l 0 (l.arg 1) false, false⟩,
     ⟨resultAt l 5 (l.arg 6) false, inputAt l 2 (l.arg 3) false, false⟩]

/-- `SCRYPT`: `S = 128·r·(p + N)` (45_drivers.md R181). -/
def scryptTable (l : Latch) : OperandTable :=
  let scratch := scratchOf l (128 * l.arg 5 * (l.arg 6 + l.arg 4))
  let pwd := inputAt l 0 (l.arg 1) false
  let salt := inputAt l 2 (l.arg 3) false
  let out := resultAt l 7 (l.arg 8) false
  { nonzero := [5, 6, 8]
    pow2 := [4]
    rparam := [5]
    regions := [pwd, salt, out]
    scratch := some scratch
    overlaps :=
      [⟨out, pwd, false⟩, ⟨out, salt, false⟩, ⟨pwd, scratch, false⟩, ⟨salt, scratch, false⟩,
       ⟨out, scratch, false⟩] }

/-- `POWHASH` (45_drivers.md R184). -/
def powhashTable (l : Latch) : OperandTable := powTable l 1

/-- `POWHASH3` (45_drivers.md R186). -/
def powhash3Table (l : Latch) : OperandTable := powTable l 3

/-- `POWHASH4` (45_drivers.md R187). -/
def powhash4Table (l : Latch) : OperandTable := powTable l 4

/-- The operand table of a command. -/
def operandTable (i : Instr) (l : Latch) : OperandTable :=
  match i with
  | .salsaCore _ => salsaCoreTable l
  | .chachaCore _ => chachaCoreTable l
  | .blockmixS _ => blockmixSTable l
  | .blockmixC _ => blockmixCTable l
  | .shuffle => shuffleTable l
  | .unshuffle => unshuffleTable l
  | .blkxor => blkxorTable l
  | .romixS _ => romixSTable l
  | .romixC _ => romixCTable l
  | .romix2 _ => romix2Table l
  | .hmacInit => hmacInitTable l
  | .pbkdf2Blk => pbkdf2BlkTable l
  | .pbkdf2 => pbkdf2Table l
  | .scrypt => scryptTable l
  | .powhash => powhashTable l
  | .powhash3 => powhash3Table l
  | .powhash4 => powhash4Table l

/-! ### The footprint -/

/-- `a` lies in the region. -/
def Region.has (r : Region) (a : Nat) : Bool := r.base ≤ a && a < r.base + r.len

/-- Every region of a command, the scratch region among them. -/
def OperandTable.allRegions (t : OperandTable) : List Region := t.regions ++ t.scratch.toList

/-- `a` lies in the footprint: an operand, a result or the scratch region (20_memory.md R56). -/
def OperandTable.inFootprint (t : OperandTable) (a : Nat) : Bool := t.allRegions.any fun r => r.has a

/-- `a` lies in a result or the scratch region, the bytes a command may write (20_memory.md R58). -/
def OperandTable.mayWrite (t : OperandTable) (a : Nat) : Bool :=
  t.allRegions.any fun r => r.use != .input && r.has a

/-- The operand table of the executing command; nothing while idle. -/
def activeTable (s : State) : OperandTable :=
  match s.status.busy, executing s with
  | true, some i => operandTable i s.latch
  | _, _ => {}

/-- What the shared operation of a command does (40_command_protocol.md R90): while idle, the checks and
then the error end or the start, within the host's step; while busy, the completion, the CORE's step
(log 13). -/
def command (i : Instr) (t : OperandTable) (results : State → Results) (s : State) :
    Host.Outcome State Fault Refusal :=
  if s.status.busy then .next (complete (results s) s)
  else
    match checkRounds i <|> check s.params s.latch t with
    | some e => .next (errorEnd e s)
    | none => .next (beginExec s)

end Sys2Proof.Machine
end

