-- ==== Sys2Proof/Machine/CorePermutation.lean ====
section
/-! DEFINITION. The core permutations, Salsa20 and ChaCha with a caller-supplied round count
(41_core_permutation.md R110-R116), and the meanings of `SALSA.CORE` and `CHACHA.CORE` (R117, R118). A state
of a permutation is a list of 16 Words. -/

namespace Sys2Proof.Machine

/-- `rotl(v, n)` for `0 < n < 32` (00_scope.md R11). -/
def rotl (v : Word) (n : Nat) : Word := (v <<< n) ||| (v >>> (32 - n))

/-- The Word `x[i]` of a list of Words. -/
def nth (x : List Word) (i : Nat) : Word := x.getD i 0

/-- The Salsa20 quarter-round (41_core_permutation.md R111). -/
def salsaQR (x : List Word) (a b c d : Nat) : List Word :=
  let x := x.set b (nth x b ^^^ rotl (nth x a + nth x d) 7)
  let x := x.set c (nth x c ^^^ rotl (nth x b + nth x a) 9)
  let x := x.set d (nth x d ^^^ rotl (nth x c + nth x b) 13)
  x.set a (nth x a ^^^ rotl (nth x d + nth x c) 18)

/-- The Salsa20 double round: the column round, then the row round (41_core_permutation.md R112). -/
def salsaDouble (x : List Word) : List Word :=
  let x := salsaQR x 0 4 8 12
  let x := salsaQR x 5 9 13 1
  let x := salsaQR x 10 14 2 6
  let x := salsaQR x 15 3 7 11
  let x := salsaQR x 0 1 2 3
  let x := salsaQR x 5 6 7 4
  let x := salsaQR x 10 11 8 9
  salsaQR x 15 12 13 14

/-- The ChaCha quarter-round (41_core_permutation.md R114). -/
def chachaQR (x : List Word) (a b c d : Nat) : List Word :=
  let x := x.set a (nth x a + nth x b)
  let x := x.set d (rotl (nth x d ^^^ nth x a) 16)
  let x := x.set c (nth x c + nth x d)
  let x := x.set b (rotl (nth x b ^^^ nth x c) 12)
  let x := x.set a (nth x a + nth x b)
  let x := x.set d (rotl (nth x d ^^^ nth x a) 8)
  let x := x.set c (nth x c + nth x d)
  x.set b (rotl (nth x b ^^^ nth x c) 7)

/-- The ChaCha double round: the column round, then the diagonal round (41_core_permutation.md R115). -/
def chachaDouble (x : List Word) : List Word :=
  let x := chachaQR x 0 4 8 12
  let x := chachaQR x 1 5 9 13
  let x := chachaQR x 2 6 10 14
  let x := chachaQR x 3 7 11 15
  let x := chachaQR x 0 5 10 15
  let x := chachaQR x 1 6 11 12
  let x := chachaQR x 2 7 8 13
  chachaQR x 3 4 9 14

/-- `f` applied `n` times. -/
def iterate {α : Type} (f : α → α) : Nat → α → α
  | 0, x => x
  | n + 1, x => iterate f n (f x)

/-- The feed-forward: Word by Word addition modulo 2^32 (41_core_permutation.md R113). -/
def addWords (x y : List Word) : List Word := List.zipWith (· + ·) x y

/-- `Salsa(in, R)`: `R/2` double rounds, then the feed-forward (41_core_permutation.md R110, R113). -/
def salsa (x : List Word) (R : Nat) : List Word := addWords (iterate salsaDouble (R / 2) x) x

/-- `ChaCha(in, R)` (41_core_permutation.md R116). -/
def chacha (x : List Word) (R : Nat) : List Word := addWords (iterate chachaDouble (R / 2) x) x

/-- `Core(ALG, in, R)` (41_core_permutation.md R116). -/
def corePerm : Alg → List Word → Nat → List Word
  | .salsa, x, R => salsa x R
  | .chacha, x, R => chacha x R

/-- The results of a core permutation command: 16 Words from `ARG0`, permuted, to `ARG1`
(41_core_permutation.md R117). -/
def coreResults (alg : Alg) (rounds : BitVec 6) (s : State) : Results :=
  .writing s
    [(s.latch.arg 1, bytesOf (corePerm alg (readWords s.mem (s.latch.arg 0) 16) (roundCount rounds)))]

/-- `SALSA.CORE` (41_core_permutation.md R117). -/
def execSalsaCore (rounds : BitVec 6) (s : State) : Host.Outcome State Fault Refusal :=
  command (.salsaCore rounds) (salsaCoreTable s.latch) (coreResults .salsa rounds) s

/-- `CHACHA.CORE` (41_core_permutation.md R118). -/
def execChachaCore (rounds : BitVec 6) (s : State) : Host.Outcome State Fault Refusal :=
  command (.chachaCore rounds) (chachaCoreTable s.latch) (coreResults .chacha rounds) s

end Sys2Proof.Machine
end

