-- ==== Sys2Proof/Machine/BlockMixer.lean ====
section
/-! DEFINITION. The block mixer: BlockMix, shuffle, unshuffle and Block XOR (42_block_mixer.md R120-R123), and
the meanings of `BLOCKMIX.S`, `BLOCKMIX.C`, `SHUFFLE`, `UNSHUFFLE` and `BLKXOR` (R125-R129). A Block is a
list of `32·r` Words. -/

namespace Sys2Proof.Machine

/-- Word by Word exclusive OR of two lists of Words. -/
def xorWords (x y : List Word) : List Word := List.zipWith (· ^^^ ·) x y

/-- Sub-block `k` of a Block: `B[16k .. 16k+16)` (00_scope.md R15). -/
def subBlock (B : List Word) (k : Nat) : List Word := (B.drop (16 * k)).take 16

/-- The outputs `Y[0], Y[1], …` of BlockMix over the given sub-blocks, `X` being the Word list the first one
is combined with (42_block_mixer.md R120). -/
def mixChain (alg : Alg) (R : Nat) : List (List Word) → List Word → List (List Word)
  | [], _ => []
  | b :: bs, X => corePerm alg (xorWords X b) R :: mixChain alg R bs (corePerm alg (xorWords X b) R)

/-- `BlockMix(ALG, B, r, R)` (42_block_mixer.md R120): it starts from the last sub-block and returns the
even-indexed outputs, then the odd-indexed ones. -/
def blockMix (alg : Alg) (B : List Word) (r R : Nat) : List Word :=
  let Y := mixChain alg R ((List.range (2 * r)).map (subBlock B)) (subBlock B (2 * r - 1))
  ((List.range r).flatMap fun k => Y.getD (2 * k) []) ++ ((List.range r).flatMap fun k => Y.getD (2 * k + 1) [])

/-- The index map `σ` (42_block_mixer.md R121). -/
def sigma : List Nat := [0, 5, 10, 15, 12, 1, 6, 11, 8, 13, 2, 7, 4, 9, 14, 3]

/-- `Shuffle(B, r)`: `out[16k + i] <- B[16k + σ[i]]` (42_block_mixer.md R121). -/
def shuffle (B : List Word) (r : Nat) : List Word :=
  (List.range (2 * r)).flatMap fun k => sigma.map fun s => nth B (16 * k + s)

/-- One sub-block of `Unshuffle`: `out[σ[i]] <- b[i]` for `i` in 0 to 15 (42_block_mixer.md R122). -/
def unshuffleSub (b : List Word) : List Word :=
  (List.range 16).foldl (fun out i => out.set (sigma.getD i 0) (nth b i)) b

/-- `Unshuffle(B, r)`: `out[16k + σ[i]] <- B[16k + i]` (42_block_mixer.md R122). -/
def unshuffle (B : List Word) (r : Nat) : List Word :=
  (List.range (2 * r)).flatMap fun k => unshuffleSub (subBlock B k)

/-- The Block of `32·r` Words at `ARGi`, with `r = ARG2` (42_block_mixer.md R125). -/
def blockAt (s : State) (i : Fin 12) : List Word := readWords s.mem (s.latch.arg i) (32 * s.latch.arg 2)

/-- The results of a BlockMix command (42_block_mixer.md R125, R126). -/
def blockmixResults (alg : Alg) (rounds : BitVec 6) (s : State) : Results :=
  .writing s [(s.latch.arg 1, bytesOf (blockMix alg (blockAt s 0) (s.latch.arg 2) (roundCount rounds)))]

/-- The results of `SHUFFLE` (42_block_mixer.md R127). -/
def shuffleResults (s : State) : Results :=
  .writing s [(s.latch.arg 1, bytesOf (shuffle (blockAt s 0) (s.latch.arg 2)))]

/-- The results of `UNSHUFFLE` (42_block_mixer.md R128). -/
def unshuffleResults (s : State) : Results :=
  .writing s [(s.latch.arg 1, bytesOf (unshuffle (blockAt s 0) (s.latch.arg 2)))]

/-- The results of `BLKXOR` (42_block_mixer.md R129). -/
def blkxorResults (s : State) : Results :=
  .writing s [(s.latch.arg 3, bytesOf (xorWords (blockAt s 0) (blockAt s 1)))]

/-- `BLOCKMIX.S` (42_block_mixer.md R125). -/
def execBlockmixS (rounds : BitVec 6) (s : State) : Host.Outcome State Fault Refusal :=
  command (.blockmixS rounds) (blockmixSTable s.latch) (blockmixResults .salsa rounds) s

/-- `BLOCKMIX.C` (42_block_mixer.md R126). -/
def execBlockmixC (rounds : BitVec 6) (s : State) : Host.Outcome State Fault Refusal :=
  command (.blockmixC rounds) (blockmixCTable s.latch) (blockmixResults .chacha rounds) s

/-- `SHUFFLE` (42_block_mixer.md R127). -/
def execShuffle (s : State) : Host.Outcome State Fault Refusal :=
  command .shuffle (shuffleTable s.latch) shuffleResults s

/-- `UNSHUFFLE` (42_block_mixer.md R128). -/
def execUnshuffle (s : State) : Host.Outcome State Fault Refusal :=
  command .unshuffle (unshuffleTable s.latch) unshuffleResults s

/-- `BLKXOR` (42_block_mixer.md R129). -/
def execBlkxor (s : State) : Host.Outcome State Fault Refusal :=
  command .blkxor (blkxorTable s.latch) blkxorResults s

end Sys2Proof.Machine
end

