-- ==== Sys2Proof/Machine/Romix.lean ====
section
/-! DEFINITION. The memory-hard core ROMix and its double-mix variant (43_romix.md R140-R146), and the
meanings of `ROMIX.S`, `ROMIX.C` and `ROMIX2` (R147-R149). -/

namespace Sys2Proof.Machine

/-- `Integerify(X, r) = X[16·(2r − 1)]` (43_romix.md R141). -/
def integerify (X : List Word) (r : Nat) : Word := nth X (16 * (2 * r - 1))

/-- The gather index `j = Integerify(X, r) & (N − 1)` (43_romix.md R141). -/
def gatherIndex (X : List Word) (r N : Nat) : Word := integerify X r &&& BitVec.ofNat 32 (N - 1)

/-- The fill phase from `X` with `n` slots to go: the slots it writes, in order, and the `X` it leaves
(43_romix.md R142). -/
def fill (alg : Alg) (r R : Nat) : Nat → List Word → List (List Word) × List Word
  | 0, X => ([], X)
  | n + 1, X =>
    let rest := fill alg r R n (blockMix alg X r R)
    (X :: rest.1, rest.2)

/-- The gather phase with `n` iterations to go: the `X` it leaves and the last gather index
(43_romix.md R143; 10_state.md R28). -/
def gather (alg : Alg) (r N R : Nat) (V : List (List Word)) : Nat → List Word → Word → List Word × Word
  | 0, X, j => (X, j)
  | n + 1, X, _ =>
    let j := gatherIndex X r N
    gather alg r N R V n (blockMix alg (xorWords X (V.getD j.toNat [])) r R) j

/-- What a ROMix run leaves: the final `X`, the table `V`, and the `j` of gather iteration `N − 1`. -/
structure RomixRun where
  x : List Word
  table : List (List Word)
  lastJ : Word
deriving DecidableEq, Repr

/-- `ROMix(ALG, B, r, N, R, vb)` (43_romix.md R144), which does not depend on `vb`. -/
def roMix (alg : Alg) (B : List Word) (r N R : Nat) : RomixRun :=
  let filled := fill alg r R N B
  let gathered := gather alg r N R filled.1 N filled.2 0
  { x := gathered.1, table := filled.1, lastJ := gathered.2 }

/-- A scratch table as bytes: slot `i` at byte `128·r·i` (43_romix.md R140). -/
def tableBytes (V : List (List Word)) : List Byte := V.flatMap bytesOf

/-- `N − 1` as `ITER` holds it (10_state.md R27). -/
def lastIter (N : Nat) : Word := BitVec.ofNat 32 (N - 1)

/-- The results of a single-mix ROMix command (43_romix.md R147, R148). -/
def romixResults (alg : Alg) (rounds : BitVec 6) (s : State) : Results :=
  let N := s.latch.arg 3
  let run := roMix alg (blockAt s 0) (s.latch.arg 2) N (roundCount rounds)
  { Results.writing s [(s.latch.sbase, tableBytes run.table), (s.latch.arg 1, bytesOf run.x)] with
    iter := lastIter N
    jidx := run.lastJ }

/-- The results of `ROMIX2` (43_romix.md R145, R149): two independent runs, the Salsa table at `LSBASE` and
the ChaCha table at `LSBASE + 128·r·N`, the final Blocks XORed. -/
def romix2Results (rounds : BitVec 6) (s : State) : Results :=
  let r := s.latch.arg 2
  let N := s.latch.arg 3
  let runS := roMix .salsa (blockAt s 0) r N (roundCount rounds)
  let runC := roMix .chacha (blockAt s 0) r N (roundCount rounds)
  { Results.writing s
      [(s.latch.sbase, tableBytes runS.table), (s.latch.sbase + 128 * r * N, tableBytes runC.table),
       (s.latch.arg 1, bytesOf (xorWords runS.x runC.x))] with
    iter := lastIter N
    jidx := runS.lastJ }

/-- `ROMIX.S` (43_romix.md R147). -/
def execRomixS (rounds : BitVec 6) (s : State) : Host.Outcome State Fault Refusal :=
  command (.romixS rounds) (romixSTable s.latch) (romixResults .salsa rounds) s

/-- `ROMIX.C` (43_romix.md R148). -/
def execRomixC (rounds : BitVec 6) (s : State) : Host.Outcome State Fault Refusal :=
  command (.romixC rounds) (romixCTable s.latch) (romixResults .chacha rounds) s

/-- `ROMIX2` (43_romix.md R149). -/
def execRomix2 (rounds : BitVec 6) (s : State) : Host.Outcome State Fault Refusal :=
  command (.romix2 rounds) (romix2Table s.latch) (romix2Results rounds) s

end Sys2Proof.Machine
end

