-- ==== Sys2Proof/Machine/Pbkdf2.lean ====
section
/-! DEFINITION. PBKDF2-HMAC-SHA256 over the black-box compression function `F` (44_pbkdf2.md R160-R165), and
the meanings of `HMAC.INIT`, `PBKDF2.BLK` and `PBKDF2` (R166-R168). Every construction takes `F` as an
argument (00_scope.md R9); the commands pass `Config.sha256Compress` (log 4). -/

namespace Sys2Proof.Machine

/-- An HMAC pad state, 8 chaining Words (10_state.md R33). -/
abbrev Pad := Vector Word 8

/-- The first 64 bytes of a byte string, as the operand of the compression function. -/
def block64 (m : List Byte) : Vector Byte 64 :=
  ⟨⟨(List.range 64).map fun i => m.getD i 0⟩, by simp⟩

/-- The compression function over `n` successive 64-byte blocks (44_pbkdf2.md R160). -/
def absorb (F : Compress) : Nat → Pad → List Byte → Pad
  | 0, H, _ => H
  | n + 1, H, m => absorb F n (F H (block64 m)) (m.drop 64)

/-- The padded message `m || 0x80 || 0x00… || be64(8·total)` (44_pbkdf2.md R160): `z` is the least number of
zero bytes that makes `total + 1 + z + 8` a multiple of 64. -/
def padded (pre : Nat) (m : List Byte) : List Byte :=
  let total := pre + m.length
  let z := (64 - (total + 9) % 64) % 64
  m ++ [0x80] ++ List.replicate z 0 ++ be64 (8 * total)

/-- The big-endian serialization of a chaining state (44_pbkdf2.md R160). -/
def digestOf (H : Pad) : List Byte := H.toList.flatMap toBE

/-- `SHA256cont(H, pre, m)` (44_pbkdf2.md R160). -/
def sha256Cont (F : Compress) (H : Pad) (pre : Nat) (m : List Byte) : List Byte :=
  digestOf (absorb F ((padded pre m).length / 64) H (padded pre m))

/-- `IV` (44_pbkdf2.md R161). -/
def sha256IV : Pad :=
  #v[0x6a09e667, 0xbb67ae85, 0x3c6ef372, 0xa54ff53a, 0x510e527f, 0x9b05688c, 0x1f83d9ab, 0x5be0cd19]

/-- `SHA256(m)` (44_pbkdf2.md R161). -/
def sha256 (F : Compress) (m : List Byte) : List Byte := sha256Cont F sha256IV 0 m

/-- `K0`: the key, hashed first if longer than 64 bytes, zero-padded to 64 bytes (44_pbkdf2.md R162). -/
def hmacKey (F : Compress) (K : List Byte) : List Byte :=
  let K' := if 64 < K.length then sha256 F K else K
  K' ++ List.replicate (64 - K'.length) 0

/-- The pad state of `K0` with the pad byte `c` (44_pbkdf2.md R162). -/
def padState (F : Compress) (K : List Byte) (c : Byte) : Pad :=
  F sha256IV (block64 ((hmacKey F K).map (· ^^^ c)))

/-- The inner pad state of `HmacInit(K)` (44_pbkdf2.md R162). -/
def hmacInner (F : Compress) (K : List Byte) : Pad := padState F K 0x36

/-- The outer pad state of `HmacInit(K)` (44_pbkdf2.md R162). -/
def hmacOuter (F : Compress) (K : List Byte) : Pad := padState F K 0x5c

/-- `HmacState(IST, OST, m)` (44_pbkdf2.md R163). -/
def hmacState (F : Compress) (I O : Pad) (m : List Byte) : List Byte :=
  sha256Cont F O 64 (sha256Cont F I 64 m)

/-- `PBKDF2Block(IST, OST, S, i)` (44_pbkdf2.md R164). -/
def pbkdf2Block (F : Compress) (I O : Pad) (S : List Byte) (i : Word) : List Byte :=
  hmacState F I O (S ++ toBE i)

/-- Byte by byte exclusive OR. -/
def xorBytes (a b : List Byte) : List Byte := List.zipWith (· ^^^ ·) a b

/-- The iterations `t = 2 .. c` of one block, `n` of them to go, from `U` and `T` (44_pbkdf2.md R165). -/
def pbkdf2Iter (F : Compress) (I O : Pad) : Nat → List Byte → List Byte → List Byte
  | 0, _, T => T
  | n + 1, U, T => pbkdf2Iter F I O n (hmacState F I O U) (xorBytes T (hmacState F I O U))

/-- Block `T_i` (44_pbkdf2.md R165). -/
def pbkdf2T (F : Compress) (I O : Pad) (S : List Byte) (c i : Nat) : List Byte :=
  let U := pbkdf2Block F I O S (BitVec.ofNat 32 i)
  pbkdf2Iter F I O (c - 1) U U

/-- `DK` of `PBKDF2(P, S, c, dkLen)` (44_pbkdf2.md R165), whose pad states are those of `HmacInit(P)`. -/
def pbkdf2 (F : Compress) (P S : List Byte) (c dkLen : Nat) : List Byte :=
  ((List.range ((dkLen + 31) / 32)).flatMap fun k =>
    pbkdf2T F (hmacInner F P) (hmacOuter F P) S c (k + 1)).take dkLen

/-- `MemRead(arg[i], arg[j])`: the byte string an address and a length argument name. -/
def bytesAt (s : State) (i j : Fin 12) : List Byte := memRead s.mem (s.latch.arg i) (s.latch.arg j)

/-- The results of `HMAC.INIT` (44_pbkdf2.md R166): no DMEM byte is written. -/
def hmacInitResults (F : Compress) (s : State) : Results :=
  { Results.writing s [] with ist := hmacInner F (bytesAt s 0 1), ost := hmacOuter F (bytesAt s 0 1) }

/-- The results of `PBKDF2.BLK` (44_pbkdf2.md R167). -/
def pbkdf2BlkResults (F : Compress) (s : State) : Results :=
  .writing s [(s.latch.arg 3, pbkdf2Block F s.ist s.ost (bytesAt s 0 1) s.latch.args[2])]

/-- The results of `PBKDF2` (44_pbkdf2.md R168). -/
def pbkdf2Results (F : Compress) (s : State) : Results :=
  { Results.writing s
      [(s.latch.arg 5, pbkdf2 F (bytesAt s 0 1) (bytesAt s 2 3) (s.latch.arg 4) (s.latch.arg 6))] with
    ist := hmacInner F (bytesAt s 0 1)
    ost := hmacOuter F (bytesAt s 0 1) }

/-- `HMAC.INIT` (44_pbkdf2.md R166). -/
def execHmacInit (s : State) : Host.Outcome State Fault Refusal :=
  command .hmacInit (hmacInitTable s.latch) (hmacInitResults Config.sha256Compress) s

/-- `PBKDF2.BLK` (44_pbkdf2.md R167). -/
def execPbkdf2Blk (s : State) : Host.Outcome State Fault Refusal :=
  command .pbkdf2Blk (pbkdf2BlkTable s.latch) (pbkdf2BlkResults Config.sha256Compress) s

/-- `PBKDF2` (44_pbkdf2.md R168). -/
def execPbkdf2 (s : State) : Host.Outcome State Fault Refusal :=
  command .pbkdf2 (pbkdf2Table s.latch) (pbkdf2Results Config.sha256Compress) s

end Sys2Proof.Machine
end

