-- ==== Sys2Proof/Machine/Drivers.lean ====
section
/-! DEFINITION. The scrypt driver and the coin hash (45_drivers.md R180, R182, R185), and the meanings of
`SCRYPT`, `POWHASH`, `POWHASH3` and `POWHASH4` (R181, R184, R186, R187). The core is always Salsa20 with
round count 8 (R180; 30_encoding.md R73). -/

namespace Sys2Proof.Machine

/-- The round count scrypt uses (30_encoding.md R73). -/
def scryptRounds : Nat := 8

/-- The ROMix runs of the `p` sub-blocks of `B`, in order (45_drivers.md R180). -/
def scryptRuns (B : List Byte) (N r p : Nat) : List RomixRun :=
  (List.range p).map fun l =>
    roMix .salsa (wordsOf ((B.drop (128 * r * l)).take (128 * r))) r N scryptRounds

/-- The mixed `B`: each sub-block replaced by the `X` of its run (45_drivers.md R180). -/
def mixedBytes (runs : List RomixRun) : List Byte := runs.flatMap fun run => bytesOf run.x

/-- The ROMix runs of `Scrypt(P, S, N, r, p, dkLen)`, on `B = PBKDF2(P, S, 1, 128·r·p)` (45_drivers.md R180). -/
def scryptMix (F : Compress) (P S : List Byte) (N r p : Nat) : List RomixRun :=
  scryptRuns (pbkdf2 F P S 1 (128 * r * p)) N r p

/-- `Scrypt(P, S, N, r, p, dkLen)` (45_drivers.md R180). -/
def scrypt (F : Compress) (P S : List Byte) (N r p dkLen : Nat) : List Byte :=
  pbkdf2 F P (mixedBytes (scryptMix F P S N r p)) 1 dkLen

/-- The results of `SCRYPT` (45_drivers.md R181): the mixed `B` at `LSBASE`, the table of the last
sub-block's run after it, the derived key at `ARG7`, the pad states of the password; `JIDX` is the last
sub-block's (DEDUCED, log 15). -/
def scryptResults (F : Compress) (s : State) : Results :=
  let P := bytesAt s 0 1
  let N := s.latch.arg 4
  let r := s.latch.arg 5
  let p := s.latch.arg 6
  let runs := scryptMix F P (bytesAt s 2 3) N r p
  let last := runs.getLastD { x := [], table := [], lastJ := 0 }
  { writes :=
      [(s.latch.sbase, mixedBytes runs), (s.latch.sbase + 128 * r * p, tableBytes last.table),
       (s.latch.arg 7, pbkdf2 F P (mixedBytes runs) 1 (s.latch.arg 8))]
    ist := hmacInner F P
    ost := hmacOuter F P
    iter := lastIter N
    jidx := last.lastJ }

/-- The four input blocks of the coin hash (45_drivers.md R182). -/
def powInput (F : Compress) (h : List Byte) : List Byte :=
  [1, 2, 3, 4].flatMap fun i => pbkdf2Block F (hmacInner F h) (hmacOuter F h) h i

/-- The ROMix run of the coin hash of a header (45_drivers.md R182). -/
def powMix (F : Compress) (h : List Byte) : RomixRun :=
  roMix .salsa (wordsOf (powInput F h)) 1 1024 scryptRounds

/-- The digest of a header, given its ROMix run (45_drivers.md R182). -/
def powDigest (F : Compress) (h : List Byte) (run : RomixRun) : List Byte :=
  pbkdf2Block F (hmacInner F h) (hmacOuter F h) (bytesOf run.x) 1

/-- `PowHash(h)` (45_drivers.md R182). -/
def powHash (F : Compress) (h : List Byte) : List Byte := powDigest F h (powMix F h)

/-- Header `l` of a coin-hash command (45_drivers.md R184, R185). -/
def headerAt (s : State) (l : Nat) : List Byte := memRead s.mem (s.latch.arg 0 + 80 * l) 80

/-- What lane `l` writes: its Block and its table at `LSBASE + 131200·l`, its digest at `ARG2 + 32·l`
(45_drivers.md R184, R185). -/
def laneWrites (F : Compress) (s : State) (l : Nat) : List (Nat × List Byte) :=
  let h := headerAt s l
  let run := powMix F h
  [(s.latch.sbase + laneBytes * l, bytesOf run.x ++ tableBytes run.table),
   (s.latch.arg 2 + 32 * l, powDigest F h run)]

/-- The results of a coin-hash command of `k` lanes: `IST`, `OST` and `JIDX` are those of lane `k − 1`
(45_drivers.md R184, R185). -/
def powResults (F : Compress) (k : Nat) (s : State) : Results :=
  { writes := (List.range k).flatMap (laneWrites F s)
    ist := hmacInner F (headerAt s (k - 1))
    ost := hmacOuter F (headerAt s (k - 1))
    iter := lastIter 1024
    jidx := (powMix F (headerAt s (k - 1))).lastJ }

/-- `SCRYPT` (45_drivers.md R181). -/
def execScrypt (s : State) : Host.Outcome State Fault Refusal :=
  command .scrypt (scryptTable s.latch) (scryptResults Config.sha256Compress) s

/-- `POWHASH` (45_drivers.md R184). -/
def execPowhash (s : State) : Host.Outcome State Fault Refusal :=
  command .powhash (powhashTable s.latch) (powResults Config.sha256Compress 1) s

/-- `POWHASH3` (45_drivers.md R186). -/
def execPowhash3 (s : State) : Host.Outcome State Fault Refusal :=
  command .powhash3 (powhash3Table s.latch) (powResults Config.sha256Compress 3) s

/-- `POWHASH4` (45_drivers.md R187). -/
def execPowhash4 (s : State) : Host.Outcome State Fault Refusal :=
  command .powhash4 (powhash4Table s.latch) (powResults Config.sha256Compress 4) s

end Sys2Proof.Machine
end

