-- ==== Sys2Proof/Machine/Dispatch.lean ====
section
/-! DEFINITION. The step of a command: one arm for each row of spec/opcode_table.json. -/

namespace Sys2Proof.Machine

/-- The step of command `i` at `s`: its checks and its acceptance or error end while idle, its completion
while busy (40_command_protocol.md R90; log 13). -/
def exec (i : Instr) (s : State) : Host.Outcome State Fault Refusal :=
  match i with
  | .salsaCore rounds => Sys2Proof.Machine.execSalsaCore rounds s
  | .chachaCore rounds => Sys2Proof.Machine.execChachaCore rounds s
  | .blockmixS rounds => Sys2Proof.Machine.execBlockmixS rounds s
  | .blockmixC rounds => Sys2Proof.Machine.execBlockmixC rounds s
  | .shuffle => Sys2Proof.Machine.execShuffle s
  | .unshuffle => Sys2Proof.Machine.execUnshuffle s
  | .blkxor => Sys2Proof.Machine.execBlkxor s
  | .romixS rounds => Sys2Proof.Machine.execRomixS rounds s
  | .romixC rounds => Sys2Proof.Machine.execRomixC rounds s
  | .romix2 rounds => Sys2Proof.Machine.execRomix2 rounds s
  | .hmacInit => Sys2Proof.Machine.execHmacInit s
  | .pbkdf2Blk => Sys2Proof.Machine.execPbkdf2Blk s
  | .pbkdf2 => Sys2Proof.Machine.execPbkdf2 s
  | .scrypt => Sys2Proof.Machine.execScrypt s
  | .powhash => Sys2Proof.Machine.execPowhash s
  | .powhash3 => Sys2Proof.Machine.execPowhash3 s
  | .powhash4 => Sys2Proof.Machine.execPowhash4 s

end Sys2Proof.Machine
end

