-- ==== Sys2Proof/Machine/HostPort.lean ====
section
/-! DEFINITION. The steps of the agents (40_command_protocol.md R90): the host's accesses to the register
block (10_state.md R20, R40) and to DMEM (20_memory.md R51, R58), the issue of a command (R91, R92), the CORE's
step (R96), the reset input (70_reset_and_hazards.md R230-R232), and the pseudo-instruction `wait`. -/

namespace Sys2Proof.Machine

/-- A host write of `w` to `CMD`: dropped while busy (40_command_protocol.md R91); otherwise accepted, decoded
and checked, with any error end, in the same step (R92, R94). -/
def issueCommand (w : Word) (s : State) : Host.Outcome State Fault Refusal :=
  if s.status.busy then .next (overrun s)
  else
    match decode w with
    | .error e => .next (errorEnd ⟨e, noArg⟩ (latchCommand w s))
    | .ok i => exec i (latchCommand w s)

/-- The CORE's turn: its completion step while busy (40_command_protocol.md R96); while idle it has no step
and nothing changes (R90; 60_exceptions.md R218). -/
def coreTurn (s : State) : Host.Outcome State Fault Refusal :=
  if s.status.busy then
    match executing s with
    | some i => exec i s
    | none => .fault .noLatchedCommand
  else .next s

/-- Why a register access is not admitted, if it is not (10_state.md R20, R40). -/
def regRefusal (w : Width) (addr : Nat) (s : State) : Option Refusal :=
  if addr < s.params.base ∨ s.params.base + 4096 ≤ addr then some .outsideRegisterBlock
  else if w ≠ .b32 ∨ (addr - s.params.base) % 4 ≠ 0 then some .registerAccess
  else none

/-- A host read of the register block. -/
def hostRegRead (w : Width) (addr : Nat) (s : State) : Host.Outcome State Fault Refusal :=
  match regRefusal w addr s with
  | some e => .refused e
  | none => .next (reply (readReg s (Reg.ofOffset (addr - s.params.base))) s)

/-- A host write to the register block; a write to `CMD` issues a command (10_state.md R29). -/
def hostRegWrite (w : Width) (addr : Nat) (v : Word) (s : State) : Host.Outcome State Fault Refusal :=
  match regRefusal w addr s with
  | some e => .refused e
  | none =>
    match Reg.ofOffset (addr - s.params.base) with
    | .cmd => issueCommand v s
    | r => .next (writeReg r v s)

/-- The bytes a host access to the DMEM port covers, or why it is not admitted (20_memory.md R51). -/
def dmemSpan (w : Width) (addr : Nat) (s : State) : Except Refusal Nat :=
  match w with
  | .b8 => if addr < s.params.memSize then .ok 1 else .error .dmemOutOfRange
  | .b32 =>
    if addr % 4 ≠ 0 then .error .dmemMisaligned
    else if addr + 4 ≤ s.params.memSize then .ok 4
    else .error .dmemOutOfRange
  | .b16 => .error .dmemWidth
  | .b64 => .error .dmemWidth

/-- The byte a host read sees: an unspecified one where the executing command may write, the byte of DMEM
elsewhere (20_memory.md R58). -/
def hostByte (s : State) (a : Nat) : Byte :=
  if (activeTable s).mayWrite a then Config.freeByte s.draws a else byteAt s.mem a

/-- A host read of DMEM, one byte (zero-extended) or one Word (20_memory.md R51, R58). -/
def hostDmemRead (w : Width) (addr : Nat) (s : State) : Host.Outcome State Fault Refusal :=
  match dmemSpan w addr s with
  | .error e => .refused e
  | .ok 4 =>
    .next (reply (le32 (hostByte s addr) (hostByte s (addr + 1)) (hostByte s (addr + 2)) (hostByte s (addr + 3))) s)
  | .ok _ => .next (reply ((hostByte s addr).setWidth 32) s)

/-- A host write to DMEM, the low byte of `v` or the whole Word (20_memory.md R51). Into the footprint of the
executing command it is a host protocol violation, which the model records as a fault (R58). -/
def hostDmemWrite (w : Width) (addr : Nat) (v : Word) (s : State) : Host.Outcome State Fault Refusal :=
  match dmemSpan w addr s with
  | .error e => .refused e
  | .ok n =>
    if (List.range n).any fun k => (activeTable s).inFootprint (addr + k) then .fault .footprintWrite
    else .next { s with mem := memWrite s.mem addr ((toLE v).take n) }

/-- The result and scratch bytes of the executing command, each at an unspecified value; nothing while idle
(70_reset_and_hazards.md R232; log 17). -/
def scrambled (s : State) : List (Nat × List Byte) :=
  ((activeTable s).allRegions.filter fun r => r.use != .input).map fun r =>
    (r.base, (List.range r.len).map fun k => Config.freeByte s.draws (r.base + k))

/-- RESET (70_reset_and_hazards.md R230-R232): every register takes its reset value, the hidden state is
unspecified, DMEM stays but for the bytes a stopped command might have written. -/
def resetCore (s : State) : State :=
  { State.reset with
    params := s.params
    mem := memWrites s.mem (scrambled s)
    latch := freeLatch s.draws
    work := freeWork s.params s.draws
    draws := s.draws + 1
    inbox := s.inbox
    replies := s.replies }

/-- One step of `wait`: a read of `STATUS`, repeated until `DONE` is 1 (30_encoding.md R80); where a command is
pending and no poll is left before its completion, the CORE's step (log 1). -/
def waitStep (polls : Nat) (s : State) : Host.Outcome State Fault Refusal :=
  if s.status.busy && polls == 0 then coreTurn { s with inbox := .wait 0 :: s.inbox }
  else
    let v := readReg s .status
    if v.getLsbD 1 then .next (reply v s)
    else .next (reply v { s with inbox := .wait (polls - 1) :: s.inbox })

/-- The step an event stands for, in a state whose inbox no longer holds it. -/
def runEvent (e : Event) (s : State) : Host.Outcome State Fault Refusal :=
  match e with
  | .regRead w addr => hostRegRead w addr s
  | .regWrite w addr v => hostRegWrite w addr v s
  | .dmemRead w addr => hostDmemRead w addr s
  | .dmemWrite w addr v => hostDmemWrite w addr v s
  | .wait polls => waitStep polls s
  | .reset => .next (resetCore s)
  | .core => coreTurn s

/-- One step of the machine: the next event of the inbox, or the CORE's turn where none is left (log 1). -/
def nextStep (s : State) : Host.Outcome State Fault Refusal :=
  match s.inbox with
  | [] => coreTurn s
  | e :: es => runEvent e { s with inbox := es }

end Sys2Proof.Machine
end

