-- ==== Sys2Proof/Machine/HostLang.lean ====
section
/-! DEFINITION. The host command language (30_encoding.md R79, R80): each statement and pseudo-instruction
expands to host accesses. The number of polls each `wait` makes before a pending command completes is the
schedule's choice (40_command_protocol.md R97; log 1). -/

namespace Sys2Proof.Machine

/-- A statement of the host command language (30_encoding.md R79, R80). DESIGN CHOICE (log 23; safe): the rules state
no bound on the `R` of `MNEMONIC rounds=R` and `chacha s, d, R`; here it is a value of the 6-bit `ROUNDS` field, 0 to 63,
and a word with a greater `R` is written as `wr CMD`. -/
inductive Stmt where
  | wr (r : Reg) (v : Word)
  | rd (r : Reg)
  | mw (a : Nat) (bytes : List Byte)
  | mr (a n : Nat)
  /-- `MNEMONIC` and `MNEMONIC rounds=R`: the command with its `ROUNDS` field as given, odd or even; `R` is 0 to 63
  (log 23). -/
  | command (i : Instr)
  | wait
  | ack
  | salsa208 (s d : Word)
  /-- `chacha s, d, R`, with `R` from 0 to 63 (log 23). -/
  | chacha (s d : Word) (R : BitVec 6)
  | blockmix (s d r : Word)
  | romix (s d r N : Word)
  | scrypt (P Pl S Sl N r p d L : Word)
  | powhash (h d : Word)
  | scratch (b n : Word)
deriving DecidableEq, Repr

/-- `wr REG, v`: an aligned 32-bit host write at `BASE + offset(REG)`. -/
def wrEvent (base : Nat) (r : Reg) (v : Word) : Event := .regWrite .b32 (base + r.offset) v

/-- Writes of `ARG0`, `ARG1`, … in order. -/
def wrArgs (base : Nat) (vs : List Word) : List Event :=
  vs.zipIdx.map fun v => .regWrite .b32 (base + 0x040 + 4 * v.2) v.1

/-- The write that issues a command. -/
def issueEvent (base : Nat) (i : Instr) : Event := wrEvent base .cmd (encode i)

/-- The host accesses a statement makes (30_encoding.md R79, R80). -/
def Stmt.expand (base polls : Nat) : Stmt → List Event
  | .wr r v => [wrEvent base r v]
  | .rd r => [.regRead .b32 (base + r.offset)]
  | .mw a bs => bs.zipIdx.map fun b => .dmemWrite .b8 (a + b.2) (b.1.setWidth 32)
  | .mr a n => (List.range n).map fun k => .dmemRead .b8 (a + k)
  | .command i => [issueEvent base i]
  | .wait => [.wait polls]
  | .ack => [wrEvent base .status 0x2]
  | .salsa208 s d => wrArgs base [s, d] ++ [issueEvent base (.salsaCore 0), .wait polls]
  | .chacha s d R => wrArgs base [s, d] ++ [issueEvent base (.chachaCore R), .wait polls]
  | .blockmix s d r => wrArgs base [s, d, r] ++ [issueEvent base (.blockmixS 0), .wait polls]
  | .romix s d r N => wrArgs base [s, d, r, N] ++ [issueEvent base (.romixS 0), .wait polls]
  | .scrypt P Pl S Sl N r p d L =>
    wrArgs base [P, Pl, S, Sl, N, r, p, d, L] ++ [issueEvent base .scrypt, .wait polls]
  | .powhash h d => wrArgs base [h, 80, d] ++ [issueEvent base .powhash, .wait polls]
  | .scratch b n => [wrEvent base .scratchBase b, wrEvent base .scratchLimit n]

/-- The state with a host program as its input, each statement with the number of polls of its `wait`. -/
def State.withProgram (s : State) (prog : List (Stmt × Nat)) : State :=
  { s with inbox := prog.flatMap fun st => st.1.expand s.params.base st.2 }

end Sys2Proof.Machine
end

