-- ==== Sys2Proof/Machine/Step.lean ====
section
/-! DEFINITION. The step of the machine, and where it fetches: a command reaches the core only as a host write
to `CMD` (20_memory.md R62). -/

namespace Sys2Proof.Machine

/-- One step (40_command_protocol.md R90). -/
def step (s : State) : Host.Outcome State Fault Refusal := nextStep s

/-- `s` about to issue the command word of `nbits` bits `w`: the host's next access is the write of `w` to
`CMD`, and the core is idle, as it must be for that write to be accepted (40_command_protocol.md R91, R92;
log 2). -/
def State.withFetchWord (s : State) (nbits w : Nat) : State :=
  { s with
    status := { s.status with busy := false }
    inbox := wrEvent s.params.base .cmd (BitVec.ofNat 32 (w % 2 ^ nbits)) :: s.inbox }

end Sys2Proof.Machine
end

