-- ==== Sys2Proof/Safety.lean ====
section
/-! DEFINITION. What a run of the core keeps: the invariants of its state, and what the end of a run is. -/

namespace Sys2Proof.Machine

/-- `STATUS` is one the rules can leave: `DONE` and `ERRCODE` are 0 while busy (40_command_protocol.md R92,
R93), codes 12 to 15 and `ERRARG` 14 are never written, `ERRARG` is 15 while `ERRCODE` is 0
(60_exceptions.md R200; 10_state.md R25), and `PHASE` and `LANE` are 0 while idle (R35, R36). -/
structure Status.Ok (st : Status) : Prop where
  busy_quiet : st.busy = true → st.done = false ∧ st.errcode = 0
  code_le : st.errcode ≤ 11
  arg_ne : st.errarg ≠ 14
  no_error : st.errcode = 0 → st.errarg = 15
  idle_phase : st.busy = false → st.phase = 0 ∧ st.lane = 0

/-- DMEM is in canonical form and lies inside `0 .. MEM_SIZE − 1` (20_memory.md R50). -/
structure MemoryOk (p : Params) (m : Memory) : Prop where
  wf : Memory.wf m
  inside : ∀ c ∈ m, c.1 < p.memSize

/-- While busy, the latch holds a command that passed its checks (40_command_protocol.md R93), and `CMD` reads
its word (10_state.md R29). -/
def BusyOk (s : State) : Prop :=
  s.status.busy = true →
    s.cmd = s.latch.cmd ∧
      ∃ i, decode s.latch.cmd = .ok i ∧ check s.params s.latch (operandTable i s.latch) = none

/-- The invariant of the machine. -/
structure State.Inv (s : State) : Prop where
  params : s.params.Legal
  status : s.status.Ok
  memory : MemoryOk s.params s.mem
  busy : BusyOk s

/-- A state in which a host program has ended: nothing is pending on either side
(40_command_protocol.md R99). -/
def State.final (s : State) : Prop := s.inbox = [] ∧ s.status.busy = false

/-- A step the machine takes without recording a violation. -/
def Safe (o : Host.Outcome State Fault Refusal) : Prop := ∀ f, o ≠ .fault f

end Sys2Proof.Machine
end

