-- ==== Sys2Proof/Certificates/Slice0/Obligations.lean ====
section
/-! DEFINITION. The statements for the provers, each from the numbered rules of spec/. The words they share
come first: regions, the two ends of an acceptance step, and what a completion leaves as it was. -/

namespace Sys2Proof.Spec

open Sys2Proof.Machine

/-- `x` is a byte of the region `(a, n)` (20_memory.md R53). -/
abbrev Inside (a n x : Nat) : Prop := a ≤ x ∧ x < a + n

/-- The region `(a, n)` is in bounds of a DMEM of `M` bytes (20_memory.md R53). -/
abbrev Fits (M a n : Nat) : Prop := n = 0 ∨ a + n ≤ M

/-- The regions `(a, n)` and `(b, m)` overlap (20_memory.md R55). -/
abbrev Overlaps (a n b m : Nat) : Prop := 0 < n ∧ 0 < m ∧ a < b + m ∧ b < a + n

/-- `N` is not a power of two below `2^32` (40_command_protocol.md R94). -/
abbrev NotPow2 (N : Nat) : Prop := ∀ m < 32, N ≠ 2 ^ m

/-- The command is executing, nothing else has changed (40_command_protocol.md R93). -/
def started (s : State) : State := { s with status := { s.status with busy := true } }

/-- The command has ended with an error, nothing else has changed (60_exceptions.md R201). -/
def ended (code arg : BitVec 4) (s : State) : State :=
  { s with status := { s.status with errcode := code, errarg := arg, done := true } }

/-- The state an accepted word is decoded and checked in (40_command_protocol.md R92). -/
def accepted (w : Word) (s : State) : State :=
  { s with
    cmd := w
    latch :=
      { cmd := w, args := s.args, scratchBase := s.scratchBase, scratchLimit := s.scratchLimit,
        accel := s.ctrl.accelEn }
    status := { s.status with done := false, errcode := 0, errarg := 15 } }

/-- The state whose next event has been taken from the inbox. -/
def pop (s : State) (rest : List Event) : State := { s with inbox := rest }

/-- What a completion does to `STATUS`, and the registers no command writes (40_command_protocol.md R96;
10_state.md R32). -/
structure Done (s t : State) : Prop where
  status : t.status =
    { busy := false, done := true, overrun := s.status.overrun, errcode := s.status.errcode,
      errarg := s.status.errarg, phase := 0, lane := 0 }
  params : t.params = s.params
  ctrl : t.ctrl = s.ctrl
  cmd : t.cmd = s.cmd
  scratchBase : t.scratchBase = s.scratchBase
  scratchLimit : t.scratchLimit = s.scratchLimit
  args : t.args = s.args
  inbox : t.inbox = s.inbox
  replies : t.replies = s.replies

/-- `ITER` and `JIDX` are 0 (10_state.md R27, R28). -/
def NoProgress (t : State) : Prop := t.iter = 0 ∧ t.jidx = 0

/-- `IST` and `OST` keep their values. -/
def KeepsPads (s t : State) : Prop := t.ist = s.ist ∧ t.ost = s.ost

/-- Every byte of DMEM outside the written bytes keeps its value. -/
def Untouched (s t : State) (written : Nat → Prop) : Prop :=
  ∀ a, ¬ written a → byteAt t.mem a = byteAt s.mem a

/-- The 17 selectors of the opcode map: bits 9:0 of `match` (30_encoding.md R71). -/
def knownSelectors : List (BitVec 10) :=
  [0x001, 0x101, 0x002, 0x102, 0x003, 0x004, 0x005, 0x008, 0x108, 0x009, 0x010, 0x011, 0x012, 0x020, 0x021,
   0x022, 0x023]

/-- The selectors of the rows marked "ROUNDS used" (30_encoding.md R71). -/
def roundsSelectors : List (BitVec 10) := [0x001, 0x101, 0x002, 0x102, 0x008, 0x108, 0x009]

/-- A reserved bit of the word is 1 (30_encoding.md R75). -/
def StrayBit (w : Word) : Prop :=
  w.extractLsb' 16 16 ≠ 0 ∨ (w.extractLsb' 0 10 ∉ roundsSelectors ∧ w.extractLsb' 10 6 ≠ 0)

/-- The outcome of a host read that answers `v` in state `s`: the answer is the newest of the model's own list of
replies (log 20), and nothing else changes but the model's own counter of draws (log 7), left open here. -/
def Answers (o : Host.Outcome State Fault Refusal) (v : Word) (s : State) : Prop :=
  ∃ d, o = .next { s with replies := v :: s.replies, draws := d }

/-- `LE32` of the four bytes at an address (00_scope.md R12). -/
def leWord (m : Memory) (a : Nat) : Word :=
  byteAt m (a + 3) ++ byteAt m (a + 2) ++ byteAt m (a + 1) ++ byteAt m a

/-- `a` is a byte of a result region or of the scratch region of the command, as its own rule lists them
(41_core_permutation.md to 45_drivers.md). -/
def OutputByte (i : Instr) (l : Latch) (a : Nat) : Prop :=
  match i with
  | .salsaCore _ | .chachaCore _ => Inside (l.arg 1) 64 a
  | .blockmixS _ | .blockmixC _ | .shuffle | .unshuffle => Inside (l.arg 1) (128 * l.arg 2) a
  | .blkxor => Inside (l.arg 3) (128 * l.arg 2) a
  | .romixS _ | .romixC _ =>
    Inside (l.arg 1) (128 * l.arg 2) a ∨ Inside l.sbase (128 * l.arg 2 * l.arg 3) a
  | .romix2 _ => Inside (l.arg 1) (128 * l.arg 2) a ∨ Inside l.sbase (2 * 128 * l.arg 2 * l.arg 3) a
  | .hmacInit => False
  | .pbkdf2Blk => Inside (l.arg 3) 32 a
  | .pbkdf2 => Inside (l.arg 5) (l.arg 6) a
  | .scrypt => Inside (l.arg 7) (l.arg 8) a ∨ Inside l.sbase (128 * l.arg 5 * (l.arg 6 + l.arg 4)) a
  | .powhash => Inside (l.arg 2) 32 a ∨ Inside l.sbase 131200 a
  | .powhash3 => Inside (l.arg 2) 96 a ∨ Inside l.sbase 393600 a
  | .powhash4 => Inside (l.arg 2) 128 a ∨ Inside l.sbase 524800 a

/-- `a` is a byte of an input region of the command, as its own rule lists them (41_core_permutation.md to
45_drivers.md). -/
def InputByte (i : Instr) (l : Latch) (a : Nat) : Prop :=
  match i with
  | .salsaCore _ | .chachaCore _ => Inside (l.arg 0) 64 a
  | .blockmixS _ | .blockmixC _ | .shuffle | .unshuffle => Inside (l.arg 0) (128 * l.arg 2) a
  | .blkxor => Inside (l.arg 0) (128 * l.arg 2) a ∨ Inside (l.arg 1) (128 * l.arg 2) a
  | .romixS _ | .romixC _ | .romix2 _ => Inside (l.arg 0) (128 * l.arg 2) a
  | .hmacInit | .pbkdf2Blk => Inside (l.arg 0) (l.arg 1) a
  | .pbkdf2 | .scrypt => Inside (l.arg 0) (l.arg 1) a ∨ Inside (l.arg 2) (l.arg 3) a
  | .powhash => Inside (l.arg 0) 80 a
  | .powhash3 => Inside (l.arg 0) 240 a
  | .powhash4 => Inside (l.arg 0) 320 a

/-- `a` is a byte of the command's footprint (20_memory.md R56). -/
def FootprintByte (i : Instr) (l : Latch) (a : Nat) : Prop := InputByte i l a ∨ OutputByte i l a

/-- The index map of 42_block_mixer.md R121, written out. -/
def diagonals : List Nat := [0, 5, 10, 15, 12, 1, 6, 11, 8, 13, 2, 7, 4, 9, 14, 3]

/-- Quarter-rounds at the given indices, in order. -/
def quarterRounds (qr : List Word → Nat → Nat → Nat → Nat → List Word) (x : List Word)
    (at_ : List (Nat × Nat × Nat × Nat)) : List Word :=
  at_.foldl (fun x q => qr x q.1 q.2.1 q.2.2.1 q.2.2.2) x

/-- The indices of the Salsa20 column round (41_core_permutation.md R112). -/
def salsaColumns : List (Nat × Nat × Nat × Nat) := [(0, 4, 8, 12), (5, 9, 13, 1), (10, 14, 2, 6), (15, 3, 7, 11)]

/-- The indices of the Salsa20 row round (41_core_permutation.md R112). -/
def salsaRows : List (Nat × Nat × Nat × Nat) := [(0, 1, 2, 3), (5, 6, 7, 4), (10, 11, 8, 9), (15, 12, 13, 14)]

/-- The indices of the ChaCha column round (41_core_permutation.md R115). -/
def chachaColumns : List (Nat × Nat × Nat × Nat) := [(0, 4, 8, 12), (1, 5, 9, 13), (2, 6, 10, 14), (3, 7, 11, 15)]

/-- The indices of the ChaCha diagonal round (41_core_permutation.md R115). -/
def chachaDiagonals : List (Nat × Nat × Nat × Nat) := [(0, 5, 10, 15), (1, 6, 11, 12), (2, 7, 8, 13), (3, 4, 9, 14)]

/-- The transpose of a state of 4 rows of 4 Words. -/
def transposed (x : List Word) : List Word := (List.range 16).map fun i => nth x (4 * (i % 4) + i / 4)

/-- Row `i` of a state rotated left by `n·i` Words. -/
def rowsRotated (n : Nat) (x : List Word) : List Word :=
  (List.range 16).map fun i => nth x (4 * (i / 4) + (i + n * (i / 4)) % 4)

/-- The 64-byte block `M[64t .. 64t+64)` of a byte string (44_pbkdf2.md R160). -/
def blockOf (M : List Byte) (t : Nat) : Vector Byte 64 := Vector.ofFn fun i => M.getD (64 * t + i.val) 0

/-- The initial hash value of 44_pbkdf2.md R161, written out. -/
def initialHash : Pad :=
  #v[0x6a09e667, 0xbb67ae85, 0x3c6ef372, 0xa54ff53a, 0x510e527f, 0x9b05688c, 0x1f83d9ab, 0x5be0cd19]

/-- The SIMD core of 42_block_mixer.md R124: `Core'(w) = sh16(Salsa(unsh16(w), R))`. -/
def simdCore (w : List Word) (R : Nat) : List Word := diagonals.map (nth (salsa (unshuffleSub w) R))

/-- The outputs of BlockMix with the SIMD core (42_block_mixer.md R120, R124). -/
def simdChain (R : Nat) : List (List Word) → List Word → List (List Word)
  | [], _ => []
  | b :: bs, X => simdCore (xorWords X b) R :: simdChain R bs (simdCore (xorWords X b) R)

/-- `BlockMix'`: BlockMix with the core replaced by the SIMD core (42_block_mixer.md R124). -/
def simdBlockMix (B : List Word) (r R : Nat) : List Word :=
  let Y := simdChain R ((List.range (2 * r)).map (subBlock B)) (subBlock B (2 * r - 1))
  ((List.range r).flatMap fun k => Y.getD (2 * k) []) ++ ((List.range r).flatMap fun k => Y.getD (2 * k + 1) [])

/-- `rotl(v, n)` written out (00_scope.md R11). -/
def rot (v : Word) (n : Nat) : Word := (v <<< n) ||| (v >>> (32 - n))

/-- 16 Words whose rows of four are each one Word repeated. -/
def rowsOf (a b c d : Word) : List Word :=
  [a, a, a, a, b, b, b, b, c, c, c, c, d, d, d, d]

end Sys2Proof.Spec

open Sys2Proof Sys2Proof.Machine Sys2Proof.Spec

/-! ### Encoding -/

/-- A word decodes to a command exactly when the command is well-formed and the word is its encoding. -/
def Obligations.DecodeEncodeAgree : Prop :=
  ∀ (i : Instr) (w : Word), decode w = .ok i ↔ i.wf = true ∧ encode i = w

/-- 30_encoding.md R75: the decoder is total, and its error is `ILLEGAL` exactly where bits 9:0 match no row,
`RESERVED` exactly where they match one and a reserved bit is 1, `ROUNDS` exactly where neither holds and the
field of a row that uses it is odd. -/
def Obligations.DecodeErrorsAreExact : Prop :=
  ∀ w : Word,
    (decode w = .error .illegal ↔ w.extractLsb' 0 10 ∉ knownSelectors) ∧
    (decode w = .error .reserved ↔ w.extractLsb' 0 10 ∈ knownSelectors ∧ StrayBit w) ∧
    (decode w = .error .rounds ↔
      w.extractLsb' 0 10 ∈ roundsSelectors ∧ ¬ StrayBit w ∧ w.getLsbD 10 = true) ∧
    ∀ e, decode w = .error e → e = .illegal ∨ e = .reserved ∨ e = .rounds

/-- Words written out from the encodings of 30_encoding.md R71 decode to their commands. -/
def Obligations.SpecWordsDecode : Prop :=
  decode 0x00000001 = .ok (.salsaCore 0) ∧ decode 0x00005101 = .ok (.chachaCore 20) ∧
  decode 0x00000802 = .ok (.blockmixS 2) ∧ decode 0x00000005 = .ok .blkxor ∧
  decode 0x0000F808 = .ok (.romixS 62) ∧ decode 0x00000012 = .ok .pbkdf2 ∧
  decode 0x00000023 = .ok .powhash4

/-- 30_encoding.md R73: the round count of an even field is even and one of 2 to 62; the fields 0 and 8 both
give 8, and every other even field its own value. -/
def Obligations.LegalRoundCounts : Prop :=
  ∀ f : BitVec 6, f.getLsbD 0 = false →
    roundCount f % 2 = 0 ∧ 2 ≤ roundCount f ∧ roundCount f ≤ 62 ∧
    (roundCount f = 8 ↔ f = 0 ∨ f = 8) ∧ (f ≠ 0 → roundCount f = f.toNat)

/-! ### Steps -/

/-- An accepted `CMD` write latches the operands, clears the last command's end, and runs the decoded command
on the latched operands; a word that decodes to no command ends with its error in the same step. The step of
a state with a fetched word is that step. The events are the model's (log 1), and so is `withFetchWord`
(log 2). `arg[i]` is the latched register as an unsigned integer (30_encoding.md R76). -/
def Obligations.StepRunsIssuedCommand : Prop :=
  (∀ (s : State) (w : Word) (rest : List Event),
    s.inbox = .regWrite .b32 (s.params.base + 0x014) w :: rest → s.status.busy = false →
      (∀ i, decode w = .ok i → step s = exec i (accepted w (pop s rest))) ∧
      (∀ e, decode w = .error e → step s = .next (ended (errBits e) 15 (accepted w (pop s rest))))) ∧
  (∀ (s : State) (w : Nat) (i : Instr), decode (BitVec.ofNat 32 w) = .ok i → w < 2 ^ 32 →
    step (s.withFetchWord 32 w) =
      exec i (accepted (BitVec.ofNat 32 w) { s with status := { s.status with busy := false } })) ∧
  (∀ (l : Latch) (i : Fin 12), l.arg i = (l.args[i]).toNat ∧ l.sbase = l.scratchBase.toNat) ∧
  errBits .illegal = 1 ∧ errBits .reserved = 2 ∧ errBits .rounds = 3

/-- The CORE's turn runs the latched command, whether the inbox asks for it or is empty; while idle the turn
changes nothing. That the CORE moves when the inbox is empty is the model's choice (log 1). -/
def Obligations.CoreTurnRunsLatchedCommand : Prop :=
  (∀ (s : State) (i : Instr) (rest : List Event), s.status.busy = true → decode s.latch.cmd = .ok i →
    (s.inbox = .core :: rest → step s = exec i (pop s rest)) ∧ (s.inbox = [] → step s = exec i s)) ∧
  ∀ (s : State) (rest : List Event), s.status.busy = false →
    (s.inbox = .core :: rest → step s = .next (pop s rest)) ∧ (s.inbox = [] → step s = .next s)

/-- 40_command_protocol.md R91: a `CMD` write while busy sets `OVERRUN` and changes nothing else. -/
def Obligations.CmdWriteWhileBusyIsDropped : Prop :=
  ∀ (s : State) (w : Word) (rest : List Event),
    s.inbox = .regWrite .b32 (s.params.base + 0x014) w :: rest → s.status.busy = true →
      step s = .next { pop s rest with status := { s.status with overrun := true } }

/-- 40_command_protocol.md R92, R93; 60_exceptions.md R201: a `CMD` write while idle always leaves a state in
which the command is executing without an error, or has ended with an error code 1 to 11; either way DMEM,
the pad states, `ITER`, `JIDX` and every register but `STATUS` and `CMD` keep their values, `CMD` holds the
word, and `OVERRUN` is not changed. -/
def Obligations.AcceptanceStartsOrEnds : Prop :=
  ∀ (s : State) (w : Word) (rest : List Event),
    s.inbox = .regWrite .b32 (s.params.base + 0x014) w :: rest → s.status.busy = false →
      ∃ t, step s = .next t ∧ t.cmd = w ∧ t.mem = s.mem ∧ KeepsPads s t ∧ t.iter = s.iter ∧ t.jidx = s.jidx ∧
        t.ctrl = s.ctrl ∧ t.args = s.args ∧ t.scratchBase = s.scratchBase ∧ t.scratchLimit = s.scratchLimit ∧
        t.params = s.params ∧ t.inbox = rest ∧ t.replies = s.replies ∧
        t.status.overrun = s.status.overrun ∧ t.status.phase = s.status.phase ∧ t.status.lane = s.status.lane ∧
        ((t.status.busy = true ∧ t.status.done = false ∧ t.status.errcode = 0 ∧ t.status.errarg = 15) ∨
          (t.status.busy = false ∧ t.status.done = true ∧ 1 ≤ t.status.errcode ∧ t.status.errcode ≤ 11))

/-- 10_state.md R25; 40_command_protocol.md R97: `BUSY` rises only where a `CMD` write of a word that decodes is
accepted, and falls only where the step is the completion of the latched command, which sets `DONE`, or the
reset input. A `wait` with no poll left and an empty inbox give the CORE its turn (log 1). -/
def Obligations.BusyChangesOnlyAtItsEvents : Prop :=
  ∀ s t : State, step s = .next t →
    (s.status.busy = false → t.status.busy = true →
      ∃ w i rest, s.inbox = .regWrite .b32 (s.params.base + 0x014) w :: rest ∧ decode w = .ok i ∧ t.cmd = w) ∧
    (s.status.busy = true → t.status.busy = false →
      (∃ rest, s.inbox = .reset :: rest) ∨
      t.status.done = true ∧ ∃ i, decode s.latch.cmd = .ok i ∧
        ((∃ rest, s.inbox = .core :: rest ∧ exec i (pop s rest) = .next t) ∨
          ((s.inbox = [] ∨ ∃ rest, s.inbox = .wait 0 :: rest) ∧ exec i s = .next t)))

/-! ### Acceptance: the errors of every command in priority order -/

/-- 41_core_permutation.md R117, R118. That `exec` checks `ROUNDS` itself is the model's (log 14). -/
def Obligations.CoreCommandAcceptance : Prop :=
  ∀ (f : BitVec 6) (s : State) (i : Instr), s.status.busy = false → i ∈ [.salsaCore f, .chachaCore f] →
    exec i s = .next (
      let src := s.latch.arg 0
      let dst := s.latch.arg 1
      if f.getLsbD 0 = true then ended 3 15 s
      else if src % 4 ≠ 0 then ended 8 0 s
      else if dst % 4 ≠ 0 then ended 8 1 s
      else if ¬ Fits s.params.memSize src 64 then ended 9 0 s
      else if ¬ Fits s.params.memSize dst 64 then ended 9 1 s
      else if Overlaps dst 64 src 64 ∧ dst ≠ src then ended 11 1 s
      else started s)

/-- 42_block_mixer.md R125 to R128. The two BlockMix commands have a `ROUNDS` field (log 14), the
two shuffles none. -/
def Obligations.BlockCommandAcceptance : Prop :=
  ∀ (f : BitVec 6) (s : State) (i : Instr), s.status.busy = false →
    i ∈ [.blockmixS f, .blockmixC f, .shuffle, .unshuffle] →
    exec i s = .next (
      let src := s.latch.arg 0
      let dst := s.latch.arg 1
      let r := s.latch.arg 2
      if i ∈ [.blockmixS f, .blockmixC f] ∧ f.getLsbD 0 = true then ended 3 15 s
      else if r = 0 then ended 4 2 s
      else if s.params.rMax < r then ended 7 2 s
      else if src % 4 ≠ 0 then ended 8 0 s
      else if dst % 4 ≠ 0 then ended 8 1 s
      else if ¬ Fits s.params.memSize src (128 * r) then ended 9 0 s
      else if ¬ Fits s.params.memSize dst (128 * r) then ended 9 1 s
      else if Overlaps dst (128 * r) src (128 * r) ∧ dst ≠ src then ended 11 1 s
      else started s)

/-- 42_block_mixer.md R129. -/
def Obligations.BlkxorAcceptance : Prop :=
  ∀ s : State, s.status.busy = false →
    exec .blkxor s = .next (
      let a := s.latch.arg 0
      let b := s.latch.arg 1
      let r := s.latch.arg 2
      let dst := s.latch.arg 3
      if r = 0 then ended 4 2 s
      else if s.params.rMax < r then ended 7 2 s
      else if a % 4 ≠ 0 then ended 8 0 s
      else if b % 4 ≠ 0 then ended 8 1 s
      else if dst % 4 ≠ 0 then ended 8 3 s
      else if ¬ Fits s.params.memSize a (128 * r) then ended 9 0 s
      else if ¬ Fits s.params.memSize b (128 * r) then ended 9 1 s
      else if ¬ Fits s.params.memSize dst (128 * r) then ended 9 3 s
      else if Overlaps dst (128 * r) a (128 * r) ∧ dst ≠ a then ended 11 3 s
      else if Overlaps dst (128 * r) b (128 * r) ∧ dst ≠ b then ended 11 3 s
      else started s)

/-- 43_romix.md R147 to R149; the scratch need is `128·r·N`, and twice that for `ROMIX2`. That `exec` checks
`ROUNDS` itself is the model's (log 14). -/
def Obligations.RomixAcceptance : Prop :=
  ∀ (f : BitVec 6) (s : State) (i : Instr), s.status.busy = false →
    i ∈ [.romixS f, .romixC f, .romix2 f] →
    exec i s = .next (
      let src := s.latch.arg 0
      let dst := s.latch.arg 1
      let r := s.latch.arg 2
      let N := s.latch.arg 3
      let base := s.latch.scratchBase.toNat
      let S := if i = .romix2 f then 2 * 128 * r * N else 128 * r * N
      if f.getLsbD 0 = true then ended 3 15 s
      else if r = 0 then ended 4 2 s
      else if NotPow2 N then ended 5 3 s
      else if s.params.rMax < r then ended 7 2 s
      else if s.latch.scratchLimit.toNat < S then ended 7 13 s
      else if src % 4 ≠ 0 then ended 8 0 s
      else if dst % 4 ≠ 0 then ended 8 1 s
      else if base % 128 ≠ 0 then ended 8 12 s
      else if ¬ Fits s.params.memSize src (128 * r) then ended 9 0 s
      else if ¬ Fits s.params.memSize dst (128 * r) then ended 9 1 s
      else if ¬ Fits s.params.memSize base S then ended 10 12 s
      else if Overlaps dst (128 * r) src (128 * r) ∧ dst ≠ src then ended 11 1 s
      else if Overlaps src (128 * r) base S then ended 11 0 s
      else if Overlaps dst (128 * r) base S then ended 11 1 s
      else started s)

/-- 44_pbkdf2.md R166, R167. -/
def Obligations.HmacCommandAcceptance : Prop :=
  ∀ s : State, s.status.busy = false →
    exec .hmacInit s = .next (
      if ¬ Fits s.params.memSize (s.latch.arg 0) (s.latch.arg 1) then ended 9 0 s else started s) ∧
    exec .pbkdf2Blk s = .next (
      if ¬ Fits s.params.memSize (s.latch.arg 0) (s.latch.arg 1) then ended 9 0 s
      else if ¬ Fits s.params.memSize (s.latch.arg 3) 32 then ended 9 3 s
      else if Overlaps (s.latch.arg 3) 32 (s.latch.arg 0) (s.latch.arg 1) then ended 11 3 s
      else started s)

/-- 44_pbkdf2.md R168. -/
def Obligations.Pbkdf2Acceptance : Prop :=
  ∀ s : State, s.status.busy = false →
    exec .pbkdf2 s = .next (
      let M := s.params.memSize
      if s.latch.arg 4 = 0 then ended 4 4 s
      else if s.latch.arg 6 = 0 then ended 4 6 s
      else if ¬ Fits M (s.latch.arg 0) (s.latch.arg 1) then ended 9 0 s
      else if ¬ Fits M (s.latch.arg 2) (s.latch.arg 3) then ended 9 2 s
      else if ¬ Fits M (s.latch.arg 5) (s.latch.arg 6) then ended 9 5 s
      else if Overlaps (s.latch.arg 5) (s.latch.arg 6) (s.latch.arg 0) (s.latch.arg 1) then ended 11 5 s
      else if Overlaps (s.latch.arg 5) (s.latch.arg 6) (s.latch.arg 2) (s.latch.arg 3) then ended 11 5 s
      else started s)

/-- 45_drivers.md R181. -/
def Obligations.ScryptAcceptance : Prop :=
  ∀ s : State, s.status.busy = false →
    exec .scrypt s = .next (
      let M := s.params.memSize
      let N := s.latch.arg 4
      let r := s.latch.arg 5
      let p := s.latch.arg 6
      let base := s.latch.scratchBase.toNat
      let S := 128 * r * (p + N)
      if r = 0 then ended 4 5 s
      else if p = 0 then ended 4 6 s
      else if s.latch.arg 8 = 0 then ended 4 8 s
      else if NotPow2 N then ended 5 4 s
      else if s.params.rMax < r then ended 7 5 s
      else if s.latch.scratchLimit.toNat < S then ended 7 13 s
      else if base % 128 ≠ 0 then ended 8 12 s
      else if ¬ Fits M (s.latch.arg 0) (s.latch.arg 1) then ended 9 0 s
      else if ¬ Fits M (s.latch.arg 2) (s.latch.arg 3) then ended 9 2 s
      else if ¬ Fits M (s.latch.arg 7) (s.latch.arg 8) then ended 9 7 s
      else if ¬ Fits M base S then ended 10 12 s
      else if Overlaps (s.latch.arg 7) (s.latch.arg 8) (s.latch.arg 0) (s.latch.arg 1) then ended 11 7 s
      else if Overlaps (s.latch.arg 7) (s.latch.arg 8) (s.latch.arg 2) (s.latch.arg 3) then ended 11 7 s
      else if Overlaps (s.latch.arg 0) (s.latch.arg 1) base S then ended 11 0 s
      else if Overlaps (s.latch.arg 2) (s.latch.arg 3) base S then ended 11 2 s
      else if Overlaps (s.latch.arg 7) (s.latch.arg 8) base S then ended 11 7 s
      else started s)

/-- 45_drivers.md R184, R186, R187, with `k` = 1, 3 and 4 lanes. -/
def Obligations.CoinHashAcceptance : Prop :=
  ∀ (s : State) (i : Instr) (k : Nat), s.status.busy = false →
    (i, k) ∈ [(Instr.powhash, 1), (Instr.powhash3, 3), (Instr.powhash4, 4)] →
    exec i s = .next (
      let M := s.params.memSize
      let h := s.latch.arg 0
      let d := s.latch.arg 2
      let base := s.latch.scratchBase.toNat
      let S := 131200 * k
      if s.latch.arg 1 ≠ 80 then ended 6 1 s
      else if s.latch.scratchLimit.toNat < S then ended 7 13 s
      else if base % 128 ≠ 0 then ended 8 12 s
      else if ¬ Fits M h (80 * k) then ended 9 0 s
      else if ¬ Fits M d (32 * k) then ended 9 2 s
      else if ¬ Fits M base S then ended 10 12 s
      else if Overlaps d (32 * k) h (80 * k) then ended 11 2 s
      else if Overlaps h (80 * k) base S then ended 11 0 s
      else if Overlaps d (32 * k) base S then ended 11 2 s
      else started s)

/-! ### Completion: what every command computes and what it leaves alone -/

/-- 41_core_permutation.md R117, R118. -/
def Obligations.CoreCommandsComplete : Prop :=
  ∀ (f : BitVec 6) (s : State), s.status.busy = true →
    (∃ t, exec (.salsaCore f) s = .next t ∧ Done s t ∧ NoProgress t ∧ KeepsPads s t ∧
      readWords t.mem (s.latch.arg 1) 16 = salsa (readWords s.mem (s.latch.arg 0) 16) (roundCount f) ∧
      Untouched s t (Inside (s.latch.arg 1) 64)) ∧
    ∃ t, exec (.chachaCore f) s = .next t ∧ Done s t ∧ NoProgress t ∧ KeepsPads s t ∧
      readWords t.mem (s.latch.arg 1) 16 = chacha (readWords s.mem (s.latch.arg 0) 16) (roundCount f) ∧
      Untouched s t (Inside (s.latch.arg 1) 64)

/-- 42_block_mixer.md R125, R126. -/
def Obligations.BlockmixCommandsComplete : Prop :=
  ∀ (f : BitVec 6) (s : State), s.status.busy = true →
    (∃ t, exec (.blockmixS f) s = .next t ∧ Done s t ∧ NoProgress t ∧ KeepsPads s t ∧
      readWords t.mem (s.latch.arg 1) (32 * s.latch.arg 2) =
        blockMix .salsa (readWords s.mem (s.latch.arg 0) (32 * s.latch.arg 2)) (s.latch.arg 2) (roundCount f) ∧
      Untouched s t (Inside (s.latch.arg 1) (128 * s.latch.arg 2))) ∧
    ∃ t, exec (.blockmixC f) s = .next t ∧ Done s t ∧ NoProgress t ∧ KeepsPads s t ∧
      readWords t.mem (s.latch.arg 1) (32 * s.latch.arg 2) =
        blockMix .chacha (readWords s.mem (s.latch.arg 0) (32 * s.latch.arg 2)) (s.latch.arg 2) (roundCount f) ∧
      Untouched s t (Inside (s.latch.arg 1) (128 * s.latch.arg 2))

/-- 42_block_mixer.md R121, R122, R127, R128: Word `16k + i` of the `SHUFFLE` result is Word `16k + σ[i]` of the
input, and Word `16k + σ[i]` of the `UNSHUFFLE` result is Word `16k + i` of it. -/
def Obligations.ShuffleCommandsComplete : Prop :=
  ∀ s : State, s.status.busy = true →
    (∃ t, exec .shuffle s = .next t ∧ Done s t ∧ NoProgress t ∧ KeepsPads s t ∧
      (∀ k < 2 * s.latch.arg 2, ∀ i < 16,
        wordAt t.mem (s.latch.arg 1 + 4 * (16 * k + i)) =
          wordAt s.mem (s.latch.arg 0 + 4 * (16 * k + diagonals.getD i 0))) ∧
      Untouched s t (Inside (s.latch.arg 1) (128 * s.latch.arg 2))) ∧
    ∃ t, exec .unshuffle s = .next t ∧ Done s t ∧ NoProgress t ∧ KeepsPads s t ∧
      (∀ k < 2 * s.latch.arg 2, ∀ i < 16,
        wordAt t.mem (s.latch.arg 1 + 4 * (16 * k + diagonals.getD i 0)) =
          wordAt s.mem (s.latch.arg 0 + 4 * (16 * k + i))) ∧
      Untouched s t (Inside (s.latch.arg 1) (128 * s.latch.arg 2))

/-- 42_block_mixer.md R129: Word `k` of the result is the exclusive OR of Words `k` of the inputs. -/
def Obligations.BlkxorCompletes : Prop :=
  ∀ s : State, s.status.busy = true →
    ∃ t, exec .blkxor s = .next t ∧ Done s t ∧ NoProgress t ∧ KeepsPads s t ∧
      (∀ k < 32 * s.latch.arg 2,
        wordAt t.mem (s.latch.arg 3 + 4 * k) =
          wordAt s.mem (s.latch.arg 0 + 4 * k) ^^^ wordAt s.mem (s.latch.arg 1 + 4 * k)) ∧
      Untouched s t (Inside (s.latch.arg 3) (128 * s.latch.arg 2))

/-- 43_romix.md R147, R148, R146, R140: the result Block, the table of fill values slot by slot, `ITER` and
`JIDX`; the result must not lie in the table, as the checks make sure. -/
def Obligations.RomixCommandsComplete : Prop :=
  ∀ (f : BitVec 6) (s : State) (i : Instr) (alg : Alg), s.status.busy = true →
    (i, alg) ∈ [(Instr.romixS f, Alg.salsa), (Instr.romixC f, Alg.chacha)] →
    ¬ Overlaps (s.latch.arg 1) (128 * s.latch.arg 2) s.latch.sbase (128 * s.latch.arg 2 * s.latch.arg 3) →
    let r := s.latch.arg 2
    let N := s.latch.arg 3
    let run := roMix alg (readWords s.mem (s.latch.arg 0) (32 * r)) r N (roundCount f)
    ∃ t, exec i s = .next t ∧ Done s t ∧ KeepsPads s t ∧ t.iter = BitVec.ofNat 32 (N - 1) ∧ t.jidx = run.lastJ ∧
      readWords t.mem (s.latch.arg 1) (32 * r) = run.x ∧
      (∀ k < N, readWords t.mem (s.latch.sbase + 128 * r * k) (32 * r) = run.table.getD k []) ∧
      Untouched s t fun a => Inside (s.latch.arg 1) (128 * r) a ∨ Inside s.latch.sbase (128 * r * N) a

/-- 43_romix.md R149, R145: the result is the exclusive OR of the Salsa and the ChaCha run on the same Block;
each run's table holds its fill values, the Salsa table first; `JIDX` is the Salsa run's. -/
def Obligations.Romix2Completes : Prop :=
  ∀ (f : BitVec 6) (s : State), s.status.busy = true →
    ¬ Overlaps (s.latch.arg 1) (128 * s.latch.arg 2) s.latch.sbase (2 * 128 * s.latch.arg 2 * s.latch.arg 3) →
    let r := s.latch.arg 2
    let N := s.latch.arg 3
    let runS := roMix .salsa (readWords s.mem (s.latch.arg 0) (32 * r)) r N (roundCount f)
    let runC := roMix .chacha (readWords s.mem (s.latch.arg 0) (32 * r)) r N (roundCount f)
    ∃ t, exec (.romix2 f) s = .next t ∧ Done s t ∧ KeepsPads s t ∧ t.iter = BitVec.ofNat 32 (N - 1) ∧
      t.jidx = runS.lastJ ∧
      (∀ k < 32 * r, wordAt t.mem (s.latch.arg 1 + 4 * k) = nth runS.x k ^^^ nth runC.x k) ∧
      (∀ k < N, readWords t.mem (s.latch.sbase + 128 * r * k) (32 * r) = runS.table.getD k [] ∧
        readWords t.mem (s.latch.sbase + 128 * r * (N + k)) (32 * r) = runC.table.getD k []) ∧
      Untouched s t fun a => Inside (s.latch.arg 1) (128 * r) a ∨ Inside s.latch.sbase (2 * 128 * r * N) a

/-- 44_pbkdf2.md R166, R162: the pad states are the compression of the zero-padded key with every byte combined
with 0x36 and 0x5c; a key longer than 64 bytes is hashed first; no byte of DMEM is written. -/
def Obligations.HmacInitCompletes : Prop :=
  ∀ s : State, s.status.busy = true →
    let K := memRead s.mem (s.latch.arg 0) (s.latch.arg 1)
    let K' := if 64 < s.latch.arg 1 then sha256 Config.sha256Compress K else K
    let K0 := K' ++ List.replicate (64 - K'.length) 0
    ∃ t, exec .hmacInit s = .next t ∧ Done s t ∧ NoProgress t ∧
      t.ist = Config.sha256Compress initialHash (blockOf (K0.map fun b => b ^^^ 0x36) 0) ∧
      t.ost = Config.sha256Compress initialHash (blockOf (K0.map fun b => b ^^^ 0x5c) 0) ∧
      Untouched s t fun _ => False

/-- 44_pbkdf2.md R167, R164: the 32 bytes of `PBKDF2Block` of the stored pad states, at any index. -/
def Obligations.Pbkdf2BlkCompletes : Prop :=
  ∀ s : State, s.status.busy = true →
    let salt := memRead s.mem (s.latch.arg 0) (s.latch.arg 1)
    ∃ t, exec .pbkdf2Blk s = .next t ∧ Done s t ∧ NoProgress t ∧ KeepsPads s t ∧
      memRead t.mem (s.latch.arg 3) 32 =
        hmacState Config.sha256Compress s.ist s.ost
          (salt ++ [s.latch.args[2].extractLsb' 24 8, s.latch.args[2].extractLsb' 16 8,
            s.latch.args[2].extractLsb' 8 8, s.latch.args[2].extractLsb' 0 8]) ∧
      Untouched s t (Inside (s.latch.arg 3) 32)

/-- 44_pbkdf2.md R168. -/
def Obligations.Pbkdf2Completes : Prop :=
  ∀ s : State, s.status.busy = true →
    let P := memRead s.mem (s.latch.arg 0) (s.latch.arg 1)
    let S := memRead s.mem (s.latch.arg 2) (s.latch.arg 3)
    ∃ t, exec .pbkdf2 s = .next t ∧ Done s t ∧ NoProgress t ∧
      t.ist = hmacInner Config.sha256Compress P ∧ t.ost = hmacOuter Config.sha256Compress P ∧
      memRead t.mem (s.latch.arg 5) (s.latch.arg 6) =
        pbkdf2 Config.sha256Compress P S (s.latch.arg 4) (s.latch.arg 6) ∧
      Untouched s t (Inside (s.latch.arg 5) (s.latch.arg 6))

/-- 45_drivers.md R181: the derived key, the pad states of the password, the mixed `B` sub-block by sub-block,
the table of the last sub-block's run, `ITER` and `JIDX`; the result must not lie in the scratch region, as
the checks make sure. -/
def Obligations.ScryptCompletes : Prop :=
  ∀ s : State, s.status.busy = true → 1 ≤ s.latch.arg 6 →
    ¬ Overlaps (s.latch.arg 7) (s.latch.arg 8) s.latch.sbase
        (128 * s.latch.arg 5 * (s.latch.arg 6 + s.latch.arg 4)) →
    let F := Config.sha256Compress
    let P := memRead s.mem (s.latch.arg 0) (s.latch.arg 1)
    let S := memRead s.mem (s.latch.arg 2) (s.latch.arg 3)
    let N := s.latch.arg 4
    let r := s.latch.arg 5
    let p := s.latch.arg 6
    let B := pbkdf2 F P S 1 (128 * r * p)
    let run := fun l => roMix .salsa (wordsOf ((B.drop (128 * r * l)).take (128 * r))) r N 8
    ∃ t, exec .scrypt s = .next t ∧ Done s t ∧ t.iter = BitVec.ofNat 32 (N - 1) ∧
      t.jidx = (run (p - 1)).lastJ ∧ t.ist = hmacInner F P ∧ t.ost = hmacOuter F P ∧
      memRead t.mem (s.latch.arg 7) (s.latch.arg 8) = scrypt F P S N r p (s.latch.arg 8) ∧
      (∀ l < p, readWords t.mem (s.latch.sbase + 128 * r * l) (32 * r) = (run l).x) ∧
      (∀ k < N, readWords t.mem (s.latch.sbase + 128 * r * p + 128 * r * k) (32 * r) =
        (run (p - 1)).table.getD k []) ∧
      Untouched s t fun a =>
        Inside (s.latch.arg 7) (s.latch.arg 8) a ∨ Inside s.latch.sbase (128 * r * (p + N)) a

/-- 45_drivers.md R184 to R187: with `k` lanes, the digest of lane `l` is `PowHash` of header `l`, its scratch
holds its mixed Block and its table, and `JIDX` and the pad states are those of lane `k − 1`; the digests must
not lie in the scratch region, as the checks make sure. -/
def Obligations.CoinHashCommandsComplete : Prop :=
  ∀ (s : State) (i : Instr) (k : Nat), s.status.busy = true →
    (i, k) ∈ [(Instr.powhash, 1), (Instr.powhash3, 3), (Instr.powhash4, 4)] →
    ¬ Overlaps (s.latch.arg 2) (32 * k) s.latch.sbase (131200 * k) →
    let F := Config.sha256Compress
    let header := fun l => memRead s.mem (s.latch.arg 0 + 80 * l) 80
    ∃ t, exec i s = .next t ∧ Done s t ∧ t.iter = 1023 ∧ t.jidx = (powMix F (header (k - 1))).lastJ ∧
      t.ist = hmacInner F (header (k - 1)) ∧ t.ost = hmacOuter F (header (k - 1)) ∧
      (∀ l < k,
        memRead t.mem (s.latch.arg 2 + 32 * l) 32 = powHash F (header l) ∧
        readWords t.mem (s.latch.sbase + 131200 * l) 32 = (powMix F (header l)).x ∧
        ∀ j < 1024, readWords t.mem (s.latch.sbase + 131200 * l + 128 + 128 * j) 32 =
          (powMix F (header l)).table.getD j []) ∧
      Untouched s t fun a =>
        Inside (s.latch.arg 2) (32 * k) a ∨ Inside s.latch.sbase (131200 * k) a

/-! ### The functions -/

/-- 41_core_permutation.md R111: the four updates in order, each from the values written before it, and nothing
else. -/
def Obligations.SalsaQuarterRound : Prop :=
  ∀ (x : List Word) (a b c d : Nat), x.length = 16 → a < 16 → b < 16 → c < 16 → d < 16 → [a, b, c, d].Nodup →
    let y := salsaQR x a b c d
    nth y b = nth x b ^^^ rot (nth x a + nth x d) 7 ∧
    nth y c = nth x c ^^^ rot (nth y b + nth x a) 9 ∧
    nth y d = nth x d ^^^ rot (nth y c + nth y b) 13 ∧
    nth y a = nth x a ^^^ rot (nth y d + nth y c) 18 ∧
    ∀ k, k ∉ [a, b, c, d] → nth y k = nth x k

/-- 41_core_permutation.md R114: the eight updates in order, and nothing else. -/
def Obligations.ChachaQuarterRound : Prop :=
  ∀ (x : List Word) (a b c d : Nat), x.length = 16 → a < 16 → b < 16 → c < 16 → d < 16 → [a, b, c, d].Nodup →
    let y := chachaQR x a b c d
    let a1 := nth x a + nth x b
    let d1 := rot (nth x d ^^^ a1) 16
    let c1 := nth x c + d1
    let b1 := rot (nth x b ^^^ c1) 12
    nth y a = a1 + b1 ∧
    nth y d = rot (d1 ^^^ nth y a) 8 ∧
    nth y c = c1 + nth y d ∧
    nth y b = rot (b1 ^^^ nth y c) 7 ∧
    ∀ k, k ∉ [a, b, c, d] → nth y k = nth x k

/-- 41_core_permutation.md R112, R113, R115, R116: a double round is the column round and then the row round
(ChaCha: the diagonal round), each at the indices of the rule; the row round is the column round of the
transpose, the diagonal round the column round of the rotated rows. Word `i` of a core with round count `2n` is
Word `i` of the state after `n` double rounds plus Word `i` of the input. Corner case of R117: the all-zero
sub-block maps to all zeros. -/
def Obligations.CoresAreDoubleRoundsPlusInput : Prop :=
  (∀ x : List Word, x.length = 16 →
    salsaDouble x = quarterRounds salsaQR (quarterRounds salsaQR x salsaColumns) salsaRows ∧
    salsaDouble x =
      transposed (quarterRounds salsaQR (transposed (quarterRounds salsaQR x salsaColumns)) salsaColumns) ∧
    chachaDouble x = quarterRounds chachaQR (quarterRounds chachaQR x chachaColumns) chachaDiagonals ∧
    chachaDouble x =
      rowsRotated 3 (quarterRounds chachaQR (rowsRotated 1 (quarterRounds chachaQR x chachaColumns)) chachaColumns) ∧
    ∀ n : Nat, (salsa x (2 * n)).length = 16 ∧ (chacha x (2 * n)).length = 16 ∧
      ∀ i < 16, nth (salsa x (2 * n)) i = nth (salsaDouble^[n] x) i + nth x i ∧
        nth (chacha x (2 * n)) i = nth (chachaDouble^[n] x) i + nth x i) ∧
  (∀ (x : List Word) (R : Nat), corePerm .salsa x R = salsa x R ∧ corePerm .chacha x R = chacha x R) ∧
  ∀ R : Nat, salsa (List.replicate 16 0) R = List.replicate 16 0 ∧
    chacha (List.replicate 16 0) R = List.replicate 16 0

/-- 41_core_permutation.md R118, corner case: the ChaCha core treats the four columns alike, so a state whose
rows are each one Word repeated maps to another such state, for every round count. -/
def Obligations.ChachaTreatsColumnsAlike : Prop :=
  ∀ (R : Nat) (a b c d : Word), ∃ a' b' c' d', chacha (rowsOf a b c d) R = rowsOf a' b' c' d'

/-- 42_block_mixer.md R120: each output is the core of the last output combined with the next sub-block, the
first one starting from the last sub-block; the even-indexed outputs come first. Sub-block `k` is the Words
`16k` to `16k + 15`, and they are combined Word by Word. -/
def Obligations.BlockMixOutputs : Prop :=
  ∀ (alg : Alg) (B : List Word) (r R : Nat), 1 ≤ r → B.length = 32 * r →
    ∃ Y : Nat → List Word,
      Y 0 = corePerm alg (xorWords (subBlock B (2 * r - 1)) (subBlock B 0)) R ∧
      (∀ i, i + 1 < 2 * r → Y (i + 1) = corePerm alg (xorWords (Y i) (subBlock B (i + 1))) R) ∧
      (blockMix alg B r R).length = 32 * r ∧
      (∀ k < r, subBlock (blockMix alg B r R) k = Y (2 * k) ∧
        subBlock (blockMix alg B r R) (r + k) = Y (2 * k + 1)) ∧
      (∀ k < 2 * r, (subBlock B k).length = 16 ∧ ∀ i < 16, nth (subBlock B k) i = nth B (16 * k + i)) ∧
      ∀ x y : List Word, x.length = y.length →
        (xorWords x y).length = x.length ∧ ∀ i < x.length, nth (xorWords x y) i = nth x i ^^^ nth y i

/-- 42_block_mixer.md R123, R122: unshuffle undoes shuffle, shuffle undoes itself, and the two are one map. -/
def Obligations.ShuffleIsItsOwnInverse : Prop :=
  ∀ (r : Nat) (w : List Word), 1 ≤ r → w.length = 32 * r →
    unshuffle (shuffle w r) r = w ∧ shuffle (shuffle w r) r = w ∧ unshuffle w r = shuffle w r

/-- 42_block_mixer.md R124: the shuffled datapath computes BlockMix. -/
def Obligations.ShuffledDatapathIsBlockMix : Prop :=
  ∀ (B : List Word) (r R : Nat), 1 ≤ r → B.length = 32 * r →
    unshuffle (simdBlockMix (shuffle B r) r R) r = blockMix .salsa B r R

/-- 43_romix.md R142: slot 0 holds the input Block, every next slot BlockMix of the one before, and the phase
leaves BlockMix of the last slot. -/
def Obligations.FillWritesSuccessiveBlocks : Prop :=
  ∀ (alg : Alg) (B : List Word) (r N R : Nat), 1 ≤ N →
    let V := (fill alg r R N B).1
    (roMix alg B r N R).table = V ∧ V.length = N ∧ V.getD 0 [] = B ∧
      (∀ i, i + 1 < N → V.getD (i + 1) [] = blockMix alg (V.getD i []) r R) ∧
      (fill alg r R N B).2 = blockMix alg (V.getD (N - 1) []) r R

/-- 43_romix.md R143, R144, R141; 10_state.md R28: the gather phase starts from BlockMix of the last slot, each
iteration combines the slot its integerify Word selects, and `JIDX` is the last index. -/
def Obligations.GatherFollowsIntegerify : Prop :=
  ∀ (alg : Alg) (B : List Word) (r N R : Nat), 1 ≤ N →
    let run := roMix alg B r N R
    ∃ (Z : Nat → List Word) (J : Nat → Word),
      Z 0 = blockMix alg (run.table.getD (N - 1) []) r R ∧
      (∀ i < N, J i = nth (Z i) (16 * (2 * r - 1)) &&& BitVec.ofNat 32 (N - 1) ∧
        Z (i + 1) = blockMix alg (xorWords (Z i) (run.table.getD (J i).toNat [])) r R) ∧
      run.x = Z N ∧ run.lastJ = J (N - 1)

/-- 43_romix.md R141: for a power of two `N` the gather index is Word 0 of the last sub-block modulo `N`, a slot
of the table. -/
def Obligations.GatherIndexIsRemainder : Prop :=
  ∀ (X : List Word) (r m : Nat), m < 32 →
    (gatherIndex X r (2 ^ m)).toNat = (nth X (16 * (2 * r - 1))).toNat % 2 ^ m ∧
      (gatherIndex X r (2 ^ m)).toNat < 2 ^ m

/-- 44_pbkdf2.md R160 to R163. The padded message ends at the first whole block that holds the message, the byte
0x80 and the 64-bit big-endian bit length, which the model takes modulo `2^64` (log 16). `SHA256cont` absorbs
every 64-byte block of it in order and answers the eight Words most significant byte first; so a block in
front of the message is absorbed first. `SHA256` starts from the initial hash value, `HmacInit` compresses the
padded key with 0x36 and 0x5c, and `HmacState` hashes the inner digest from the outer pad state. -/
def Obligations.Sha256AndHmacFollowTheRules : Prop :=
  (∀ (pre : Nat) (m : List Byte), ∃ z,
    padded pre m = m ++ [0x80] ++ List.replicate z 0 ++
      ((List.range 8).map fun k => (BitVec.ofNat 64 (8 * (pre + m.length))).extractLsb' (56 - 8 * k) 8) ∧
    (pre + m.length + 1 + z + 8) % 64 = 0 ∧ ∀ z' < z, (pre + m.length + 1 + z' + 8) % 64 ≠ 0) ∧
  (∀ (F : Compress) (H : Pad) (pre : Nat) (m : List Byte), pre % 64 = 0 →
    let M := padded pre m
    let G := (List.range (M.length / 64)).foldl (fun H t => F H (blockOf M t)) H
    M.length % 64 = 0 ∧ (sha256Cont F H pre m).length = 32 ∧
    (∀ (k : Fin 8) (j : Nat), j < 4 →
      (sha256Cont F H pre m).getD (4 * k.val + j) 0 = (G[k]).extractLsb' (24 - 8 * j) 8) ∧
    ∀ b : List Byte, b.length = 64 → sha256Cont F H pre (b ++ m) = sha256Cont F (F H (blockOf b 0)) (pre + 64) m) ∧
  (∀ (F : Compress) (m : List Byte), sha256 F m = sha256Cont F initialHash 0 m) ∧
  (∀ (F : Compress) (K : List Byte),
    let K' := if 64 < K.length then sha256 F K else K
    let K0 := K' ++ List.replicate (64 - K'.length) 0
    K0.length = 64 ∧ hmacInner F K = F initialHash (blockOf (K0.map fun b => b ^^^ 0x36) 0) ∧
      hmacOuter F K = F initialHash (blockOf (K0.map fun b => b ^^^ 0x5c) 0)) ∧
  ∀ (F : Compress) (I O : Pad) (m : List Byte),
    hmacState F I O m = sha256Cont F O 64 (sha256Cont F I 64 m)

/-- 44_pbkdf2.md R164, R165: a block has 32 bytes, its first iteration is one HMAC of the salt and the big-endian
index, each further iteration combines one more HMAC of the last `U` into the block byte by byte, and the key is
the first `dkLen` bytes of the blocks 1, 2, … of the password's pad states; for `c = 1` these are the blocks of
the single-iteration variant. Block indices are 32-bit values, so the key has at most `32·(2^32 − 1)` bytes. -/
def Obligations.DerivedKeyFollowsTheRule : Prop :=
  ∀ (F : Compress) (P S : List Byte) (c dkLen : Nat), 1 ≤ c → dkLen ≤ 32 * (2 ^ 32 - 1) →
    let T := pbkdf2T F (hmacInner F P) (hmacOuter F P) S
    let H := hmacState F (hmacInner F P) (hmacOuter F P)
    let U1 := fun i => H (S ++ (List.range 4).map fun k => (BitVec.ofNat 32 i).extractLsb' (24 - 8 * k) 8)
    (∀ i < 2 ^ 32, T 1 i = U1 i ∧ (T c i).length = 32 ∧ (T (c + 1) i).length = 32 ∧
      (H^[c] (U1 i)).length = 32 ∧
      (∀ k < 32, (T (c + 1) i).getD k 0 = (T c i).getD k 0 ^^^ (H^[c] (U1 i)).getD k 0) ∧
      pbkdf2Block F (hmacInner F P) (hmacOuter F P) S (BitVec.ofNat 32 i) = U1 i) ∧
    pbkdf2 F P S c dkLen = ((List.range ((dkLen + 31) / 32)).flatMap fun k => T c (k + 1)).take dkLen ∧
    (pbkdf2 F P S c dkLen).length = dkLen ∧
    pbkdf2 F P S 1 dkLen =
      ((List.range ((dkLen + 31) / 32)).flatMap fun k =>
        pbkdf2Block F (hmacInner F P) (hmacOuter F P) S (BitVec.ofNat 32 (k + 1))).take dkLen

/-- 45_drivers.md R180, R182, R183: scrypt derives `B`, mixes each of its `p` sub-blocks by its own ROMix run with
round count 8, and derives the key with the mixed `B` as salt. The coin hash mixes the four blocks of the header,
which are PBKDF2 of the header with itself as salt; its last block is PBKDF2 with the mixed Block as salt; and so
the coin hash is scrypt of the header with itself as salt. Block indices are 32-bit values. -/
def Obligations.CoinHashIsScrypt : Prop :=
  (∀ (F : Compress) (P S : List Byte) (N r p dkLen : Nat),
    let B := pbkdf2 F P S 1 (128 * r * p)
    scrypt F P S N r p dkLen =
      pbkdf2 F P
        ((List.range p).flatMap fun l =>
          bytesOf (roMix .salsa (wordsOf ((B.drop (128 * r * l)).take (128 * r))) r N 8).x)
        1 dkLen) ∧
  ∀ (F : Compress) (h : List Byte),
    let block := pbkdf2Block F (hmacInner F h) (hmacOuter F h)
    (∀ (S : List Byte), ∀ i < 2 ^ 32,
      pbkdf2T F (hmacInner F h) (hmacOuter F h) S 1 i = block S (BitVec.ofNat 32 i) ∧
        (block S (BitVec.ofNat 32 i)).length = 32) ∧
    pbkdf2 F h h 1 128 = block h 1 ++ block h 2 ++ block h 3 ++ block h 4 ∧
    pbkdf2 F h h 1 128 = powInput F h ∧
    powMix F h = roMix .salsa (wordsOf (powInput F h)) 1 1024 8 ∧
    (∀ X : List Word, pbkdf2 F h (bytesOf X) 1 32 = block (bytesOf X) 1) ∧
    powHash F h = block (bytesOf (powMix F h).x) 1 ∧
    powHash F h = scrypt F h h 1024 1 1 32

/-! ### The host's side -/

/-- 10_state.md R20 to R23, R27, R28: what the read-only registers answer, in every state, that such a read changes
nothing else, and that writes to them change nothing. `ITER` and `JIDX` answer their value while idle and an
unspecified one while busy. -/
def Obligations.ReadOnlyRegisters : Prop :=
  ∀ (s : State) (rest : List Event),
    (s.inbox = .regRead .b32 (s.params.base + 0x000) :: rest →
      Answers (step s) 0x53323038 (pop s rest)) ∧
    (s.inbox = .regRead .b32 (s.params.base + 0x004) :: rest →
      Answers (step s) 0x00000007 (pop s rest)) ∧
    (s.inbox = .regRead .b32 (s.params.base + 0x008) :: rest →
      ∃ v, Answers (step s) v (pop s rest) ∧ v.getLsbD 0 = s.params.capSimd ∧
        v.getLsbD 1 = s.params.capBatch3 ∧ v.getLsbD 2 = s.params.capBatch4 ∧ v.extractLsb' 3 5 = 0 ∧
        v.extractLsb' 8 8 = BitVec.ofNat 8 s.params.rMax ∧ v.extractLsb' 16 16 = 0) ∧
    (s.inbox = .regRead .b32 (s.params.base + 0x018) :: rest →
      ∃ v, Answers (step s) v (pop s rest) ∧ (s.status.busy = false → v = s.iter)) ∧
    (s.inbox = .regRead .b32 (s.params.base + 0x01C) :: rest →
      ∃ v, Answers (step s) v (pop s rest) ∧ (s.status.busy = false → v = s.jidx)) ∧
    ∀ off ∈ [0x000, 0x004, 0x008, 0x018, 0x01C], ∀ v,
      s.inbox = .regWrite .b32 (s.params.base + off) v :: rest → step s = .next (pop s rest)

/-- 10_state.md R34: reserved offsets read 0 and ignore writes. -/
def Obligations.ReservedOffsetsAreInert : Prop :=
  ∀ (s : State) (rest : List Event) (off : Nat), off % 4 = 0 →
    (0x028 ≤ off ∧ off < 0x040) ∨ (0x070 ≤ off ∧ off < 0x080) ∨ (0x0C0 ≤ off ∧ off < 0x1000) →
    (s.inbox = .regRead .b32 (s.params.base + off) :: rest → Answers (step s) 0 (pop s rest)) ∧
    ∀ v, s.inbox = .regWrite .b32 (s.params.base + off) v :: rest → step s = .next (pop s rest)

/-- 10_state.md R40: a narrower, wider or misaligned access to the block is refused. -/
def Obligations.OtherRegisterAccessesAreRefused : Prop :=
  ∀ (s : State) (rest : List Event) (w : Width) (off : Nat) (v : Word), off < 4096 → (w ≠ .b32 ∨ off % 4 ≠ 0) →
    (s.inbox = .regRead w (s.params.base + off) :: rest → step s = .refused .registerAccess) ∧
    (s.inbox = .regWrite w (s.params.base + off) v :: rest → step s = .refused .registerAccess)

/-- 10_state.md R25, R35, R36: the bits a read of `STATUS` returns. While idle `PHASE` and `LANE` are the
register's own; while a command executes `PHASE` is one of the phases it passes through and `LANE` is 0, or
below `k` for a batched command. The phases of each command are read from R35 (log 8). -/
def Obligations.StatusReads : Prop :=
  ∀ (s : State) (rest : List Event), s.inbox = .regRead .b32 (s.params.base + 0x010) :: rest →
    ∃ v, Answers (step s) v (pop s rest) ∧
      v.getLsbD 0 = s.status.busy ∧ v.getLsbD 1 = s.status.done ∧
      (v.getLsbD 2 = true ↔ s.status.errcode ≠ 0) ∧ v.getLsbD 3 = s.status.overrun ∧
      v.extractLsb' 4 4 = 0 ∧ v.extractLsb' 8 4 = s.status.errcode ∧ v.extractLsb' 12 4 = s.status.errarg ∧
      v.extractLsb' 19 5 = 0 ∧ v.extractLsb' 26 6 = 0 ∧
      (s.status.busy = false → v.extractLsb' 16 3 = s.status.phase ∧ v.extractLsb' 24 2 = s.status.lane) ∧
      ∀ i, s.status.busy = true → decode s.latch.cmd = .ok i →
        v.extractLsb' 16 3 ∈
          (if i ∈ [.scrypt, .powhash, .powhash3, .powhash4] then [1, 2, 3, 4]
           else if (∃ f, i = .romixS f ∨ i = .romixC f ∨ i = .romix2 f) then [2, 3]
           else ([5] : List (BitVec 3))) ∧
        (v.extractLsb' 24 2).toNat < (if i = .powhash3 then 3 else if i = .powhash4 then 4 else 1)

/-- 10_state.md R26: a write to `STATUS` clears `DONE` and `OVERRUN` where their bit is written as 1, and
changes nothing else; in a state the invariant allows, a write of 1 to `DONE` alone changes nothing while
busy. -/
def Obligations.StatusWriteOneToClear : Prop :=
  ∀ (s : State) (rest : List Event) (v : Word),
    s.inbox = .regWrite .b32 (s.params.base + 0x010) v :: rest →
    step s = .next { pop s rest with
      status := { s.status with
        done := if v.getLsbD 1 then false else s.status.done
        overrun := if v.getLsbD 3 then false else s.status.overrun } } ∧
    (s.Inv → s.status.busy = true → v.getLsbD 3 = false → step s = .next (pop s rest))

/-- 10_state.md R24, R29, R30, R31, R32: a read through the register port answers the register, busy or not, and
changes nothing else; the read-write registers take the written value, busy or not, and nothing else changes; of
`CTRL` only bits 0 and 1 are kept. `CMD` answers its word; what a write to it does is said by
`StepRunsIssuedCommand`. -/
def Obligations.ReadWriteRegistersHoldWrites : Prop :=
  ∀ (s : State) (rest : List Event) (v : Word),
    (s.inbox = .regRead .b32 (s.params.base + 0x00C) :: rest →
      ∃ u, Answers (step s) u (pop s rest) ∧ u.getLsbD 0 = s.ctrl.ie ∧ u.getLsbD 1 = s.ctrl.accelEn ∧
        u.extractLsb' 2 30 = 0) ∧
    (s.inbox = .regRead .b32 (s.params.base + 0x014) :: rest → Answers (step s) s.cmd (pop s rest)) ∧
    (s.inbox = .regRead .b32 (s.params.base + 0x020) :: rest →
      Answers (step s) s.scratchBase (pop s rest)) ∧
    (s.inbox = .regRead .b32 (s.params.base + 0x024) :: rest →
      Answers (step s) s.scratchLimit (pop s rest)) ∧
    (∀ i : Fin 12, s.inbox = .regRead .b32 (s.params.base + 0x040 + 4 * i.val) :: rest →
      Answers (step s) s.args[i] (pop s rest)) ∧
    (s.inbox = .regWrite .b32 (s.params.base + 0x00C) v :: rest →
      step s = .next { pop s rest with ctrl := { ie := v.getLsbD 0, accelEn := v.getLsbD 1 } } ∧
      readReg { pop s rest with ctrl := { ie := v.getLsbD 0, accelEn := v.getLsbD 1 } } .ctrl = v &&& 3) ∧
    (s.inbox = .regWrite .b32 (s.params.base + 0x020) v :: rest →
      step s = .next { pop s rest with scratchBase := v }) ∧
    (s.inbox = .regWrite .b32 (s.params.base + 0x024) v :: rest →
      step s = .next { pop s rest with scratchLimit := v }) ∧
    ∀ i : Fin 12, s.inbox = .regWrite .b32 (s.params.base + 0x040 + 4 * i.val) v :: rest →
      step s = .next { pop s rest with args := s.args.set i.val v } ∧
      ∀ j : Fin 12, readReg { pop s rest with args := s.args.set i.val v } (.arg j) =
        if j = i then v else s.args[j]

/-- 10_state.md R33: a read of `IST` or `OST` through the register port answers its Word while idle and an
unspecified one while busy, and changes nothing else; a host write sets that Word alone while idle and is ignored
while busy. -/
def Obligations.PadRegistersAnswerAndHoldWhileIdle : Prop :=
  ∀ (s : State) (rest : List Event) (v : Word) (i : Fin 8),
    (s.inbox = .regRead .b32 (s.params.base + 0x080 + 4 * i.val) :: rest →
      ∃ u, Answers (step s) u (pop s rest) ∧ (s.status.busy = false → u = s.ist[i])) ∧
    (s.inbox = .regRead .b32 (s.params.base + 0x0A0 + 4 * i.val) :: rest →
      ∃ u, Answers (step s) u (pop s rest) ∧ (s.status.busy = false → u = s.ost[i])) ∧
    (s.inbox = .regWrite .b32 (s.params.base + 0x080 + 4 * i.val) v :: rest →
      step s = .next (if s.status.busy then pop s rest else { pop s rest with ist := s.ist.set i.val v })) ∧
    (s.inbox = .regWrite .b32 (s.params.base + 0x0A0 + 4 * i.val) v :: rest →
      step s = .next (if s.status.busy then pop s rest else { pop s rest with ost := s.ost.set i.val v }))

/-- 20_memory.md R51, R52; 00_scope.md R12, R13: while idle, a 32-bit read through the DMEM port answers the
little-endian Word and an 8-bit read the byte (zero-extended, log 20), and neither changes anything else; a 32-bit
write stores the four bytes of the Word, least significant first, an 8-bit write the low byte, and nothing else
changes; a Word written is read back. The Words and byte strings the commands read are those of the same bytes. -/
def Obligations.DmemPortStoresWords : Prop :=
  (∀ (s : State) (rest : List Event) (a : Nat) (v : Word), s.status.busy = false →
    (a % 4 = 0 → a + 4 ≤ s.params.memSize →
      (s.inbox = .dmemRead .b32 a :: rest → Answers (step s) (leWord s.mem a) (pop s rest)) ∧
      (s.inbox = .dmemWrite .b32 a v :: rest →
        ∃ t, step s = .next t ∧ t = { pop s rest with mem := t.mem } ∧
          (∀ k < 4, byteAt t.mem (a + k) = v.extractLsb' (8 * k) 8) ∧ Untouched s t (Inside a 4)) ∧
      (s.inbox = .dmemWrite .b32 a v :: .dmemRead .b32 a :: rest →
        ∃ t u, step s = .next t ∧ step t = .next u ∧ u.replies = v :: s.replies ∧ u.mem = t.mem ∧
          (∀ k < 4, byteAt t.mem (a + k) = v.extractLsb' (8 * k) 8) ∧ Untouched s t (Inside a 4))) ∧
    (a < s.params.memSize →
      (s.inbox = .dmemRead .b8 a :: rest →
        Answers (step s) ((byteAt s.mem a).setWidth 32) (pop s rest)) ∧
      (s.inbox = .dmemWrite .b8 a v :: rest →
        ∃ t, step s = .next t ∧ t = { pop s rest with mem := t.mem } ∧
          byteAt t.mem a = v.extractLsb' 0 8 ∧ Untouched s t (Inside a 1)))) ∧
  (∀ (m : Memory) (a n : Nat), wordAt m a = leWord m a ∧
    (memRead m a n).length = n ∧ (∀ k < n, (memRead m a n).getD k 0 = byteAt m (a + k)) ∧
    (readWords m a n).length = n ∧ ∀ k < n, nth (readWords m a n) k = leWord m (a + 4 * k)) ∧
  ∀ ws : List Word, wordsOf (bytesOf ws) = ws ∧ (bytesOf ws).length = 4 * ws.length ∧
    ∀ i < ws.length, ∀ k < 4, (bytesOf ws).getD (4 * i + k) 0 = (nth ws i).extractLsb' (8 * k) 8

/-- 20_memory.md R51: a misaligned 32-bit host access, and any host access at an address `≥ MEM_SIZE`, is
refused. -/
def Obligations.BadDmemAccessesAreRefused : Prop :=
  ∀ (s : State) (rest : List Event) (w : Width) (a : Nat) (v : Word),
    (w = .b32 ∧ a % 4 ≠ 0) ∨ s.params.memSize ≤ a →
    (s.inbox = .dmemRead w a :: rest → ∃ e, step s = .refused e) ∧
    (s.inbox = .dmemWrite w a v :: rest → ∃ e, step s = .refused e)

/-- 20_memory.md R51, R56, R58; 70_reset_and_hazards.md R242: while a command executes, a host write that reaches a
byte of its footprint is a fault; any other admitted write stores its bytes as when idle. A read answers each byte
the command may not write as it is, an unspecified one elsewhere, and changes nothing else. -/
def Obligations.FootprintIsOwnedWhileBusy : Prop :=
  ∀ (s : State) (i : Instr) (rest : List Event) (a : Nat) (v : Word), s.status.busy = true →
    decode s.latch.cmd = .ok i →
    (a < s.params.memSize →
      (s.inbox = .dmemWrite .b8 a v :: rest →
        (FootprintByte i s.latch a → step s = .fault .footprintWrite) ∧
        (¬ FootprintByte i s.latch a →
          ∃ t, step s = .next t ∧ t = { pop s rest with mem := t.mem } ∧
            byteAt t.mem a = v.extractLsb' 0 8 ∧ Untouched s t (Inside a 1))) ∧
      (s.inbox = .dmemRead .b8 a :: rest →
        ∃ b : Byte, Answers (step s) (b.setWidth 32) (pop s rest) ∧
          (¬ OutputByte i s.latch a → b = byteAt s.mem a))) ∧
    (a % 4 = 0 → a + 4 ≤ s.params.memSize →
      (s.inbox = .dmemWrite .b32 a v :: rest →
        ((∃ k < 4, FootprintByte i s.latch (a + k)) → step s = .fault .footprintWrite) ∧
        ((∀ k < 4, ¬ FootprintByte i s.latch (a + k)) →
          ∃ t, step s = .next t ∧ t = { pop s rest with mem := t.mem } ∧
            (∀ k < 4, byteAt t.mem (a + k) = v.extractLsb' (8 * k) 8) ∧ Untouched s t (Inside a 4))) ∧
      (s.inbox = .dmemRead .b32 a :: rest →
        ∃ u, Answers (step s) u (pop s rest) ∧
          ∀ k < 4, ¬ OutputByte i s.latch (a + k) → u.extractLsb' (8 * k) 8 = byteAt s.mem (a + k)))

/-- 20_memory.md R57; 10_state.md R37: while a command executes, no step of the host changes what its results
depend on: the bytes of its footprint, the pad states, the latches (log 21). -/
def Obligations.SnapshotIsStableWhileBusy : Prop :=
  ∀ s t : State, s.status.busy = true → step s = .next t → t.status.busy = true →
    t.ist = s.ist ∧ t.ost = s.ost ∧ t.latch = s.latch ∧ t.params = s.params ∧
    ∀ a, (activeTable s).inFootprint a = true → byteAt t.mem a = byteAt s.mem a

/-- 60_exceptions.md R211, R210: `IRQ` is `IE ∧ DONE` in every state; so a completion raises `IRQ` where `IE` is 1;
an acceptance that starts a command, a write of 1 to `DONE`, and reset lower it; setting `IE` while `DONE` is 1
raises it. -/
def Obligations.IrqIsTheDoneLevel : Prop :=
  (∀ s : State, s.irq = (s.ctrl.ie && s.status.done)) ∧
  (∀ (s t : State) (i : Instr), s.status.busy = true → exec i s = .next t → t.irq = s.ctrl.ie) ∧
  (∀ (s t : State) (w : Word) (rest : List Event), s.status.busy = false →
    s.inbox = .regWrite .b32 (s.params.base + 0x014) w :: rest → step s = .next t →
      t.irq = (s.ctrl.ie && !t.status.busy)) ∧
  (∀ (s t : State) (v : Word) (rest : List Event), v.getLsbD 1 = true →
    s.inbox = .regWrite .b32 (s.params.base + 0x010) v :: rest → step s = .next t → t.irq = false) ∧
  (∀ (s t : State) (v : Word) (rest : List Event), v.getLsbD 0 = true → s.status.done = true →
    s.inbox = .regWrite .b32 (s.params.base + 0x00C) v :: rest → step s = .next t → t.irq = true) ∧
  ∀ (s t : State) (rest : List Event), s.inbox = .reset :: rest → step s = .next t → t.irq = false

/-- 10_state.md R41; 70_reset_and_hazards.md R230, R231, R232: what every register reads after reset, from any
state; DMEM stays as it is while idle, and while a command executes every byte the command may not write
stays. The model's reset state reads the same, but for `CAP`, which shows its parameters. -/
def Obligations.ResetSetsRegistersAndKeepsDmem : Prop :=
  ∀ (s : State) (rest : List Event), s.inbox = .reset :: rest →
    ∃ t, step s = .next t ∧ t.params = s.params ∧ t.inbox = rest ∧
      (∀ x : Reg, readReg t x =
        match x with
        | .id => 0x53323038
        | .version => 0x00000007
        | .cap => readReg s .cap
        | .status => 0x0000F000
        | .ctrl | .cmd | .iter | .jidx | .scratchBase | .scratchLimit | .reserved => 0
        | .arg _ | .ist _ | .ost _ => 0) ∧
      (∀ x : Reg, x ≠ .cap → readReg State.reset x = readReg t x) ∧
      (s.status.busy = false → ∀ a, byteAt t.mem a = byteAt s.mem a) ∧
      ∀ i, s.status.busy = true → decode s.latch.cmd = .ok i →
        ∀ a, (operandTable i s.latch).mayWrite a = false → byteAt t.mem a = byteAt s.mem a

/-! ### The whole machine -/

/-- The invariant holds after reset. It rests on the parameters the model's reset state carries (log 3). -/
def Obligations.InvariantAtReset : Prop := State.reset.Inv

/-- Every step keeps the invariant. -/
def Obligations.StepKeepsInvariant : Prop :=
  ∀ s t : State, s.Inv → step s = .next t → t.Inv

/-- 40_command_protocol.md R97; 60_exceptions.md R203: in a state the invariant allows, the CORE's turn always
completes an accepted command, without an error. That it moves when the inbox is empty is the model's choice
(log 1). -/
def Obligations.AcceptedCommandsComplete : Prop :=
  ∀ s : State, s.Inv → s.status.busy = true → s.inbox = [] →
    ∃ t, step s = .next t ∧ t.status.busy = false ∧ t.status.done = true ∧ t.status.errcode = 0 ∧
      t.status.errarg = 15

/-- 20_memory.md R56: a command writes no byte of DMEM outside its result regions and its scratch region; the bytes
its operand table lets it write, and its footprint, are those its own rule lists. -/
def Obligations.CommandsWriteOnlyTheirFootprint : Prop :=
  (∀ (i : Instr) (s : State), s.status.busy = true →
    ∃ t, exec i s = .next t ∧ ∀ a, ¬ OutputByte i s.latch a → byteAt t.mem a = byteAt s.mem a) ∧
  ∀ (i : Instr) (l : Latch) (a : Nat),
    ((operandTable i l).mayWrite a = true ↔ OutputByte i l a) ∧
    ((operandTable i l).inFootprint a = true ↔ FootprintByte i l a)

/-- 20_memory.md R57; 40_command_protocol.md R98: what a command that passed its checks leaves in its result and
scratch bytes, the pad states, `ITER` and `JIDX` is a function of its latches, the pad states and the bytes
of its input regions alone. -/
def Obligations.ResultsDependOnInputsAlone : Prop :=
  ∀ (i : Instr) (s s' : State), s.status.busy = true → s'.status.busy = true → s'.latch = s.latch →
    s'.ist = s.ist → s'.ost = s.ost → check s.params s.latch (operandTable i s.latch) = none →
    (∀ r ∈ (operandTable i s.latch).regions, r.use = .input →
      ∀ a, r.has a = true → byteAt s'.mem a = byteAt s.mem a) →
    ∃ t t', exec i s = .next t ∧ exec i s' = .next t' ∧ t'.ist = t.ist ∧ t'.ost = t.ost ∧
      t'.iter = t.iter ∧ t'.jidx = t.jidx ∧
      ∀ a, (operandTable i s.latch).mayWrite a = true → byteAt t'.mem a = byteAt t.mem a

/-- 00_scope.md R10: which datapaths are present and permitted is never seen in a result. -/
def Obligations.DatapathIsNotObservable : Prop :=
  ∀ (i : Instr) (s t : State) (simd b3 b4 accel : Bool), exec i s = .next t →
    ∃ t', exec i { s with
        params := { s.params with capSimd := simd, capBatch3 := b3, capBatch4 := b4 }
        ctrl := { s.ctrl with accelEn := accel }
        latch := { s.latch with accel := accel } } = .next t' ∧
      t'.mem = t.mem ∧ t'.ist = t.ist ∧ t'.ost = t.ost ∧ t'.iter = t.iter ∧ t'.jidx = t.jidx ∧
      t'.status = t.status ∧ t'.args = t.args ∧ t'.cmd = t.cmd
end

