-- ==== Sys2Proof/Laws/State.lean ====
section
/-! SUPPORT. One lemma for each field of `State` and each shared update, so that no later proof unfolds one. -/

namespace Sys2Proof.Machine

variable (s : State) (w v : Word) (e : CmdError) (r : Results)

/-! `latchCommand` -/
@[simp] theorem latchCommand_params : (latchCommand w s).params = s.params := rfl
@[simp] theorem latchCommand_ctrl : (latchCommand w s).ctrl = s.ctrl := rfl
@[simp] theorem latchCommand_cmd : (latchCommand w s).cmd = w := rfl
@[simp] theorem latchCommand_iter : (latchCommand w s).iter = s.iter := rfl
@[simp] theorem latchCommand_jidx : (latchCommand w s).jidx = s.jidx := rfl
@[simp] theorem latchCommand_scratchBase : (latchCommand w s).scratchBase = s.scratchBase := rfl
@[simp] theorem latchCommand_scratchLimit : (latchCommand w s).scratchLimit = s.scratchLimit := rfl
@[simp] theorem latchCommand_args : (latchCommand w s).args = s.args := rfl
@[simp] theorem latchCommand_ist : (latchCommand w s).ist = s.ist := rfl
@[simp] theorem latchCommand_ost : (latchCommand w s).ost = s.ost := rfl
@[simp] theorem latchCommand_work : (latchCommand w s).work = s.work := rfl
@[simp] theorem latchCommand_mem : (latchCommand w s).mem = s.mem := rfl
@[simp] theorem latchCommand_draws : (latchCommand w s).draws = s.draws := rfl
@[simp] theorem latchCommand_inbox : (latchCommand w s).inbox = s.inbox := rfl
@[simp] theorem latchCommand_replies : (latchCommand w s).replies = s.replies := rfl
@[simp] theorem latchCommand_latch_cmd : (latchCommand w s).latch.cmd = w := rfl
@[simp] theorem latchCommand_latch_args : (latchCommand w s).latch.args = s.args := rfl
@[simp] theorem latchCommand_latch_scratchBase : (latchCommand w s).latch.scratchBase = s.scratchBase := rfl
@[simp] theorem latchCommand_latch_scratchLimit : (latchCommand w s).latch.scratchLimit = s.scratchLimit := rfl
@[simp] theorem latchCommand_latch_accel : (latchCommand w s).latch.accel = s.ctrl.accelEn := rfl
@[simp] theorem latchCommand_status :
    (latchCommand w s).status = { s.status with done := false, errcode := 0, errarg := noArg } := rfl

/-! `errorEnd` -/
@[simp] theorem errorEnd_params : (errorEnd e s).params = s.params := rfl
@[simp] theorem errorEnd_ctrl : (errorEnd e s).ctrl = s.ctrl := rfl
@[simp] theorem errorEnd_cmd : (errorEnd e s).cmd = s.cmd := rfl
@[simp] theorem errorEnd_iter : (errorEnd e s).iter = s.iter := rfl
@[simp] theorem errorEnd_jidx : (errorEnd e s).jidx = s.jidx := rfl
@[simp] theorem errorEnd_scratchBase : (errorEnd e s).scratchBase = s.scratchBase := rfl
@[simp] theorem errorEnd_scratchLimit : (errorEnd e s).scratchLimit = s.scratchLimit := rfl
@[simp] theorem errorEnd_args : (errorEnd e s).args = s.args := rfl
@[simp] theorem errorEnd_ist : (errorEnd e s).ist = s.ist := rfl
@[simp] theorem errorEnd_ost : (errorEnd e s).ost = s.ost := rfl
@[simp] theorem errorEnd_latch : (errorEnd e s).latch = s.latch := rfl
@[simp] theorem errorEnd_work : (errorEnd e s).work = s.work := rfl
@[simp] theorem errorEnd_mem : (errorEnd e s).mem = s.mem := rfl
@[simp] theorem errorEnd_draws : (errorEnd e s).draws = s.draws := rfl
@[simp] theorem errorEnd_inbox : (errorEnd e s).inbox = s.inbox := rfl
@[simp] theorem errorEnd_replies : (errorEnd e s).replies = s.replies := rfl
@[simp] theorem errorEnd_status :
    (errorEnd e s).status = { s.status with errcode := errBits e.code, errarg := e.arg, done := true } := rfl

/-! `beginExec` -/
@[simp] theorem beginExec_params : (beginExec s).params = s.params := rfl
@[simp] theorem beginExec_ctrl : (beginExec s).ctrl = s.ctrl := rfl
@[simp] theorem beginExec_cmd : (beginExec s).cmd = s.cmd := rfl
@[simp] theorem beginExec_iter : (beginExec s).iter = s.iter := rfl
@[simp] theorem beginExec_jidx : (beginExec s).jidx = s.jidx := rfl
@[simp] theorem beginExec_scratchBase : (beginExec s).scratchBase = s.scratchBase := rfl
@[simp] theorem beginExec_scratchLimit : (beginExec s).scratchLimit = s.scratchLimit := rfl
@[simp] theorem beginExec_args : (beginExec s).args = s.args := rfl
@[simp] theorem beginExec_ist : (beginExec s).ist = s.ist := rfl
@[simp] theorem beginExec_ost : (beginExec s).ost = s.ost := rfl
@[simp] theorem beginExec_latch : (beginExec s).latch = s.latch := rfl
@[simp] theorem beginExec_work : (beginExec s).work = s.work := rfl
@[simp] theorem beginExec_mem : (beginExec s).mem = s.mem := rfl
@[simp] theorem beginExec_draws : (beginExec s).draws = s.draws := rfl
@[simp] theorem beginExec_inbox : (beginExec s).inbox = s.inbox := rfl
@[simp] theorem beginExec_replies : (beginExec s).replies = s.replies := rfl
@[simp] theorem beginExec_status : (beginExec s).status = { s.status with busy := true } := rfl

/-! `complete` -/
@[simp] theorem complete_params : (complete r s).params = s.params := rfl
@[simp] theorem complete_ctrl : (complete r s).ctrl = s.ctrl := rfl
@[simp] theorem complete_cmd : (complete r s).cmd = s.cmd := rfl
@[simp] theorem complete_iter : (complete r s).iter = r.iter := rfl
@[simp] theorem complete_jidx : (complete r s).jidx = r.jidx := rfl
@[simp] theorem complete_scratchBase : (complete r s).scratchBase = s.scratchBase := rfl
@[simp] theorem complete_scratchLimit : (complete r s).scratchLimit = s.scratchLimit := rfl
@[simp] theorem complete_args : (complete r s).args = s.args := rfl
@[simp] theorem complete_ist : (complete r s).ist = r.ist := rfl
@[simp] theorem complete_ost : (complete r s).ost = r.ost := rfl
@[simp] theorem complete_latch : (complete r s).latch = freeLatch s.draws := rfl
@[simp] theorem complete_work : (complete r s).work = freeWork s.params s.draws := rfl
@[simp] theorem complete_mem : (complete r s).mem = memWrites s.mem r.writes := rfl
@[simp] theorem complete_draws : (complete r s).draws = s.draws + 1 := rfl
@[simp] theorem complete_inbox : (complete r s).inbox = s.inbox := rfl
@[simp] theorem complete_replies : (complete r s).replies = s.replies := rfl
@[simp] theorem complete_status :
    (complete r s).status = { s.status with busy := false, done := true, phase := 0, lane := 0 } := rfl

/-! `overrun` -/
@[simp] theorem overrun_params : (overrun s).params = s.params := rfl
@[simp] theorem overrun_mem : (overrun s).mem = s.mem := rfl
@[simp] theorem overrun_latch : (overrun s).latch = s.latch := rfl
@[simp] theorem overrun_cmd : (overrun s).cmd = s.cmd := rfl
@[simp] theorem overrun_ist : (overrun s).ist = s.ist := rfl
@[simp] theorem overrun_ost : (overrun s).ost = s.ost := rfl
@[simp] theorem overrun_inbox : (overrun s).inbox = s.inbox := rfl
@[simp] theorem overrun_status : (overrun s).status = { s.status with overrun := true } := rfl

/-! `reply` -/
@[simp] theorem reply_params : (reply v s).params = s.params := rfl
@[simp] theorem reply_ctrl : (reply v s).ctrl = s.ctrl := rfl
@[simp] theorem reply_status : (reply v s).status = s.status := rfl
@[simp] theorem reply_cmd : (reply v s).cmd = s.cmd := rfl
@[simp] theorem reply_iter : (reply v s).iter = s.iter := rfl
@[simp] theorem reply_jidx : (reply v s).jidx = s.jidx := rfl
@[simp] theorem reply_scratchBase : (reply v s).scratchBase = s.scratchBase := rfl
@[simp] theorem reply_scratchLimit : (reply v s).scratchLimit = s.scratchLimit := rfl
@[simp] theorem reply_args : (reply v s).args = s.args := rfl
@[simp] theorem reply_ist : (reply v s).ist = s.ist := rfl
@[simp] theorem reply_ost : (reply v s).ost = s.ost := rfl
@[simp] theorem reply_latch : (reply v s).latch = s.latch := rfl
@[simp] theorem reply_work : (reply v s).work = s.work := rfl
@[simp] theorem reply_mem : (reply v s).mem = s.mem := rfl
@[simp] theorem reply_inbox : (reply v s).inbox = s.inbox := rfl
@[simp] theorem reply_replies : (reply v s).replies = v :: s.replies := rfl
theorem reply_draws : (reply v s).draws = if s.status.busy then s.draws + 1 else s.draws := rfl

/-! `resetCore` -/
@[simp] theorem resetCore_params : (resetCore s).params = s.params := rfl
@[simp] theorem resetCore_ctrl : (resetCore s).ctrl = State.reset.ctrl := rfl
@[simp] theorem resetCore_status : (resetCore s).status = Status.atReset := rfl
@[simp] theorem resetCore_cmd : (resetCore s).cmd = 0 := rfl
@[simp] theorem resetCore_iter : (resetCore s).iter = 0 := rfl
@[simp] theorem resetCore_jidx : (resetCore s).jidx = 0 := rfl
@[simp] theorem resetCore_scratchBase : (resetCore s).scratchBase = 0 := rfl
@[simp] theorem resetCore_scratchLimit : (resetCore s).scratchLimit = 0 := rfl
@[simp] theorem resetCore_args : (resetCore s).args = Vector.replicate 12 0 := rfl
@[simp] theorem resetCore_ist : (resetCore s).ist = Vector.replicate 8 0 := rfl
@[simp] theorem resetCore_ost : (resetCore s).ost = Vector.replicate 8 0 := rfl
@[simp] theorem resetCore_latch : (resetCore s).latch = freeLatch s.draws := rfl
@[simp] theorem resetCore_work : (resetCore s).work = freeWork s.params s.draws := rfl
@[simp] theorem resetCore_mem : (resetCore s).mem = memWrites s.mem (scrambled s) := rfl
@[simp] theorem resetCore_draws : (resetCore s).draws = s.draws + 1 := rfl
@[simp] theorem resetCore_inbox : (resetCore s).inbox = s.inbox := rfl
@[simp] theorem resetCore_replies : (resetCore s).replies = s.replies := rfl

/-! `Results.writing` -/
@[simp] theorem Results.writing_writes (ws : List (Nat × List Byte)) : (Results.writing s ws).writes = ws := rfl
@[simp] theorem Results.writing_ist (ws : List (Nat × List Byte)) : (Results.writing s ws).ist = s.ist := rfl
@[simp] theorem Results.writing_ost (ws : List (Nat × List Byte)) : (Results.writing s ws).ost = s.ost := rfl
@[simp] theorem Results.writing_iter (ws : List (Nat × List Byte)) : (Results.writing s ws).iter = 0 := rfl
@[simp] theorem Results.writing_jidx (ws : List (Nat × List Byte)) : (Results.writing s ws).jidx = 0 := rfl

/-! `writeReg` touches none of these -/
@[simp] theorem writeReg_params (x : Reg) : (writeReg x v s).params = s.params := by
  cases x <;> simp only [writeReg] <;> split <;> rfl
@[simp] theorem writeReg_cmd (x : Reg) : (writeReg x v s).cmd = s.cmd := by
  cases x <;> simp only [writeReg] <;> split <;> rfl
@[simp] theorem writeReg_iter (x : Reg) : (writeReg x v s).iter = s.iter := by
  cases x <;> simp only [writeReg] <;> split <;> rfl
@[simp] theorem writeReg_jidx (x : Reg) : (writeReg x v s).jidx = s.jidx := by
  cases x <;> simp only [writeReg] <;> split <;> rfl
@[simp] theorem writeReg_latch (x : Reg) : (writeReg x v s).latch = s.latch := by
  cases x <;> simp only [writeReg] <;> split <;> rfl
@[simp] theorem writeReg_work (x : Reg) : (writeReg x v s).work = s.work := by
  cases x <;> simp only [writeReg] <;> split <;> rfl
@[simp] theorem writeReg_mem (x : Reg) : (writeReg x v s).mem = s.mem := by
  cases x <;> simp only [writeReg] <;> split <;> rfl
@[simp] theorem writeReg_draws (x : Reg) : (writeReg x v s).draws = s.draws := by
  cases x <;> simp only [writeReg] <;> split <;> rfl
@[simp] theorem writeReg_inbox (x : Reg) : (writeReg x v s).inbox = s.inbox := by
  cases x <;> simp only [writeReg] <;> split <;> rfl
@[simp] theorem writeReg_replies (x : Reg) : (writeReg x v s).replies = s.replies := by
  cases x <;> simp only [writeReg] <;> split <;> rfl

end Sys2Proof.Machine
end

