-- ==== Sys2Proof/Laws/Memory.lean ====
section
/-! SUPPORT. The laws of DMEM: a read after a write, the bytes a write leaves alone, and the canonical form. -/

namespace Sys2Proof.Machine

@[simp] theorem toLE_length (w : Word) : (toLE w).length = 4 := rfl

@[simp] theorem toBE_length (w : Word) : (toBE w).length = 4 := by simp [toBE]

@[simp] theorem bytesOf_length (ws : List Word) : (bytesOf ws).length = 4 * ws.length := by
  induction ws with
  | nil => rfl
  | cons w ws ih => simp only [bytesOf, List.flatMap_cons, List.length_append, toLE_length,
      List.length_cons] at ih ⊢; omega

@[simp] theorem memRead_length (m : Memory) (a n : Nat) : (memRead m a n).length = n := by simp [memRead]

@[simp] theorem readWords_length (m : Memory) (a n : Nat) : (readWords m a n).length = n := by simp [readWords]

/-- `LE32` undoes `le32` (00_scope.md R12). -/
theorem le32_toLE (w : Word) :
    le32 (w.extractLsb' 0 8) (w.extractLsb' 8 8) (w.extractLsb' 16 8) (w.extractLsb' 24 8) = w := by
  apply BitVec.eq_of_getLsbD_eq
  intro i hi
  simp only [le32, BitVec.getLsbD_append, BitVec.getLsbD_extractLsb']
  by_cases h1 : i < 8
  · simp [h1]
  by_cases h2 : i - 8 < 8
  · simp [h1, h2, show 8 + (i - 8) = i by omega]
  by_cases h3 : i - 8 - 8 < 8
  · simp [h1, h2, h3, show 16 + (i - 8 - 8) = i by omega]
  · simp [h1, h2, h3, show 24 + (i - 8 - 8 - 8) = i by omega, show i - 8 - 8 - 8 < 8 by omega]

/-- `words` undoes `bytes`. -/
@[simp] theorem wordsOf_bytesOf (ws : List Word) : wordsOf (bytesOf ws) = ws := by
  induction ws with
  | nil => rfl
  | cons w ws ih =>
    show wordsOf (toLE w ++ bytesOf ws) = w :: ws
    simp only [toLE, List.cons_append, List.nil_append, wordsOf, le32_toLE, ih]

theorem cellsFrom_key_le {a : Nat} {bs : List Byte} {c : Host.Cell} (h : c ∈ cellsFrom a bs) :
    a ≤ c.1 ∧ c.1 < a + bs.length := by
  induction bs generalizing a with
  | nil => simp [cellsFrom] at h
  | cons b bs ih =>
    simp only [cellsFrom, List.mem_cons] at h
    rcases h with rfl | h
    · simp
    · have := ih h; simp only [List.length_cons]; omega

theorem cellsFrom_wf (a : Nat) (bs : List Byte) : Memory.wf (cellsFrom a bs) := by
  induction bs generalizing a with
  | nil => exact List.Pairwise.nil
  | cons b bs ih =>
    exact List.Pairwise.cons (fun c hc => by have := cellsFrom_key_le hc; simp only; omega) (ih (a + 1))

/-- Every write keeps the canonical form. -/
theorem memWrite_wf {m : Memory} (h : Memory.wf m) (a : Nat) (v : List Byte) : Memory.wf (memWrite m a v) := by
  unfold memWrite Memory.wf
  simp only [List.pairwise_append, List.mem_append, List.mem_filter, decide_eq_true_eq]
  refine ⟨⟨h.filter _, cellsFrom_wf a v, ?_⟩, h.filter _, ?_⟩
  · intro c hc d hd
    have := cellsFrom_key_le hd
    omega
  · intro c hc d hd
    rcases hc with hc | hc
    · omega
    · have := cellsFrom_key_le hc
      omega

/-- A write of bytes inside `0 .. n − 1` keeps the memory inside it. -/
theorem memWrite_inside {m : Memory} {n : Nat} (h : ∀ c ∈ m, c.1 < n) (a : Nat) (v : List Byte)
    (hv : v = [] ∨ a + v.length ≤ n) : ∀ c ∈ memWrite m a v, c.1 < n := by
  intro c hc
  simp only [memWrite, List.mem_append, List.mem_filter] at hc
  rcases hc with (hc | hc) | hc
  · exact h c hc.1
  · rcases hv with rfl | hv
    · simp [cellsFrom] at hc
    · have := cellsFrom_key_le hc; omega
  · exact h c hc.1

theorem lookup_append (l l' : Memory) (a : Nat) : (l ++ l').lookup a = (l.lookup a).or (l'.lookup a) := by
  induction l with
  | nil => simp
  | cons c l ih =>
    obtain ⟨k, b⟩ := c
    simp only [List.cons_append, List.lookup_cons]
    cases a == k <;> simp [ih]

theorem lookup_none {m : Memory} {a : Nat} (h : ∀ c ∈ m, c.1 ≠ a) : m.lookup a = none := by
  induction m with
  | nil => rfl
  | cons c m ih =>
    obtain ⟨k, b⟩ := c
    have hk : (a == k) = false := by simpa using (h (k, b) (by simp)).symm
    simp only [List.lookup_cons, hk]
    exact ih fun d hd => h d (List.mem_cons_of_mem _ hd)

theorem lookup_filter {m : Memory} {a : Nat} {p : Host.Cell → Bool} (h : ∀ b, p (a, b) = true) :
    (m.filter p).lookup a = m.lookup a := by
  induction m with
  | nil => rfl
  | cons c m ih =>
    obtain ⟨k, b⟩ := c
    by_cases hk : a = k
    · subst hk
      simp [h]
    · have hk' : (a == k) = false := by simpa using hk
      cases hp : p (k, b) <;> simp [hp, hk', ih, List.lookup_cons]

theorem lookup_cellsFrom (a : Nat) (bs : List Byte) (x : Nat) :
    (cellsFrom a bs).lookup x = if a ≤ x then bs[x - a]? else none := by
  induction bs generalizing a with
  | nil => simp [cellsFrom]
  | cons b bs ih =>
    simp only [cellsFrom, List.lookup_cons, ih]
    by_cases hx : x = a
    · subst hx; simp
    · have hx' : (x == a) = false := by simpa using hx
      simp only [hx']
      by_cases hle : a ≤ x
      · have h1 : a + 1 ≤ x := by omega
        have h2 : x - a = (x - (a + 1)) + 1 := by omega
        simp [hle, h1, h2]
      · have h1 : ¬ a + 1 ≤ x := by omega
        simp [hle, h1]

/-- What every byte of DMEM holds after a write. -/
theorem byteAt_memWrite (m : Memory) (a : Nat) (v : List Byte) (x : Nat) :
    byteAt (memWrite m a v) x = if a ≤ x ∧ x < a + v.length then v.getD (x - a) 0 else byteAt m x := by
  unfold byteAt memWrite
  rw [lookup_append, lookup_append, lookup_cellsFrom]
  by_cases h1 : x < a
  · have hf : (m.filter fun c => decide (c.1 < a)).lookup x = m.lookup x := lookup_filter (by simp [h1])
    have hg : (m.filter fun c => decide (a + v.length ≤ c.1)).lookup x = none :=
      lookup_none (by simp only [List.mem_filter, decide_eq_true_eq]; intro c hc; omega)
    have : ¬ a ≤ x := by omega
    simp [hf, hg, this]
  · have hf : (m.filter fun c => decide (c.1 < a)).lookup x = none :=
      lookup_none (by simp only [List.mem_filter, decide_eq_true_eq]; intro c hc; omega)
    have hle : a ≤ x := by omega
    by_cases h2 : x < a + v.length
    · have hlt : x - a < v.length := by omega
      have hs : v[x - a]? = some (v.getD (x - a) 0) := by simp [hlt]
      rw [hf, if_pos hle, hs, if_pos ⟨hle, h2⟩]
      rfl
    · have hg : (m.filter fun c => decide (a + v.length ≤ c.1)).lookup x = m.lookup x :=
        lookup_filter (by simp; omega)
      have hn : v[x - a]? = none := List.getElem?_eq_none (by omega)
      rw [hf, hg, if_pos hle, hn, if_neg (by omega)]
      rfl

/-- A write leaves every byte outside it alone. -/
theorem byteAt_memWrite_outside {m : Memory} {a x : Nat} {v : List Byte} (h : ¬(a ≤ x ∧ x < a + v.length)) :
    byteAt (memWrite m a v) x = byteAt m x := by
  rw [byteAt_memWrite, if_neg h]

/-- A read of what was just written. -/
theorem memRead_memWrite (m : Memory) (a : Nat) (v : List Byte) : memRead (memWrite m a v) a v.length = v := by
  apply List.ext_getElem
  · simp
  · intro k h1 h2
    simp only [memRead, List.getElem_map, List.getElem_range, byteAt_memWrite]
    have : a ≤ a + k ∧ a + k < a + v.length := by omega
    simp [this, h2]

/-- A read outside a write. -/
theorem memRead_memWrite_outside {m : Memory} {a n b : Nat} {v : List Byte}
    (h : n = 0 ∨ v = [] ∨ b + n ≤ a ∨ a + v.length ≤ b) : memRead (memWrite m a v) b n = memRead m b n := by
  unfold memRead
  apply List.map_congr_left
  intro k hk
  rw [List.mem_range] at hk
  apply byteAt_memWrite_outside
  rcases h with h | rfl | h | h
  · omega
  · simp
  · omega
  · omega

theorem wordsOf_append : ∀ (bs cs : List Byte), bs.length % 4 = 0 → wordsOf (bs ++ cs) = wordsOf bs ++ wordsOf cs
  | [], _, _ => rfl
  | b0 :: b1 :: b2 :: b3 :: rest, cs, h => by
    have hr : rest.length % 4 = 0 := by simp only [List.length_cons] at h; omega
    simp only [List.cons_append, wordsOf, wordsOf_append rest cs hr]

/-- A list of Words is the little-endian reading of its bytes. -/
theorem readWords_eq_wordsOf (m : Memory) (a n : Nat) : readWords m a n = wordsOf (memRead m a (4 * n)) := by
  induction n with
  | zero => rfl
  | succ n ih =>
    have h4 : 4 * (n + 1) = 4 * n + 1 + 1 + 1 + 1 := by omega
    have hr : memRead m a (4 * (n + 1)) = memRead m a (4 * n) ++
        [byteAt m (a + 4 * n), byteAt m (a + 4 * n + 1), byteAt m (a + 4 * n + 2), byteAt m (a + 4 * n + 3)] := by
      rw [h4]
      simp only [memRead, List.range_succ, List.map_append, List.map_cons, List.map_nil, List.append_assoc,
        List.cons_append, List.nil_append, Nat.add_assoc]
    rw [hr, wordsOf_append _ _ (by simp), ← ih]
    simp only [readWords, List.range_succ, List.map_append, List.map_cons, List.map_nil, wordsOf, wordAt]

/-- A read of the Words just written (00_scope.md R13). -/
theorem readWords_memWrite (m : Memory) (a : Nat) (ws : List Word) :
    readWords (memWrite m a (bytesOf ws)) a ws.length = ws := by
  rw [readWords_eq_wordsOf, ← bytesOf_length, memRead_memWrite, wordsOf_bytesOf]

/-- A read of Words outside a write. -/
theorem readWords_memWrite_outside {m : Memory} {a n b : Nat} {v : List Byte}
    (h : n = 0 ∨ v = [] ∨ b + 4 * n ≤ a ∨ a + v.length ≤ b) : readWords (memWrite m a v) b n = readWords m b n := by
  rw [readWords_eq_wordsOf, readWords_eq_wordsOf, memRead_memWrite_outside (h.imp (fun hn => by omega) id)]

@[simp] theorem memWrites_nil (m : Memory) : memWrites m [] = m := rfl

@[simp] theorem memWrites_cons (m : Memory) (w : Nat × List Byte) (ws : List (Nat × List Byte)) :
    memWrites m (w :: ws) = memWrites (memWrite m w.1 w.2) ws := rfl

/-- Several writes keep the canonical form. -/
theorem memWrites_wf {m : Memory} (h : Memory.wf m) (ws : List (Nat × List Byte)) : Memory.wf (memWrites m ws) := by
  induction ws generalizing m with
  | nil => exact h
  | cons w ws ih => exact ih (memWrite_wf h w.1 w.2)

/-- Several writes inside `0 .. n − 1` keep the memory inside it. -/
theorem memWrites_inside {m : Memory} {n : Nat} (h : ∀ c ∈ m, c.1 < n) {ws : List (Nat × List Byte)}
    (hw : ∀ w ∈ ws, w.2 = [] ∨ w.1 + w.2.length ≤ n) : ∀ c ∈ memWrites m ws, c.1 < n := by
  induction ws generalizing m with
  | nil => exact h
  | cons w ws ih =>
    exact ih (memWrite_inside h w.1 w.2 (hw w (by simp))) fun x hx => hw x (List.mem_cons_of_mem _ hx)

/-- Several writes leave every byte outside all of them alone. -/
theorem byteAt_memWrites_outside {m : Memory} {x : Nat} {ws : List (Nat × List Byte)}
    (h : ∀ w ∈ ws, ¬(w.1 ≤ x ∧ x < w.1 + w.2.length)) : byteAt (memWrites m ws) x = byteAt m x := by
  induction ws generalizing m with
  | nil => rfl
  | cons w ws ih =>
    rw [memWrites_cons, ih fun y hy => h y (List.mem_cons_of_mem _ hy),
      byteAt_memWrite_outside (h w (by simp))]

/-- Memory after reset has the canonical form. -/
theorem reset_mem_wf : Memory.wf State.reset.mem := List.Pairwise.nil

end Sys2Proof.Machine
end

