-- ==== Sys2Proof/Laws/Lengths.lean ====
section
/-! SUPPORT. How long what every function of the datapath returns is: 16 Words for a core permutation, `32·r`
Words for a Block, 32 bytes for a digest, `dkLen` bytes for a derived key. -/

namespace Sys2Proof.Machine

/-! ### Core permutations -/

@[simp] theorem salsaQR_length (x : List Word) (a b c d : Nat) : (salsaQR x a b c d).length = x.length := by
  simp [salsaQR]

@[simp] theorem chachaQR_length (x : List Word) (a b c d : Nat) : (chachaQR x a b c d).length = x.length := by
  simp [chachaQR]

@[simp] theorem salsaDouble_length (x : List Word) : (salsaDouble x).length = x.length := by simp [salsaDouble]

@[simp] theorem chachaDouble_length (x : List Word) : (chachaDouble x).length = x.length := by simp [chachaDouble]

theorem iterate_length {f : List Word → List Word} (h : ∀ x, (f x).length = x.length) (n : Nat) (x : List Word) :
    (iterate f n x).length = x.length := by
  induction n generalizing x with
  | zero => rfl
  | succ n ih => rw [iterate, ih, h]

@[simp] theorem corePerm_length (alg : Alg) (x : List Word) (R : Nat) : (corePerm alg x R).length = x.length := by
  cases alg
  · simp [corePerm, salsa, addWords, iterate_length salsaDouble_length]
  · simp [corePerm, chacha, addWords, iterate_length chachaDouble_length]

/-! ### The block mixer -/

@[simp] theorem xorWords_length (x y : List Word) : (xorWords x y).length = min x.length y.length := by
  simp [xorWords]

theorem subBlock_length {B : List Word} {k : Nat} (h : 16 * (k + 1) ≤ B.length) : (subBlock B k).length = 16 := by
  simp only [subBlock, List.length_take, List.length_drop]; omega

@[simp] theorem mixChain_length (alg : Alg) (R : Nat) (bs : List (List Word)) (X : List Word) :
    (mixChain alg R bs X).length = bs.length := by
  induction bs generalizing X with
  | nil => rfl
  | cons b bs ih => simp [mixChain, ih]

/-- Every output of the chain is as long as a sub-block. -/
theorem mixChain_mem_length {alg : Alg} {R : Nat} {bs : List (List Word)} {X y : List Word}
    (hX : X.length = 16) (hb : ∀ b ∈ bs, b.length = 16) (hy : y ∈ mixChain alg R bs X) : y.length = 16 := by
  induction bs generalizing X with
  | nil => simp [mixChain] at hy
  | cons b bs ih =>
    have h16 : (corePerm alg (xorWords X b) R).length = 16 := by simp [hX, hb b]
    simp only [mixChain, List.mem_cons] at hy
    rcases hy with rfl | hy
    · exact h16
    · exact ih h16 (fun c hc => hb c (List.mem_cons_of_mem _ hc)) hy

theorem flatMap_range_length {α : Type} {f : Nat → List α} {n m : Nat} (h : ∀ k < n, (f k).length = m) :
    ((List.range n).flatMap f).length = n * m := by
  induction n with
  | zero => simp
  | succ n ih =>
    rw [List.range_succ, List.flatMap_append, List.length_append, ih fun k hk => h k (by omega)]
    simp [h n, Nat.succ_mul]

/-- BlockMix returns a Block of the same shape (42_block_mixer.md R120). -/
@[simp] theorem blockMix_length {B : List Word} {r : Nat} (alg : Alg) (R : Nat) (h : B.length = 32 * r) :
    (blockMix alg B r R).length = 32 * r := by
  have hlen : ∀ k < 2 * r,
      ((mixChain alg R ((List.range (2 * r)).map (subBlock B)) (subBlock B (2 * r - 1))).getD k []).length = 16 := by
    intro k hk
    rw [List.getD_eq_getElem?_getD, List.getElem?_eq_getElem (by simpa using hk)]
    refine mixChain_mem_length (subBlock_length (by omega)) ?_ (List.getElem_mem _)
    intro b hb
    obtain ⟨j, hj, rfl⟩ := List.mem_map.mp hb
    rw [List.mem_range] at hj
    exact subBlock_length (by omega)
  simp only [blockMix, List.length_append]
  rw [flatMap_range_length fun k hk => hlen (2 * k) (by omega),
    flatMap_range_length fun k hk => hlen (2 * k + 1) (by omega)]
  omega

@[simp] theorem shuffle_length (B : List Word) (r : Nat) : (shuffle B r).length = 32 * r := by
  rw [shuffle, flatMap_range_length (m := 16) fun k _ => by simp [sigma]]; omega

@[simp] theorem unshuffleSub_length (b : List Word) : (unshuffleSub b).length = b.length := by
  have : ∀ (l : List Nat) (x : List Word),
      (l.foldl (fun out i => out.set (sigma.getD i 0) (nth b i)) x).length = x.length := by
    intro l
    induction l with
    | nil => intro x; rfl
    | cons i l ih => intro x; rw [List.foldl_cons, ih, List.length_set]
  exact this _ b

@[simp] theorem unshuffle_length {B : List Word} {r : Nat} (h : B.length = 32 * r) :
    (unshuffle B r).length = 32 * r := by
  rw [unshuffle, flatMap_range_length (m := 16) fun k hk => by
    rw [unshuffleSub_length, subBlock_length (by omega)]]
  omega

@[simp] theorem blockAt_length (s : State) (i : Fin 12) : (blockAt s i).length = 32 * s.latch.arg 2 := by
  simp [blockAt]

/-! ### ROMix -/

@[simp] theorem fill_length (alg : Alg) (r R n : Nat) (X : List Word) : (fill alg r R n X).1.length = n := by
  induction n generalizing X with
  | zero => rfl
  | succ n ih => simp [fill, ih]

/-- Every slot of the table, and the `X` the fill phase leaves, is a Block. -/
theorem fill_blocks {alg : Alg} {r R n : Nat} {X : List Word} (h : X.length = 32 * r) :
    (∀ V ∈ (fill alg r R n X).1, V.length = 32 * r) ∧ (fill alg r R n X).2.length = 32 * r := by
  induction n generalizing X with
  | zero => simp [fill, h]
  | succ n ih =>
    have hb := ih (X := blockMix alg X r R) (blockMix_length alg R h)
    refine ⟨?_, hb.2⟩
    intro V hV
    rcases List.mem_cons.mp hV with rfl | hV
    · exact h
    · exact hb.1 V hV

/-- The gather index names a slot of the table (43_romix.md R141, R143). -/
theorem gatherIndex_lt {N : Nat} (X : List Word) (r : Nat) (h1 : 1 ≤ N) (h2 : N ≤ 2 ^ 32) :
    (gatherIndex X r N).toNat < N := by
  have : (gatherIndex X r N).toNat ≤ N - 1 := by
    rw [gatherIndex, BitVec.toNat_and, BitVec.toNat_ofNat, Nat.mod_eq_of_lt (by omega)]
    exact Nat.and_le_right
  omega

theorem gather_length {alg : Alg} {r N R n : Nat} {V : List (List Word)} {X : List Word} {j : Word}
    (hN1 : 1 ≤ N) (hN2 : N ≤ 2 ^ 32) (hV : V.length = N) (hb : ∀ v ∈ V, v.length = 32 * r)
    (hX : X.length = 32 * r) : (gather alg r N R V n X j).1.length = 32 * r := by
  induction n generalizing X j with
  | zero => exact hX
  | succ n ih =>
    refine ih (blockMix_length alg R ?_)
    have hj : (gatherIndex X r N).toNat < V.length := by rw [hV]; exact gatherIndex_lt X r hN1 hN2
    have : (V.getD (gatherIndex X r N).toNat []).length = 32 * r := by
      rw [List.getD_eq_getElem?_getD, List.getElem?_eq_getElem hj]
      exact hb _ (List.getElem_mem _)
    simp only [xorWords_length, hX, this, Nat.min_self]

@[simp] theorem roMix_table_length (alg : Alg) (B : List Word) (r N R : Nat) :
    (roMix alg B r N R).table.length = N := by simp [roMix]

theorem roMix_table_blocks {alg : Alg} {B : List Word} {r N R : Nat} (h : B.length = 32 * r) :
    ∀ V ∈ (roMix alg B r N R).table, V.length = 32 * r := (fill_blocks h).1

/-- ROMix returns a Block (43_romix.md R144). -/
theorem roMix_x_length {alg : Alg} {B : List Word} {r N R : Nat} (h : B.length = 32 * r) (hN : N ≤ 2 ^ 32) :
    (roMix alg B r N R).x.length = 32 * r := by
  rcases Nat.eq_zero_or_pos N with rfl | hpos
  · exact h
  · exact gather_length hpos hN (fill_length ..) (fill_blocks h).1 (fill_blocks h).2

theorem tableBytes_length {V : List (List Word)} {r : Nat} (h : ∀ v ∈ V, v.length = 32 * r) :
    (tableBytes V).length = 128 * r * V.length := by
  induction V with
  | nil => rfl
  | cons v V ih =>
    have hv : v.length = 32 * r := h v (by simp)
    have hr := ih fun w hw => h w (List.mem_cons_of_mem _ hw)
    rw [tableBytes] at hr ⊢
    rw [List.flatMap_cons, List.length_append, hr, bytesOf_length, hv, List.length_cons, Nat.mul_add]
    omega

/-- A table of `N` slots occupies `128·r·N` bytes (43_romix.md R140). -/
theorem roMix_tableBytes_length {alg : Alg} {B : List Word} {r N R : Nat} (h : B.length = 32 * r) :
    (tableBytes (roMix alg B r N R).table).length = 128 * r * N := by
  rw [tableBytes_length (roMix_table_blocks h), roMix_table_length]

/-! ### PBKDF2-HMAC-SHA256 -/

@[simp] theorem be64_length (v : Nat) : (be64 v).length = 8 := by simp [be64]

@[simp] theorem digestOf_length (H : Pad) : (digestOf H).length = 32 := by
  have : ∀ l : List Word, (l.flatMap toBE).length = 4 * l.length := by
    intro l
    induction l with
    | nil => rfl
    | cons w l ih => simp only [List.flatMap_cons, List.length_append, toBE_length, ih, List.length_cons]; omega
  simp [digestOf, this]

@[simp] theorem sha256Cont_length (F : Compress) (H : Pad) (pre : Nat) (m : List Byte) :
    (sha256Cont F H pre m).length = 32 := digestOf_length _

@[simp] theorem sha256_length (F : Compress) (m : List Byte) : (sha256 F m).length = 32 := digestOf_length _

/-- The padded message fills whole blocks (44_pbkdf2.md R160). -/
theorem padded_length (pre : Nat) (m : List Byte) : (pre + (padded pre m).length) % 64 = 0 := by
  simp only [padded, List.length_append, List.length_cons, List.length_nil, List.length_replicate, be64_length]
  omega

@[simp] theorem hmacKey_length (F : Compress) (K : List Byte) : (hmacKey F K).length = 64 := by
  simp only [hmacKey]
  split
  · simp
  · simp only [List.length_append, List.length_replicate]; omega

@[simp] theorem hmacState_length (F : Compress) (I O : Pad) (m : List Byte) : (hmacState F I O m).length = 32 :=
  digestOf_length _

@[simp] theorem pbkdf2Block_length (F : Compress) (I O : Pad) (S : List Byte) (i : Word) :
    (pbkdf2Block F I O S i).length = 32 := digestOf_length _

@[simp] theorem xorBytes_length (a b : List Byte) : (xorBytes a b).length = min a.length b.length := by
  simp [xorBytes]

theorem pbkdf2Iter_length (F : Compress) (I O : Pad) (n : Nat) (U T : List Byte) (h : T.length = 32) :
    (pbkdf2Iter F I O n U T).length = 32 := by
  induction n generalizing U T with
  | zero => exact h
  | succ n ih => exact ih _ _ (by simp [h])

@[simp] theorem pbkdf2T_length (F : Compress) (I O : Pad) (S : List Byte) (c i : Nat) :
    (pbkdf2T F I O S c i).length = 32 := pbkdf2Iter_length F I O _ _ _ (by simp)

/-- The derived key has `dkLen` bytes (44_pbkdf2.md R165). -/
@[simp] theorem pbkdf2_length (F : Compress) (P S : List Byte) (c dkLen : Nat) :
    (pbkdf2 F P S c dkLen).length = dkLen := by
  rw [pbkdf2, List.length_take, flatMap_range_length fun k _ => pbkdf2T_length ..]
  omega

@[simp] theorem bytesAt_length (s : State) (i j : Fin 12) : (bytesAt s i j).length = s.latch.arg j := by
  simp [bytesAt]

/-! ### The drivers -/

theorem wordsOf_length : ∀ (bs : List Byte) (n : Nat), bs.length = 4 * n → (wordsOf bs).length = n
  | [], n, h => by simp only [List.length_nil] at h; simp only [wordsOf, List.length_nil]; omega
  | [b0], n, h => by simp only [List.length_cons, List.length_nil] at h; omega
  | [b0, b1], n, h => by simp only [List.length_cons, List.length_nil] at h; omega
  | [b0, b1, b2], n, h => by simp only [List.length_cons, List.length_nil] at h; omega
  | b0 :: b1 :: b2 :: b3 :: rest, 0, h => by simp at h
  | b0 :: b1 :: b2 :: b3 :: rest, n + 1, h => by
    have := wordsOf_length rest n (by simp only [List.length_cons] at h; omega)
    simp only [wordsOf, List.length_cons, this]

@[simp] theorem scryptRuns_length (B : List Byte) (N r p : Nat) : (scryptRuns B N r p).length = p := by
  simp [scryptRuns]

/-- Every run of the driver leaves a Block and a table of `N` Blocks (45_drivers.md R180). -/
theorem scryptRuns_blocks {B : List Byte} {N r p : Nat} (hB : B.length = 128 * r * p) (hN : N ≤ 2 ^ 32) :
    ∀ run ∈ scryptRuns B N r p, run.x.length = 32 * r ∧ (tableBytes run.table).length = 128 * r * N := by
  intro run hrun
  obtain ⟨l, hl, rfl⟩ := List.mem_map.mp hrun
  rw [List.mem_range] at hl
  have hw : (wordsOf ((B.drop (128 * r * l)).take (128 * r))).length = 32 * r := by
    apply wordsOf_length
    have h1 : 128 * r * (l + 1) ≤ 128 * r * p := Nat.mul_le_mul_left _ hl
    rw [Nat.mul_succ] at h1
    simp only [List.length_take, List.length_drop, hB]
    omega
  exact ⟨roMix_x_length hw hN, roMix_tableBytes_length hw⟩

theorem mixedBytes_length {runs : List RomixRun} {r : Nat} (h : ∀ run ∈ runs, run.x.length = 32 * r) :
    (mixedBytes runs).length = 128 * r * runs.length := by
  induction runs with
  | nil => rfl
  | cons run runs ih =>
    have h1 := h run (by simp)
    have h2 := ih fun x hx => h x (List.mem_cons_of_mem _ hx)
    rw [mixedBytes] at h2 ⊢
    rw [List.flatMap_cons, List.length_append, h2, bytesOf_length, h1, List.length_cons, Nat.mul_add]
    omega

@[simp] theorem scrypt_length (F : Compress) (P S : List Byte) (N r p dkLen : Nat) :
    (scrypt F P S N r p dkLen).length = dkLen := pbkdf2_length ..

@[simp] theorem powInput_length (F : Compress) (h : List Byte) : (powInput F h).length = 128 := by
  simp [powInput]

theorem powMix_x_length (F : Compress) (h : List Byte) : (powMix F h).x.length = 32 :=
  roMix_x_length (r := 1) (wordsOf_length _ 32 (by simp)) (by omega)

theorem powMix_tableBytes_length (F : Compress) (h : List Byte) : (tableBytes (powMix F h).table).length = 131072 :=
  roMix_tableBytes_length (r := 1) (wordsOf_length _ 32 (by simp))

@[simp] theorem powDigest_length (F : Compress) (h : List Byte) (run : RomixRun) : (powDigest F h run).length = 32 :=
  digestOf_length _

end Sys2Proof.Machine
end

