-- ==== Sys2Proof/Laws/Command.lean ====
section
/-! SUPPORT. What one step of a command can do, said once: `exec` is the shared operation `command` on the
command's operand table and results, `command` has three outcomes, and `check` passes exactly when each of
its ten classes does. -/

namespace Sys2Proof.Machine

/-- The results of each command. -/
def resultsOf : Instr → State → Results
  | .salsaCore f => coreResults .salsa f
  | .chachaCore f => coreResults .chacha f
  | .blockmixS f => blockmixResults .salsa f
  | .blockmixC f => blockmixResults .chacha f
  | .shuffle => shuffleResults
  | .unshuffle => unshuffleResults
  | .blkxor => blkxorResults
  | .romixS f => romixResults .salsa f
  | .romixC f => romixResults .chacha f
  | .romix2 f => romix2Results f
  | .hmacInit => hmacInitResults Config.sha256Compress
  | .pbkdf2Blk => pbkdf2BlkResults Config.sha256Compress
  | .pbkdf2 => pbkdf2Results Config.sha256Compress
  | .scrypt => scryptResults Config.sha256Compress
  | .powhash => powResults Config.sha256Compress 1
  | .powhash3 => powResults Config.sha256Compress 3
  | .powhash4 => powResults Config.sha256Compress 4

/-- Every arm of `exec` is the shared operation on its own table and results. -/
theorem exec_eq_command (i : Instr) (s : State) :
    exec i s = command i (operandTable i s.latch) (resultsOf i) s := by
  cases i <;> rfl

/-- While busy, a command completes. -/
theorem exec_busy {s : State} (i : Instr) (h : s.status.busy = true) :
    exec i s = .next (complete (resultsOf i s) s) := by
  rw [exec_eq_command, command, if_pos h]

/-- While idle, a command that fails a check ends with its error. -/
theorem exec_error {s : State} {i : Instr} {e : CmdError} (h : s.status.busy = false)
    (hc : (checkRounds i <|> check s.params s.latch (operandTable i s.latch)) = some e) :
    exec i s = .next (errorEnd e s) := by
  simp only [exec_eq_command, command, h, hc, Bool.false_eq_true, if_false]

/-- While idle, a command that passes every check starts. -/
theorem exec_accepted {s : State} {i : Instr} (h : s.status.busy = false)
    (hc : (checkRounds i <|> check s.params s.latch (operandTable i s.latch)) = none) :
    exec i s = .next (beginExec s) := by
  simp only [exec_eq_command, command, h, hc, Bool.false_eq_true, if_false]

/-- Everything a command's step can do. -/
theorem exec_cases (i : Instr) (s : State) :
    (s.status.busy = true ∧ exec i s = .next (complete (resultsOf i s) s)) ∨
    (s.status.busy = false ∧ ∃ e, (checkRounds i <|> check s.params s.latch (operandTable i s.latch)) = some e ∧
      exec i s = .next (errorEnd e s)) ∨
    (s.status.busy = false ∧ i.wf = true ∧ check s.params s.latch (operandTable i s.latch) = none ∧
      exec i s = .next (beginExec s)) := by
  cases hb : s.status.busy with
  | true => exact .inl ⟨rfl, exec_busy i hb⟩
  | false =>
    cases hc : (checkRounds i <|> check s.params s.latch (operandTable i s.latch)) with
    | some e => exact .inr (.inl ⟨rfl, e, rfl, exec_error hb hc⟩)
    | none =>
      have hx := exec_accepted hb hc
      cases hw : i.wf
      · simp [checkRounds, hw] at hc
      · simp only [checkRounds, hw, if_true] at hc
        exact .inr (.inr ⟨rfl, rfl, hc, hx⟩)

/-- `inbounds`, as 20_memory.md R53 says it. -/
theorem inbounds_iff (p : Params) (r : Region) : inbounds p r = true ↔ r.len = 0 ∨ r.base + r.len ≤ p.memSize := by
  simp [inbounds]

/-- `overlap`, as 20_memory.md R55 says it. -/
theorem overlap_iff (x y : Region) :
    overlap x y = true ↔ 0 < x.len ∧ 0 < y.len ∧ x.base < y.base + y.len ∧ y.base < x.base + x.len := by
  simp [overlap, and_assoc]

/-- The power-of-two test, as 40_command_protocol.md R94 says it. -/
theorem isPow2_iff (v : Word) : isPow2 v = true ↔ ∃ m < 32, v.toNat = 2 ^ m := by
  simp [isPow2]

/-- The checks pass exactly when every class does (40_command_protocol.md R94). -/
theorem check_eq_none (p : Params) (l : Latch) (t : OperandTable) :
    check p l t = none ↔
      checkZero l t = none ∧ checkPow2 l t = none ∧ checkHeader l t = none ∧ checkRMax p l t = none ∧
      checkLimit l t = none ∧ checkAlign t = none ∧ checkScratchAlign t = none ∧ checkBounds p t = none ∧
      checkAlloc p t = none ∧ checkOverlap t = none := by
  have key : ∀ {α : Type} (a b : Option α), (a <|> b) = none ↔ a = none ∧ b = none := by
    intro α a b; cases a <;> simp
  simp only [check, key]

/-- A region that passed `BOUNDS` lies in DMEM (20_memory.md R53). -/
theorem bounds_of_checkBounds {p : Params} {t : OperandTable} (h : checkBounds p t = none) :
    ∀ r ∈ t.regions, r.len = 0 ∨ r.base + r.len ≤ p.memSize := by
  intro r hr
  have := List.findSome?_eq_none_iff.mp h r hr
  by_cases hb : inbounds p r
  · simpa [inbounds] using hb
  · simp [hb] at this

/-- A scratch region that passed `ALLOC` lies in DMEM (20_memory.md R53). -/
theorem bounds_of_checkAlloc {p : Params} {t : OperandTable} (h : checkAlloc p t = none) :
    ∀ r ∈ t.scratch, r.len = 0 ∨ r.base + r.len ≤ p.memSize := by
  intro r hr
  have hs : t.scratch = some r := hr
  simp only [checkAlloc, hs, Option.bind_some] at h
  by_cases hb : inbounds p r
  · simpa [inbounds] using hb
  · simp [hb] at h

/-- While idle, no table is active. -/
@[simp] theorem activeTable_idle {s : State} (h : s.status.busy = false) : activeTable s = {} := by
  simp [activeTable, h]

/-- While busy, the executing command's table is active. -/
theorem activeTable_busy {s : State} {i : Instr} (h : s.status.busy = true) (hi : executing s = some i) :
    activeTable s = operandTable i s.latch := by
  simp [activeTable, h, hi]

end Sys2Proof.Machine
end

