-- ==== Sys2Proof/Laws/Footprint.lean ====
section
/-! SUPPORT. Where a command writes: each of its writes lies in one region of its operand table that is no
input (20_memory.md R56), and so every byte outside its results and its scratch stays as it is. -/

namespace Sys2Proof.Machine

/-- A write is empty or lies in the region. -/
def Fills (w : Nat × List Byte) (r : Region) : Prop :=
  r.use ≠ .input ∧ r.base ≤ w.1 ∧ w.1 + w.2.length ≤ r.base + r.len

/-- Each write of the table's command lies in a result or the scratch region. -/
def WritesInside (t : OperandTable) (ws : List (Nat × List Byte)) : Prop :=
  ∀ w ∈ ws, w.2 = [] ∨ ∃ r ∈ t.allRegions, Fills w r

theorem writesInside_nil (t : OperandTable) : WritesInside t [] := by
  intro w hw; simp at hw

theorem writesInside_cons {t : OperandTable} {w : Nat × List Byte} {ws : List (Nat × List Byte)}
    (h : w.2 = [] ∨ ∃ r ∈ t.allRegions, Fills w r) (hs : WritesInside t ws) : WritesInside t (w :: ws) := by
  intro x hx
  rcases List.mem_cons.mp hx with rfl | hx
  · exact h
  · exact hs x hx

theorem coreResults_inside (alg : Alg) (f : BitVec 6) (s : State) :
    WritesInside (coreTable s.latch) (coreResults alg f s).writes :=
  writesInside_cons
    (.inr ⟨resultAt s.latch 1 64 true, by simp [coreTable, OperandTable.allRegions], by simp [resultAt],
      by simp [resultAt], by simp [resultAt]⟩)
    (writesInside_nil _)

/-- A Block of `32·r` Words written at `ARG1` lies in the result region of a Block command. -/
theorem blockWrite_inside {s : State} {ws : List Word} (h : ws.length = 32 * s.latch.arg 2) :
    WritesInside (blockTable s.latch) [(s.latch.arg 1, bytesOf ws)] :=
  writesInside_cons
    (.inr ⟨resultAt s.latch 1 (128 * s.latch.arg 2) true, by simp [blockTable, OperandTable.allRegions],
      by simp [resultAt], by simp [resultAt], by simp only [bytesOf_length, h, resultAt]; omega⟩)
    (writesInside_nil _)

theorem blkxorResults_inside (s : State) : WritesInside (blkxorTable s.latch) (blkxorResults s).writes :=
  writesInside_cons
    (.inr ⟨resultAt s.latch 3 (128 * s.latch.arg 2) true, by simp [blkxorTable, OperandTable.allRegions],
      by simp [resultAt], by simp [resultAt],
      by simp only [bytesOf_length, xorWords_length, blockAt_length, resultAt]; omega⟩)
    (writesInside_nil _)

theorem Latch.arg_le (l : Latch) (i : Fin 12) : l.arg i ≤ 2 ^ 32 := Nat.le_of_lt l.args[i].isLt

theorem romixResults_inside (alg : Alg) (f : BitVec 6) (s : State) :
    WritesInside (romixTable s.latch (128 * s.latch.arg 2 * s.latch.arg 3)) (romixResults alg f s).writes := by
  refine writesInside_cons (.inr ⟨scratchOf s.latch (128 * s.latch.arg 2 * s.latch.arg 3), ?_, ?_, ?_, ?_⟩)
    (writesInside_cons (.inr ⟨resultAt s.latch 1 (128 * s.latch.arg 2) true, ?_, ?_, ?_, ?_⟩) (writesInside_nil _))
  · simp [romixTable, OperandTable.allRegions]
  · simp [scratchOf]
  · simp [scratchOf]
  · rw [roMix_tableBytes_length (blockAt_length s 0)]; simp [scratchOf]
  · simp [romixTable, OperandTable.allRegions]
  · simp [resultAt]
  · simp [resultAt]
  · simp only [bytesOf_length, roMix_x_length (blockAt_length s 0) (s.latch.arg_le 3), resultAt]; omega

theorem romix2Results_inside (f : BitVec 6) (s : State) :
    WritesInside (romix2Table s.latch) (romix2Results f s).writes := by
  refine writesInside_cons (.inr ⟨scratchOf s.latch (2 * (128 * s.latch.arg 2 * s.latch.arg 3)), ?_, ?_, ?_, ?_⟩)
    (writesInside_cons (.inr ⟨scratchOf s.latch (2 * (128 * s.latch.arg 2 * s.latch.arg 3)), ?_, ?_, ?_, ?_⟩)
      (writesInside_cons (.inr ⟨resultAt s.latch 1 (128 * s.latch.arg 2) true, ?_, ?_, ?_, ?_⟩)
        (writesInside_nil _)))
  · simp [romix2Table, romixTable, OperandTable.allRegions]
  · simp [scratchOf]
  · simp [scratchOf]
  · rw [roMix_tableBytes_length (blockAt_length s 0)]; simp only [scratchOf]; omega
  · simp [romix2Table, romixTable, OperandTable.allRegions]
  · simp [scratchOf]
  · simp [scratchOf]
  · rw [roMix_tableBytes_length (blockAt_length s 0)]; simp only [scratchOf]; omega
  · simp [romix2Table, romixTable, OperandTable.allRegions]
  · simp [resultAt]
  · simp [resultAt]
  · simp only [bytesOf_length, xorWords_length, roMix_x_length (blockAt_length s 0) (s.latch.arg_le 3), resultAt]
    omega

theorem pbkdf2BlkResults_inside (F : Compress) (s : State) :
    WritesInside (pbkdf2BlkTable s.latch) (pbkdf2BlkResults F s).writes :=
  writesInside_cons
    (.inr ⟨resultAt s.latch 3 32 false, by simp [pbkdf2BlkTable, OperandTable.allRegions], by simp [resultAt],
      by simp [resultAt], by simp [resultAt]⟩)
    (writesInside_nil _)

theorem pbkdf2Results_inside (F : Compress) (s : State) :
    WritesInside (pbkdf2Table s.latch) (pbkdf2Results F s).writes :=
  writesInside_cons
    (.inr ⟨resultAt s.latch 5 (s.latch.arg 6) false, by simp [pbkdf2Table, OperandTable.allRegions],
      by simp [resultAt], by simp [resultAt], by simp [resultAt]⟩)
    (writesInside_nil _)

theorem scryptResults_inside (F : Compress) (s : State) :
    WritesInside (scryptTable s.latch) (scryptResults F s).writes := by
  have hr := scryptRuns_blocks (B := pbkdf2 F (bytesAt s 0 1) (bytesAt s 2 3) 1 (128 * s.latch.arg 5 * s.latch.arg 6))
    (r := s.latch.arg 5) (p := s.latch.arg 6) (pbkdf2_length ..) (s.latch.arg_le 4)
  have hm := mixedBytes_length (r := s.latch.arg 5) fun run h => (hr run h).1
  rw [scryptRuns_length] at hm
  have hS : 128 * s.latch.arg 5 * (s.latch.arg 6 + s.latch.arg 4) =
      128 * s.latch.arg 5 * s.latch.arg 6 + 128 * s.latch.arg 5 * s.latch.arg 4 := Nat.mul_add ..
  refine writesInside_cons
    (.inr ⟨scratchOf s.latch (128 * s.latch.arg 5 * (s.latch.arg 6 + s.latch.arg 4)), ?_, ?_, ?_, ?_⟩)
    (writesInside_cons ?_
      (writesInside_cons (.inr ⟨resultAt s.latch 7 (s.latch.arg 8) false, ?_, ?_, ?_, ?_⟩) (writesInside_nil _)))
  · simp [scryptTable, OperandTable.allRegions]
  · simp [scratchOf]
  · simp [scratchOf]
  · simp only [scratchOf, scryptMix, hm, hS]; omega
  · rcases List.eq_nil_or_concat
      (scryptMix F (bytesAt s 0 1) (bytesAt s 2 3) (s.latch.arg 4) (s.latch.arg 5) (s.latch.arg 6)) with h | ⟨l, x, h⟩
    · left; simp only [h]; rfl
    · right
      refine ⟨scratchOf s.latch (128 * s.latch.arg 5 * (s.latch.arg 6 + s.latch.arg 4)), ?_, ?_, ?_, ?_⟩
      · simp [scryptTable, OperandTable.allRegions]
      · simp [scratchOf]
      · simp [scratchOf]
      · have hx := (hr x (by rw [scryptMix] at h; rw [h]; simp)).2
        simp only [h, List.concat_eq_append, List.getLastD_concat, hx, scratchOf, hS]
        omega
  · simp [scryptTable, OperandTable.allRegions]
  · simp [resultAt]
  · simp [resultAt]
  · simp [resultAt]

theorem powResults_inside (F : Compress) (k : Nat) (s : State) :
    WritesInside (powTable s.latch k) (powResults F k s).writes := by
  intro w hw
  simp only [powResults, List.mem_flatMap, List.mem_range, laneWrites, List.mem_cons, List.not_mem_nil, or_false] at hw
  obtain ⟨l, hl, rfl | rfl⟩ := hw
  · refine .inr ⟨scratchOf s.latch (laneBytes * k), ?_, ?_, ?_, ?_⟩
    · simp [powTable, OperandTable.allRegions]
    · simp [scratchOf]
    · simp [scratchOf]
    · simp only [scratchOf, List.length_append, bytesOf_length, powMix_x_length, powMix_tableBytes_length, laneBytes]
      omega
  · refine .inr ⟨resultAt s.latch 2 (32 * k) false, ?_, ?_, ?_, ?_⟩
    · simp [powTable, OperandTable.allRegions]
    · simp [resultAt]
    · simp [resultAt]
    · simp only [resultAt, powDigest_length]; omega

/-- Every write of a command lies in one of its results or in its scratch region. -/
theorem resultsOf_inside (i : Instr) (s : State) : WritesInside (operandTable i s.latch) (resultsOf i s).writes := by
  cases i with
  | salsaCore f => exact coreResults_inside _ _ s
  | chachaCore f => exact coreResults_inside _ _ s
  | blockmixS f => exact blockWrite_inside (blockMix_length _ _ (blockAt_length s 0))
  | blockmixC f => exact blockWrite_inside (blockMix_length _ _ (blockAt_length s 0))
  | shuffle => exact blockWrite_inside (shuffle_length _ _)
  | unshuffle => exact blockWrite_inside (unshuffle_length (blockAt_length s 0))
  | blkxor => exact blkxorResults_inside s
  | romixS f => exact romixResults_inside _ _ s
  | romixC f => exact romixResults_inside _ _ s
  | romix2 f => exact romix2Results_inside _ s
  | hmacInit => exact writesInside_nil _
  | pbkdf2Blk => exact pbkdf2BlkResults_inside _ s
  | pbkdf2 => exact pbkdf2Results_inside _ s
  | scrypt => exact scryptResults_inside _ s
  | powhash => exact powResults_inside _ 1 s
  | powhash3 => exact powResults_inside _ 3 s
  | powhash4 => exact powResults_inside _ 4 s

end Sys2Proof.Machine
end

