-- ==== Sys2Proof/Laws/HostPort.lean ====
section
/-! SUPPORT. What one step of the machine can do, said once for each event at the head of the inbox: a register
read, a register write, a write to `CMD`, a DMEM access, the reset input, and the CORE's turn. -/

namespace Sys2Proof.Machine

/-- Every register lies at its offset (10_state.md R20). -/
@[simp] theorem Reg.ofOffset_offset (r : Reg) : Reg.ofOffset r.offset = r := by
  cases r with
  | arg i => revert i; decide
  | ist i => revert i; decide
  | ost i => revert i; decide
  | _ => rfl

/-- Only the offset `0x014` is `CMD` (10_state.md R20). -/
theorem Reg.ofOffset_cmd {off : Nat} (h : Reg.ofOffset off = .cmd) : off = 0x014 := by
  by_contra hc
  have key : ∀ (c : Prop) [Decidable c] (a b : Reg), a ≠ .cmd → b ≠ .cmd → (if c then a else b) ≠ .cmd := by
    intro c _ a b ha hb
    split <;> assumption
  revert h
  rw [Reg.ofOffset]
  iterate 5 refine key _ _ _ (by simp) ?_
  rw [if_neg hc]
  iterate 7 refine key _ _ _ (by simp) ?_
  simp

/-- Every offset of the three reserved ranges holds no register (10_state.md R34). -/
theorem Reg.ofOffset_reserved {off : Nat}
    (h : (0x028 ≤ off ∧ off < 0x040) ∨ (0x070 ≤ off ∧ off < 0x080) ∨ 0x0C0 ≤ off) :
    Reg.ofOffset off = .reserved := by
  have h0 : ∀ k ∈ [0x000, 0x004, 0x008, 0x00C, 0x010, 0x014, 0x018, 0x01C, 0x020, 0x024], off ≠ k := by
    intro k hk; fin_cases hk <;> omega
  simp only [List.mem_cons, List.not_mem_nil, or_false, forall_eq_or_imp, forall_eq] at h0
  obtain ⟨a, b, c, d, e, f, g, i, j, k⟩ := h0
  have ha : ¬(0x040 ≤ off ∧ off < 0x070) := by omega
  have hi : ¬(0x080 ≤ off ∧ off < 0x0A0) := by omega
  have ho : ¬(0x0A0 ≤ off ∧ off < 0x0C0) := by omega
  rw [Reg.ofOffset, if_neg a, if_neg b, if_neg c, if_neg d, if_neg e, if_neg f, if_neg g, if_neg i, if_neg j,
    if_neg k, if_neg ha, if_neg hi, if_neg ho]

/-- Every register's offset is aligned and inside the block (10_state.md R20). -/
theorem Reg.offset_ok (r : Reg) : r.offset % 4 = 0 ∧ r.offset < 4096 := by
  cases r with
  | arg i => constructor <;> simp only [Reg.offset] <;> omega
  | ist i => constructor <;> simp only [Reg.offset] <;> omega
  | ost i => constructor <;> simp only [Reg.offset] <;> omega
  | _ => decide

/-- The register port admits the aligned 32-bit accesses inside the block (10_state.md R40). -/
theorem regRefusal_none {s : State} {off : Nat} (h4 : off % 4 = 0) (hlt : off < 4096) :
    regRefusal .b32 (s.params.base + off) s = none := by
  have h1 : ¬(s.params.base + off < s.params.base ∨ s.params.base + 4096 ≤ s.params.base + off) := by omega
  have h2 : ¬((Width.b32 : Width) ≠ .b32 ∨ (s.params.base + off - s.params.base) % 4 ≠ 0) := by
    rw [Nat.add_sub_cancel_left]; simp [h4]
  rw [regRefusal, if_neg h1, if_neg h2]

/-- The register port refuses every other access to the block (10_state.md R40). -/
theorem regRefusal_some {s : State} {w : Width} {off : Nat} (hlt : off < 4096) (h : w ≠ .b32 ∨ off % 4 ≠ 0) :
    regRefusal w (s.params.base + off) s = some .registerAccess := by
  have h1 : ¬(s.params.base + off < s.params.base ∨ s.params.base + 4096 ≤ s.params.base + off) := by omega
  rw [regRefusal, if_neg h1, if_pos (by rwa [Nat.add_sub_cancel_left])]

/-- A register read answers the register's value and changes nothing else. -/
theorem step_regRead {s : State} {rest : List Event} {off : Nat}
    (h : s.inbox = .regRead .b32 (s.params.base + off) :: rest) (h4 : off % 4 = 0) (hlt : off < 4096) :
    step s = .next (reply (readReg { s with inbox := rest } (Reg.ofOffset off)) { s with inbox := rest }) := by
  simp only [step, nextStep, h, runEvent, hostRegRead]
  rw [regRefusal_none (s := { s with inbox := rest }) h4 hlt, Nat.add_sub_cancel_left]

/-- A write to a register other than `CMD` is that register's write. -/
theorem step_regWrite {s : State} {rest : List Event} {off : Nat} {v : Word}
    (h : s.inbox = .regWrite .b32 (s.params.base + off) v :: rest) (h4 : off % 4 = 0) (hlt : off < 4096)
    (hc : Reg.ofOffset off ≠ .cmd) :
    step s = .next (writeReg (Reg.ofOffset off) v { s with inbox := rest }) := by
  simp only [step, nextStep, h, runEvent, hostRegWrite]
  rw [regRefusal_none (s := { s with inbox := rest }) h4 hlt, Nat.add_sub_cancel_left]
  cases hr : Reg.ofOffset off <;> simp_all

/-- A write to `CMD` issues a command (10_state.md R29). -/
theorem step_cmdWrite {s : State} {rest : List Event} {w : Word}
    (h : s.inbox = .regWrite .b32 (s.params.base + 0x014) w :: rest) :
    step s = issueCommand w { s with inbox := rest } := by
  simp only [step, nextStep, h, runEvent, hostRegWrite]
  rw [regRefusal_none (s := { s with inbox := rest }) (by decide) (by decide), Nat.add_sub_cancel_left]
  rfl

/-- Everything a register write can do to a state that accepts it: a refusal, the issue of a command at
`CMD`'s offset, or the write of the register at its offset. -/
theorem hostRegWrite_cases (w : Width) (addr : Nat) (v : Word) (s : State) :
    (∃ e, hostRegWrite w addr v s = .refused e) ∨
    (w = .b32 ∧ addr = s.params.base + 0x014 ∧ hostRegWrite w addr v s = issueCommand v s) ∨
    ∃ r, r ≠ .cmd ∧ hostRegWrite w addr v s = .next (writeReg r v s) := by
  cases hr : regRefusal w addr s with
  | some e => exact .inl ⟨e, by simp only [hostRegWrite, hr]⟩
  | none =>
    by_cases hc : addr = s.params.base + 0x014
    · subst hc
      refine .inr (.inl ⟨?_, rfl, ?_⟩)
      · by_contra hw
        rw [regRefusal_some (by decide) (.inl hw)] at hr
        cases hr
      · simp only [hostRegWrite, hr, Nat.add_sub_cancel_left]; rfl
    · have hne : Reg.ofOffset (addr - s.params.base) ≠ .cmd := by
        intro h
        have hlt : s.params.base ≤ addr := by
          by_contra hlt
          rw [regRefusal, if_pos (.inl (by omega))] at hr
          cases hr
        have := Reg.ofOffset_cmd h
        omega
      refine .inr (.inr ⟨Reg.ofOffset (addr - s.params.base), hne, ?_⟩)
      simp only [hostRegWrite, hr]

/-- Everything a write to `CMD` can do (40_command_protocol.md R91, R92). -/
theorem issueCommand_cases (w : Word) (s : State) :
    (s.status.busy = true ∧ issueCommand w s = .next (overrun s)) ∨
    (s.status.busy = false ∧ ∃ e, decode w = .error e ∧
      issueCommand w s = .next (errorEnd ⟨e, noArg⟩ (latchCommand w s))) ∨
    (s.status.busy = false ∧ ∃ i, decode w = .ok i ∧ issueCommand w s = exec i (latchCommand w s)) := by
  cases hb : s.status.busy with
  | true => exact .inl ⟨rfl, by simp only [issueCommand, hb, if_true]⟩
  | false =>
    cases hd : decode w with
    | error e => exact .inr (.inl ⟨rfl, e, rfl, by simp only [issueCommand, hb, hd, Bool.false_eq_true, if_false]⟩)
    | ok i => exact .inr (.inr ⟨rfl, i, rfl, by simp only [issueCommand, hb, hd, Bool.false_eq_true, if_false]⟩)

/-- Everything a DMEM write that is not refused can do (20_memory.md R51, R58). -/
theorem hostDmemWrite_cases {w : Width} {addr : Nat} {v : Word} {s t : State}
    (h : hostDmemWrite w addr v s = .next t) :
    ∃ n, dmemSpan w addr s = .ok n ∧ n ≤ 4 ∧ addr + n ≤ s.params.memSize ∧
      (∀ k < n, (activeTable s).inFootprint (addr + k) = false) ∧
      t = { s with mem := memWrite s.mem addr ((toLE v).take n) } := by
  unfold hostDmemWrite at h
  cases hs : dmemSpan w addr s with
  | error e => rw [hs] at h; cases h
  | ok n =>
    simp only [hs] at h
    split at h
    · cases h
    · rename_i hf
      have hn : n ≤ 4 ∧ addr + n ≤ s.params.memSize := by
        unfold dmemSpan at hs
        cases w <;> simp only at hs
        · split at hs <;> cases hs; omega
        · cases hs
        · split at hs
          · cases hs
          · split at hs <;> cases hs; omega
        · cases hs
      refine ⟨n, rfl, hn.1, hn.2, ?_, by cases h; rfl⟩
      simpa using hf

/-- A DMEM read that is not refused only answers (20_memory.md R51). -/
theorem hostDmemRead_cases {w : Width} {addr : Nat} {s t : State} (h : hostDmemRead w addr s = .next t) :
    ∃ v, t = reply v s := by
  unfold hostDmemRead at h
  split at h <;> cases h
  · exact ⟨_, rfl⟩
  · exact ⟨_, rfl⟩

/-- Everything the CORE's turn can do (40_command_protocol.md R90). -/
theorem coreTurn_cases (s : State) :
    (s.status.busy = false ∧ coreTurn s = .next s) ∨
    (s.status.busy = true ∧ executing s = none ∧ coreTurn s = .fault .noLatchedCommand) ∨
    (s.status.busy = true ∧ ∃ i, executing s = some i ∧ coreTurn s = .next (complete (resultsOf i s) s)) := by
  cases hb : s.status.busy with
  | false => exact .inl ⟨rfl, by simp only [coreTurn, hb, Bool.false_eq_true, if_false]⟩
  | true =>
    cases hx : executing s with
    | none => exact .inr (.inl ⟨rfl, rfl, by simp only [coreTurn, hb, hx, if_true]⟩)
    | some i => exact .inr (.inr ⟨rfl, i, rfl, by simp only [coreTurn, hb, hx, if_true, exec_busy i hb]⟩)

/-- Everything a step of `wait` can do (30_encoding.md R80): the CORE's turn, or a read of `STATUS`. -/
theorem waitStep_cases (polls : Nat) (s : State) :
    (s.status.busy = true ∧ waitStep polls s = coreTurn { s with inbox := .wait 0 :: s.inbox }) ∨
    ∃ v inbox, waitStep polls s = .next (reply v { s with inbox := inbox }) := by
  unfold waitStep
  by_cases hb : (s.status.busy && polls == 0) = true
  · exact .inl ⟨by simp_all, if_pos hb⟩
  · right
    rw [if_neg hb]
    dsimp only
    split
    · exact ⟨_, s.inbox, rfl⟩
    · exact ⟨_, _, rfl⟩

end Sys2Proof.Machine
end

