-- ==== Sys2Proof/Laws/PerInstr.lean ====
section
/-! SUPPORT. A fact about the encoding of every command, made per constructor: its word carries its row's
selector in bits 9:0, its `ROUNDS` field in bits 15:10, and zero in the reserved bits 31:16. -/

namespace Sys2Proof.Laws

/-- The fields of a command's word (30_encoding.md R70, R71, R74). -/
def EncodeFields.Statement (i : Instr) : Prop :=
  selector (encode i) = selector i.pattern ∧ roundsBits (encode i) = i.roundsField.getD 0 ∧
    (encode i).extractLsb' 16 16 = 0

theorem EncodeFields.salsaCore (rounds : BitVec 6) : EncodeFields.Statement (.salsaCore rounds) := by
  unfold EncodeFields.Statement; revert rounds; decide
theorem EncodeFields.chachaCore (rounds : BitVec 6) : EncodeFields.Statement (.chachaCore rounds) := by
  unfold EncodeFields.Statement; revert rounds; decide
theorem EncodeFields.blockmixS (rounds : BitVec 6) : EncodeFields.Statement (.blockmixS rounds) := by
  unfold EncodeFields.Statement; revert rounds; decide
theorem EncodeFields.blockmixC (rounds : BitVec 6) : EncodeFields.Statement (.blockmixC rounds) := by
  unfold EncodeFields.Statement; revert rounds; decide
theorem EncodeFields.shuffle : EncodeFields.Statement .shuffle := by unfold EncodeFields.Statement; decide
theorem EncodeFields.unshuffle : EncodeFields.Statement .unshuffle := by unfold EncodeFields.Statement; decide
theorem EncodeFields.blkxor : EncodeFields.Statement .blkxor := by unfold EncodeFields.Statement; decide
theorem EncodeFields.romixS (rounds : BitVec 6) : EncodeFields.Statement (.romixS rounds) := by
  unfold EncodeFields.Statement; revert rounds; decide
theorem EncodeFields.romixC (rounds : BitVec 6) : EncodeFields.Statement (.romixC rounds) := by
  unfold EncodeFields.Statement; revert rounds; decide
theorem EncodeFields.romix2 (rounds : BitVec 6) : EncodeFields.Statement (.romix2 rounds) := by
  unfold EncodeFields.Statement; revert rounds; decide
theorem EncodeFields.hmacInit : EncodeFields.Statement .hmacInit := by unfold EncodeFields.Statement; decide
theorem EncodeFields.pbkdf2Blk : EncodeFields.Statement .pbkdf2Blk := by unfold EncodeFields.Statement; decide
theorem EncodeFields.pbkdf2 : EncodeFields.Statement .pbkdf2 := by unfold EncodeFields.Statement; decide
theorem EncodeFields.scrypt : EncodeFields.Statement .scrypt := by unfold EncodeFields.Statement; decide
theorem EncodeFields.powhash : EncodeFields.Statement .powhash := by unfold EncodeFields.Statement; decide
theorem EncodeFields.powhash3 : EncodeFields.Statement .powhash3 := by unfold EncodeFields.Statement; decide
theorem EncodeFields.powhash4 : EncodeFields.Statement .powhash4 := by unfold EncodeFields.Statement; decide

end Sys2Proof.Laws
end

