-- ==== Sys2Proof/Tests/Slice0.lean ====
section
/-! SUPPORT. The model's own tests: the well-formedness checks, the decoding of words written out from the
spec's encodings, one step of each command against the vectors of 95_test_vectors.md, and a state and operands
that meet the hypotheses of every statement of Certificates/Slice0/Obligations.lean. -/

namespace Sys2Proof.Tests

open Sys2Proof.Machine Sys2Proof.Spec

-- One theorem at a time: the kernel evaluates each of the longer tests alone.
set_option Elab.async false

/-! ### Helpers -/

/-- The `n` bytes of a hexadecimal number, most significant first: a byte string as the spec writes it. -/
def hexBytes (n v : Nat) : List Byte := (List.range n).map fun k => BitVec.ofNat 8 (v >>> (8 * (n - 1 - k)))

/-- The state after reset, with a list of events waiting. -/
def withEvents (es : List Event) : State := { State.reset with inbox := es }

/-- Latches holding a command word, arguments, and a scratch region large enough for every command. -/
def latched (w : Word) (args : List Word) (base : Word := 0x10000) (limit : Word := 0x100000) : Latch :=
  { cmd := w, args := Vector.ofFn fun i => args.getD i.val 0, scratchBase := base, scratchLimit := limit,
    accel := false }

/-- An idle state whose latches hold a command. -/
def idleWith (l : Latch) : State := { State.reset with latch := l, cmd := l.cmd }

/-- A busy state whose latches hold a command, with some bytes of DMEM written. -/
def busyWith (l : Latch) (mem : Memory := []) (es : List Event := []) : State :=
  { idleWith l with status := { Status.atReset with busy := true }, mem := mem, inbox := es }

/-- What a test looks at in the next state, if there is one. -/
def after {α : Type} (o : Host.Outcome State Fault Refusal) (f : State → α) : Option α :=
  match o with
  | .next t => some (f t)
  | .fault _ => none
  | .refused _ => none

/-- `ERRCODE`, `ERRARG` and `BUSY` after a command's step. -/
def ending (t : State) : BitVec 4 × BitVec 4 × Bool := (t.status.errcode, t.status.errarg, t.status.busy)

/-- The input `I41` of the vectors V41 (95_test_vectors.md), as bytes. -/
def bytesI41 : List Byte :=
  hexBytes 64 0x7e879a214f3ec9867ca940e641718f26baee555b8c61c1b50df846116dcd3b1dee24f319df9b3d8514121e4b5ac5aa3276021d2909c74829edebc68db8b8c25e

/-- The input `B42` of the vectors V42 (95_test_vectors.md), as bytes. -/
def bytesB42 : List Byte :=
  hexBytes 64 0xf7ce0b653d2d72a4108cf5abe912ffdd777616dbbb27a70e8204f3ae2d0f6fad89f68f4811d1e87bcc3bd7400a9ffd29094f0184639574f39ae5a1315217bcd7
    ++ hexBytes 64 0x894991447213bb226c25b54da86370fbcd984380374666bb8ffcb5bf40c254b067d27c51ce4ad5fed829c90b505a571b7f4d1cad6a523cda770e67bceaaf7e89

/-- The Block of Words 0 to 31 of the vector V42-3 (95_test_vectors.md). -/
def countingBlock : List Byte := bytesOf ((List.range 32).map (BitVec.ofNat 32))

/-! ### Well-formedness: an odd `ROUNDS` field is refused in every row that uses it -/

theorem test_wf_salsaCore_odd : Instr.wf (.salsaCore 7) = false := by decide
theorem test_wf_chachaCore_odd : Instr.wf (.chachaCore 1) = false := by decide
theorem test_wf_blockmixS_odd : Instr.wf (.blockmixS 63) = false := by decide
theorem test_wf_blockmixC_odd : Instr.wf (.blockmixC 3) = false := by decide
theorem test_wf_romixS_odd : Instr.wf (.romixS 9) = false := by decide
theorem test_wf_romixC_odd : Instr.wf (.romixC 21) = false := by decide
theorem test_wf_romix2_odd : Instr.wf (.romix2 31) = false := by decide
theorem test_wf_even : Instr.wf (.romix2 62) = true ∧ Instr.wf (.salsaCore 0) = true ∧ Instr.wf .scrypt = true := by
  decide

/-! ### Decoding: words written out from 30_encoding.md R71, field by field: `RSV`, `ROUNDS`, `ALG`, `OPCODE` -/

theorem test_decode_salsaCore :
    decode 0b0000000000000000_000010_00_00000001 = .ok (.salsaCore 2) := by decide
theorem test_decode_chachaCore :
    decode 0b0000000000000000_010100_01_00000001 = .ok (.chachaCore 20) := by decide
theorem test_decode_blockmixS :
    decode 0b0000000000000000_000000_00_00000010 = .ok (.blockmixS 0) := by decide
theorem test_decode_blockmixC :
    decode 0b0000000000000000_111110_01_00000010 = .ok (.blockmixC 62) := by decide
theorem test_decode_shuffle : decode 0b0000000000000000_000000_00_00000011 = .ok .shuffle := by decide
theorem test_decode_unshuffle : decode 0b0000000000000000_000000_00_00000100 = .ok .unshuffle := by decide
theorem test_decode_blkxor : decode 0b0000000000000000_000000_00_00000101 = .ok .blkxor := by decide
theorem test_decode_romixS :
    decode 0b0000000000000000_001000_00_00001000 = .ok (.romixS 8) := by decide
theorem test_decode_romixC :
    decode 0b0000000000000000_100000_01_00001000 = .ok (.romixC 32) := by decide
theorem test_decode_romix2 :
    decode 0b0000000000000000_000100_00_00001001 = .ok (.romix2 4) := by decide
theorem test_decode_hmacInit : decode 0b0000000000000000_000000_00_00010000 = .ok .hmacInit := by decide
theorem test_decode_pbkdf2Blk : decode 0b0000000000000000_000000_00_00010001 = .ok .pbkdf2Blk := by decide
theorem test_decode_pbkdf2 : decode 0b0000000000000000_000000_00_00010010 = .ok .pbkdf2 := by decide
theorem test_decode_scrypt : decode 0b0000000000000000_000000_00_00100000 = .ok .scrypt := by decide
theorem test_decode_powhash : decode 0b0000000000000000_000000_00_00100001 = .ok .powhash := by decide
theorem test_decode_powhash3 : decode 0b0000000000000000_000000_00_00100010 = .ok .powhash3 := by decide
theorem test_decode_powhash4 : decode 0b0000000000000000_000000_00_00100011 = .ok .powhash4 := by decide

/-- The words of the vectors V60-1 to V60-5 (95_test_vectors.md). -/
theorem test_decode_errors :
    decode 0x00000006 = .error .illegal ∧ decode 0x00000201 = .error .illegal ∧
    decode 0x00010001 = .error .reserved ∧ decode 0x00000403 = .error .reserved ∧
    decode 0x00001C01 = .error .rounds := by decide

/-- The rows of the opcode map are disjoint (30_encoding.md R71). -/
theorem test_rows_disjoint :
    rows.Pairwise fun x y => x.pattern &&& (x.mask &&& y.mask) ≠ y.pattern &&& (x.mask &&& y.mask) := by decide

/-- A table word of 32 bits, and one cut to its low 16 bits. -/
theorem test_decodeTableWord :
    decodeTableWord 32 0x00005101 = some (.chachaCore 20) ∧ decodeTableWord 16 0x00000023 = some .powhash4 ∧
    decodeTableWord 32 0x00010001 = none := by decide

theorem test_encode_words :
    encode (.chachaCore 20) = 0x00005101 ∧ encode (.salsaCore 62) = 0x0000F801 ∧ encode .powhash3 = 0x00000022 := by
  decide

/-! ### One step of each command: acceptance against the vectors V60 of 95_test_vectors.md -/

/-- V60-20 and V60-21. -/
theorem test_salsaCore_errors :
    after (exec (.salsaCore 0) (idleWith (latched 0x001 [0x1002, 0x2000]))) ending = some (8, 0, false) ∧
    after (exec (.salsaCore 0) (idleWith (latched 0x001 [0x1000, 0x00FFFFC4]))) ending = some (9, 1, false) := by
  decide +kernel

/-- V60-22. -/
theorem test_chachaCore_overlap :
    after (exec (.chachaCore 0) (idleWith (latched 0x101 [0x1000, 0x1020]))) ending = some (11, 1, false) ∧
    after (exec (.chachaCore 0) (idleWith (latched 0x101 [0x1000, 0x1000]))) ending = some (0, 15, true) := by
  decide +kernel

/-- V60-23 and V60-24. -/
theorem test_blockmixS_errors :
    after (exec (.blockmixS 0) (idleWith (latched 0x002 [0x1000, 0x2000, 0]))) ending = some (4, 2, false) ∧
    after (exec (.blockmixS 0) (idleWith (latched 0x002 [0x1000, 0x4000, 33]))) ending = some (7, 2, false) := by
  decide +kernel

/-- V60-28. -/
theorem test_blkxor_overlap :
    after (exec .blkxor (idleWith (latched 0x005 [0x1000, 0x2000, 1, 0x2040]))) ending = some (11, 3, false) := by
  decide +kernel

/-- V60-25 and V60-26. -/
theorem test_romixS_errors :
    after (exec (.romixS 0) (idleWith (latched 0x008 [0x1000, 0x2000, 1, 3]))) ending = some (5, 3, false) ∧
    after (exec (.romixS 0) (idleWith (latched 0x008 [0x10000, 0x2000, 1, 16]))) ending = some (11, 0, false) := by
  decide +kernel

/-- V60-27. -/
theorem test_romix2_limit :
    after (exec (.romix2 0) (idleWith (latched 0x009 [0x1000, 0x2000, 1, 16] 0x10000 2048))) ending =
      some (7, 13, false) := by decide +kernel

/-- V60-31. -/
theorem test_hmacInit_bounds :
    after (exec .hmacInit (idleWith (latched 0x010 [0x00FFFFFC, 8]))) ending = some (9, 0, false) := by
  decide +kernel

/-- V60-30. -/
theorem test_pbkdf2Blk_overlap :
    after (exec .pbkdf2Blk (idleWith (latched 0x011 [0x1000, 4, 1, 0x1002]))) ending = some (11, 3, false) := by
  decide +kernel

/-- V60-29. -/
theorem test_pbkdf2_zero :
    after (exec .pbkdf2 (idleWith (latched 0x012 [0x1000, 6, 0x1100, 4, 0, 0x2000, 64]))) ending =
      some (4, 4, false) := by decide +kernel

/-- V60-8, V60-14 and V60-16. -/
theorem test_scrypt_errors :
    after (exec .scrypt (idleWith (latched 0x020 [0, 0, 0, 0, 3, 0, 1, 0x2000, 64]))) ending = some (4, 5, false) ∧
    after (exec .scrypt (idleWith (latched 0x020 [0, 0, 0, 0, 16, 1, 1, 0x00FFFFE0, 64]))) ending =
      some (9, 7, false) ∧
    after (exec .scrypt (idleWith (latched 0x020 [0, 0, 0, 0, 16, 1, 1, 0x10040, 64]))) ending =
      some (11, 7, false) := by decide +kernel

/-- V60-17, V60-18 and V60-19. -/
theorem test_powhash_errors :
    after (exec .powhash (idleWith (latched 0x021 [0x1000, 79, 0x2000]))) ending = some (6, 1, false) ∧
    after (exec .powhash (idleWith (latched 0x021 [0x1000, 80, 0x1010]))) ending = some (11, 2, false) ∧
    after (exec .powhash (idleWith (latched 0x021 [0x1000, 80, 0x2000] 0x10000 131199))) ending =
      some (7, 13, false) := by decide +kernel

/-- 45_drivers.md R186, R187, corner cases: the scratch of two lanes, of three lanes. -/
theorem test_batch_limits :
    after (exec .powhash3 (idleWith (latched 0x022 [0x1000, 80, 0x2000] 0x10000 262400))) ending =
      some (7, 13, false) ∧
    after (exec .powhash4 (idleWith (latched 0x023 [0x1000, 80, 0x2000] 0x10000 393600))) ending =
      some (7, 13, false) := by decide +kernel

/-! ### The host's side -/

/-- V70-1: what the registers read after reset. -/
theorem test_reset_reads :
    (readReg State.reset .id, readReg State.reset .version, readReg State.reset .cap, readReg State.reset .status) =
      (0x53323038, 0x00000007, 0x00002007, 0x0000F000) := by decide +kernel

/-- The first instruction after reset: `SALSA.CORE` of the zero addresses is accepted. -/
theorem test_first_instruction :
    after (step (State.reset.withFetchWord 32 0x00000001)) (fun t => (t.cmd, t.status.busy)) =
      some (0x00000001, true) := by decide +kernel

/-- V60-5, as a host program: an error end and the `STATUS` it leaves. -/
theorem test_program_rounds_error :
    after (step (State.reset.withProgram [(.command (.salsaCore 7), 0)])) (fun t => readReg t .status) =
      some 0x0000F306 := by decide +kernel

theorem test_footprint_write_faults :
    step (busyWith (latched 0x001 [0x100, 0x200]) [] [.dmemWrite .b8 0x13F 5]) = .fault .footprintWrite := rfl

theorem test_dmem_misaligned : step (withEvents [.dmemRead .b32 2]) = .refused .dmemMisaligned := rfl

theorem test_dmem_width : step (withEvents [.dmemWrite .b16 0 0]) = .refused .dmemWidth := rfl

theorem test_register_byte_access : step (withEvents [.regRead .b8 0x010]) = .refused .registerAccess := rfl

/-! ### Witnesses: for each statement with hypotheses, a state and operands that meet them all -/

/-- The `CMD` write of a command word, at the base address after reset. -/
def issue (w : Word) : Event := .regWrite .b32 (State.reset.params.base + 0x014) w

/-- A busy `SALSA.CORE` from 0x100 to 0x200, with events waiting. -/
def busySalsa (es : List Event) : State := busyWith (latched 0x001 [0x100, 0x200]) (cellsFrom 0x100 bytesI41) es

/-- A busy `PBKDF2.BLK` of 4 salt bytes at 0x1000 to 0x2000, with events waiting. -/
def busyBlk (es : List Event) : State := busyWith (latched 0x011 [0x1000, 4, 1, 0x2000]) [] es

theorem test_witness_LegalRoundCounts :
    (0 : BitVec 6).getLsbD 0 = false ∧ (8 : BitVec 6).getLsbD 0 = false ∧ (62 : BitVec 6).getLsbD 0 = false := by
  decide

theorem test_witness_StepRunsIssuedCommand :
    (withEvents [issue 0x00005101]).inbox = [issue 0x00005101] ∧ (withEvents [issue 0x00005101]).status.busy = false ∧
    decode 0x00005101 = .ok (.chachaCore 20) ∧ decode 0x00000006 = .error .illegal ∧
    decode (BitVec.ofNat 32 0x0000F809) = .ok (.romix2 62) ∧ 0x0000F809 < 2 ^ 32 := by decide

theorem test_witness_CoreTurnRunsLatchedCommand :
    (busySalsa [.core]).status.busy = true ∧ decode (busySalsa [.core]).latch.cmd = .ok (.salsaCore 0) ∧
    (busySalsa [.core]).inbox = [.core] ∧ (busySalsa []).inbox = [] ∧
    (withEvents [.core]).status.busy = false ∧ (withEvents [.core]).inbox = [.core] := by decide

theorem test_witness_CmdWriteWhileBusyIsDropped :
    (busySalsa [issue 5]).inbox = [issue 5] ∧ (busySalsa [issue 5]).status.busy = true := by decide

theorem test_witness_AcceptanceStartsOrEnds :
    (withEvents [issue 1]).inbox = [issue 1] ∧ (withEvents [issue 1]).status.busy = false := by decide

/-- `BUSY` rises at an accepted `CMD` write, falls at a completion and at reset. -/
theorem test_witness_BusyChangesOnlyAtItsEvents :
    (∃ t, step (withEvents [issue 1]) = .next t ∧ (withEvents [issue 1]).status.busy = false ∧
      t.status.busy = true) ∧
    (∃ t, step (busyBlk []) = .next t ∧ (busyBlk []).status.busy = true ∧ t.status.busy = false) ∧
    ∃ t, step (busyBlk [.reset]) = .next t ∧ (busyBlk [.reset]).status.busy = true ∧ t.status.busy = false :=
  ⟨⟨_, rfl, rfl, rfl⟩, ⟨_, rfl, rfl, rfl⟩, ⟨_, rfl, rfl, rfl⟩⟩

theorem test_witness_CoreCommandAcceptance :
    State.reset.status.busy = false ∧ Instr.chachaCore 7 ∈ [.salsaCore 7, .chachaCore 7] := by decide

theorem test_witness_BlockCommandAcceptance :
    State.reset.status.busy = false ∧
    Instr.shuffle ∈ [.blockmixS 7, .blockmixC 7, .shuffle, .unshuffle] ∧
    Instr.blockmixS 7 ∈ [.blockmixS 7, .blockmixC 7, .shuffle, .unshuffle] := by decide

theorem test_witness_BlkxorAcceptance : State.reset.status.busy = false := rfl

theorem test_witness_RomixAcceptance :
    State.reset.status.busy = false ∧ Instr.romixC 8 ∈ [.romixS 8, .romixC 8, .romix2 8] ∧
    Instr.romix2 8 ∈ [.romixS 8, .romixC 8, .romix2 8] := by decide

theorem test_witness_HmacCommandAcceptance : (idleWith (latched 0x010 [0x00FFFFFC, 8])).status.busy = false := rfl

theorem test_witness_Pbkdf2Acceptance :
    (idleWith (latched 0x012 [0x1000, 6, 0x1100, 4, 0, 0x2000, 64])).status.busy = false := rfl

theorem test_witness_ScryptAcceptance :
    (idleWith (latched 0x020 [0, 0, 0, 0, 16, 1, 1, 0x2000, 64])).status.busy = false := rfl

theorem test_witness_CoinHashAcceptance :
    State.reset.status.busy = false ∧
    (Instr.powhash4, 4) ∈ [(Instr.powhash, 1), (Instr.powhash3, 3), (Instr.powhash4, 4)] := by decide

theorem test_witness_CoreCommandsComplete : (busySalsa []).status.busy = true := rfl

theorem test_witness_BlockmixCommandsComplete :
    (busyWith (latched 0x002 [0x100, 0x200, 1]) (cellsFrom 0x100 bytesB42)).status.busy = true := rfl

theorem test_witness_ShuffleCommandsComplete :
    (busyWith (latched 0x003 [0x100, 0x200, 1]) (cellsFrom 0x100 countingBlock)).status.busy = true := rfl

theorem test_witness_BlkxorCompletes :
    (busyWith (latched 0x005 [0x100, 0x180, 1, 0x200])).status.busy = true := rfl

theorem test_witness_RomixCommandsComplete :
    let s := busyWith (latched 0x008 [0x100, 0xFF80, 1, 2])
    s.status.busy = true ∧
    (Instr.romixC 0, Alg.chacha) ∈ [(Instr.romixS 0, Alg.salsa), (Instr.romixC 0, Alg.chacha)] ∧
    ¬ Overlaps (s.latch.arg 1) (128 * s.latch.arg 2) s.latch.sbase (128 * s.latch.arg 2 * s.latch.arg 3) := by
  decide +kernel

theorem test_witness_Romix2Completes :
    let s := busyWith (latched 0x009 [0x100, 0x10200, 1, 2])
    s.status.busy = true ∧
    ¬ Overlaps (s.latch.arg 1) (128 * s.latch.arg 2) s.latch.sbase (2 * 128 * s.latch.arg 2 * s.latch.arg 3) := by
  decide +kernel

theorem test_witness_HmacInitCompletes : (busyWith (latched 0x010 [0x1000, 65])).status.busy = true := rfl

theorem test_witness_Pbkdf2BlkCompletes : (busyBlk []).status.busy = true := rfl

theorem test_witness_Pbkdf2Completes :
    (busyWith (latched 0x012 [0x1000, 6, 0x1100, 4, 1, 0x2000, 64])).status.busy = true := rfl

theorem test_witness_ScryptCompletes :
    let s := busyWith (latched 0x020 [0x1000, 6, 0x1100, 4, 16, 1, 1, 0x2000, 64])
    s.status.busy = true ∧ 1 ≤ s.latch.arg 6 ∧
    ¬ Overlaps (s.latch.arg 7) (s.latch.arg 8) s.latch.sbase
        (128 * s.latch.arg 5 * (s.latch.arg 6 + s.latch.arg 4)) := by decide +kernel

theorem test_witness_CoinHashCommandsComplete :
    let s := busyWith (latched 0x023 [0x1000, 80, 0x2000])
    s.status.busy = true ∧
    (Instr.powhash4, 4) ∈ [(Instr.powhash, 1), (Instr.powhash3, 3), (Instr.powhash4, 4)] ∧
    ¬ Overlaps (s.latch.arg 2) (32 * 4) s.latch.sbase (131200 * 4) := by decide +kernel

theorem test_witness_SalsaQuarterRound :
    (List.replicate 16 (1 : Word)).length = 16 ∧ 15 < 16 ∧ 12 < 16 ∧ 13 < 16 ∧ 14 < 16 ∧
    [15, 12, 13, 14].Nodup := by decide

theorem test_witness_ChachaQuarterRound :
    (List.replicate 16 (1 : Word)).length = 16 ∧ 3 < 16 ∧ 4 < 16 ∧ 9 < 16 ∧ 14 < 16 ∧ [3, 4, 9, 14].Nodup := by
  decide

/-- The first and the last Word, no double round and four. -/
theorem test_witness_CoresAreDoubleRoundsPlusInput :
    (List.replicate 16 (1 : Word)).length = 16 ∧ 0 < 16 ∧ 15 < 16 ∧
    (salsa (List.replicate 16 1) (2 * 0)).length = 16 := by decide

/-- The first and the last step of the chain, the first and the last sub-block of each half. -/
theorem test_witness_BlockMixOutputs :
    1 ≤ 2 ∧ (List.replicate 64 (1 : Word)).length = 32 * 2 ∧ 0 + 1 < 2 * 2 ∧ 2 + 1 < 2 * 2 ∧ 0 < 2 ∧ 1 < 2 ∧
    0 < 2 * 2 ∧ 3 < 2 * 2 ∧ 0 < 16 ∧ 15 < 16 ∧
    (List.replicate 16 (1 : Word)).length = (List.replicate 16 (2 : Word)).length := by decide

theorem test_witness_ShuffleIsItsOwnInverse : 1 ≤ 1 ∧ (List.replicate 32 (1 : Word)).length = 32 * 1 := by decide

theorem test_witness_ShuffledDatapathIsBlockMix :
    1 ≤ 1 ∧ (List.replicate 32 (1 : Word)).length = 32 * 1 := by decide

/-- The least table, one slot. -/
theorem test_witness_FillWritesSuccessiveBlocks : 1 ≤ 1 := by decide

theorem test_witness_GatherFollowsIntegerify : 1 ≤ 2 := by decide

/-- The least and the greatest power of two. -/
theorem test_witness_GatherIndexIsRemainder : 0 < 32 ∧ 31 < 32 := by decide

/-- No byte and one block absorbed before, a block to absorb first, the first and the last byte of a Word. -/
theorem test_witness_Sha256AndHmacFollowTheRules :
    0 % 64 = 0 ∧ 64 % 64 = 0 ∧ (List.replicate 64 (0 : Byte)).length = 64 ∧ 0 < 4 ∧ 3 < 4 := by decide

/-- The single-iteration form and the next one, the longest key, the first and the last index and byte. -/
theorem test_witness_DerivedKeyFollowsTheRule :
    1 ≤ 1 ∧ 1 ≤ 2 ∧ 32 * (2 ^ 32 - 1) ≤ 32 * (2 ^ 32 - 1) ∧ 0 < 2 ^ 32 ∧ 2 ^ 32 - 1 < 2 ^ 32 ∧ 0 < 32 ∧ 31 < 32 := by
  decide

/-- The first and the last index. -/
theorem test_witness_CoinHashIsScrypt : 0 < 2 ^ 32 ∧ 2 ^ 32 - 1 < 2 ^ 32 := by decide

theorem test_witness_ReadOnlyRegisters :
    ∀ off ∈ [0x000, 0x004, 0x008, 0x018, 0x01C],
      (withEvents [.regRead .b32 (State.reset.params.base + off)]).inbox =
        [.regRead .b32 (State.reset.params.base + off)] ∧
      (withEvents [.regWrite .b32 (State.reset.params.base + off) 1]).inbox =
        [.regWrite .b32 (State.reset.params.base + off) 1] ∧
      (withEvents [.regRead .b32 (State.reset.params.base + off)]).status.busy = false := by decide

/-- The first and the last offset of each reserved range. -/
theorem test_witness_ReservedOffsetsAreInert :
    ∀ off ∈ [0x028, 0x03C, 0x070, 0x07C, 0x0C0, 0xFFC], off % 4 = 0 ∧
      ((0x028 ≤ off ∧ off < 0x040) ∨ (0x070 ≤ off ∧ off < 0x080) ∨ (0x0C0 ≤ off ∧ off < 0x1000)) ∧
      (withEvents [.regRead .b32 (State.reset.params.base + off)]).inbox =
        [.regRead .b32 (State.reset.params.base + off)] := by decide

/-- A narrow access, a wide access, and a misaligned access at the end of the block. -/
theorem test_witness_OtherRegisterAccessesAreRefused :
    (0x000 < 4096 ∧ (Width.b8 ≠ .b32 ∨ 0x000 % 4 ≠ 0)) ∧ (0xFFC < 4096 ∧ (Width.b64 ≠ .b32 ∨ 0xFFC % 4 ≠ 0)) ∧
    (0xFFF < 4096 ∧ (Width.b32 ≠ .b32 ∨ 0xFFF % 4 ≠ 0)) ∧
    (withEvents [.regRead .b32 (State.reset.params.base + 0xFFF)]).inbox =
      [.regRead .b32 (State.reset.params.base + 0xFFF)] := by decide

/-- An idle state, and a busy one whose latch decodes. -/
theorem test_witness_StatusReads :
    (withEvents [.regRead .b32 (State.reset.params.base + 0x010)]).inbox =
      [.regRead .b32 (State.reset.params.base + 0x010)] ∧
    (withEvents [.regRead .b32 (State.reset.params.base + 0x010)]).status.busy = false ∧
    (busySalsa []).status.busy = true ∧ decode (busySalsa []).latch.cmd = .ok (.salsaCore 0) := by decide

/-- A write of 1 to `DONE` in a busy state that meets the invariant. -/
theorem test_witness_StatusWriteOneToClear :
    (busyBlk [.regWrite .b32 (State.reset.params.base + 0x010) 2]).inbox =
      [.regWrite .b32 (State.reset.params.base + 0x010) 2] ∧
    (busyBlk [.regWrite .b32 (State.reset.params.base + 0x010) 2]).Inv ∧
    (busyBlk [.regWrite .b32 (State.reset.params.base + 0x010) 2]).status.busy = true ∧
    (2 : Word).getLsbD 3 = false :=
  ⟨rfl, ⟨by decide +kernel, by constructor <;> decide, by constructor <;> decide +kernel,
    fun _ => ⟨rfl, .pbkdf2Blk, by decide, by decide +kernel⟩⟩, rfl, by decide⟩

theorem test_witness_ReadWriteRegistersHoldWrites :
    ∀ off ∈ [0x00C, 0x014, 0x020, 0x024, 0x040 + 4 * 0, 0x040 + 4 * 11],
      (withEvents [.regRead .b32 (State.reset.params.base + off)]).inbox =
        [.regRead .b32 (State.reset.params.base + off)] ∧
      (withEvents [.regWrite .b32 (State.reset.params.base + off) 7]).inbox =
        [.regWrite .b32 (State.reset.params.base + off) 7] := by decide

/-- Reads and writes of the first and the last Word of each pad state, idle and busy. -/
theorem test_witness_PadRegistersAnswerAndHoldWhileIdle :
    ∀ off ∈ [0x080 + 4 * 0, 0x080 + 4 * 7, 0x0A0 + 4 * 0, 0x0A0 + 4 * 7],
      (withEvents [.regRead .b32 (State.reset.params.base + off)]).inbox =
        [.regRead .b32 (State.reset.params.base + off)] ∧
      (withEvents [.regRead .b32 (State.reset.params.base + off)]).status.busy = false ∧
      (busySalsa [.regWrite .b32 (State.reset.params.base + off) 7]).inbox =
        [.regWrite .b32 (State.reset.params.base + off) 7] ∧
      (busySalsa [.regWrite .b32 (State.reset.params.base + off) 7]).status.busy = true := by decide

/-- The host reads back the pad state it wrote, and not the other one. -/
theorem test_pad_registers_apart :
    after (step (withEvents [.regWrite .b32 (State.reset.params.base + 0x09C) 7])) (fun t =>
      (readReg t (Reg.ofOffset 0x09C), readReg t (Reg.ofOffset 0x0BC))) = some (7, 0) := by decide +kernel

/-- The last Word and the last byte of DMEM. -/
theorem test_witness_DmemPortStoresWords :
    let s := withEvents [.dmemWrite .b32 0xFFFFFC 7, .dmemRead .b32 0xFFFFFC]
    s.status.busy = false ∧ 0xFFFFFC % 4 = 0 ∧ 0xFFFFFC + 4 ≤ s.params.memSize ∧ 0xFFFFFF < s.params.memSize ∧
    s.inbox = [.dmemWrite .b32 0xFFFFFC 7, .dmemRead .b32 0xFFFFFC] ∧
    (withEvents [.dmemRead .b32 0xFFFFFC]).inbox = [.dmemRead .b32 0xFFFFFC] ∧
    (withEvents [.dmemWrite .b8 0xFFFFFF 7]).inbox = [.dmemWrite .b8 0xFFFFFF 7] ∧
    (withEvents [.dmemRead .b8 0xFFFFFF]).inbox = [.dmemRead .b8 0xFFFFFF] := by decide

/-- A misaligned access, and the first address past DMEM. -/
theorem test_witness_BadDmemAccessesAreRefused :
    ((Width.b32 = .b32 ∧ 2 % 4 ≠ 0) ∨ State.reset.params.memSize ≤ 2) ∧
    ((Width.b8 = .b32 ∧ 0x1000000 % 4 ≠ 0) ∨ State.reset.params.memSize ≤ 0x1000000) ∧
    (withEvents [.dmemRead .b8 0x1000000]).inbox = [.dmemRead .b8 0x1000000] := by decide

/-- Bytes and Words at the two ends of the input and the result of `SALSA.CORE`, and next to them. -/
theorem test_witness_FootprintIsOwnedWhileBusy :
    let s := busySalsa [.dmemWrite .b8 0x13F 1]
    s.status.busy = true ∧ decode s.latch.cmd = .ok (.salsaCore 0) ∧ s.inbox = [.dmemWrite .b8 0x13F 1] ∧
    (busySalsa [.dmemRead .b8 0x13F]).inbox = [.dmemRead .b8 0x13F] ∧
    (busySalsa [.dmemWrite .b32 0x13C 1]).inbox = [.dmemWrite .b32 0x13C 1] ∧
    (busySalsa [.dmemRead .b32 0x13C]).inbox = [.dmemRead .b32 0x13C] ∧
    (∀ a ∈ [0x100, 0x13C, 0x200, 0x23C],
      a % 4 = 0 ∧ a + 4 ≤ s.params.memSize ∧ ∃ k < 4, FootprintByte (.salsaCore 0) s.latch (a + k)) ∧
    (∀ a ∈ [0x100, 0x13F, 0x200, 0x23F], a < s.params.memSize ∧ FootprintByte (.salsaCore 0) s.latch a) ∧
    (∀ a ∈ [0x0FF, 0x140, 0x1FF, 0x240], a < s.params.memSize ∧ ¬ FootprintByte (.salsaCore 0) s.latch a) ∧
    (∀ a ∈ [0x0FC, 0x140, 0x1FC, 0x240],
      a % 4 = 0 ∧ a + 4 ≤ s.params.memSize ∧ ∀ k < 4, ¬ FootprintByte (.salsaCore 0) s.latch (a + k)) ∧
    ∀ a ∈ [0x100, 0x13F, 0x1FF, 0x240], ¬ OutputByte (.salsaCore 0) s.latch a := by
  simp only [FootprintByte, InputByte, OutputByte, Inside]
  decide +kernel

theorem test_witness_SnapshotIsStableWhileBusy :
    ∃ t, (busySalsa [issue 5]).status.busy = true ∧ step (busySalsa [issue 5]) = .next t ∧ t.status.busy = true :=
  ⟨_, rfl, rfl, rfl⟩

theorem test_witness_IrqIsTheDoneLevel :
    (∃ t, (busyBlk []).status.busy = true ∧ exec .pbkdf2Blk (busyBlk []) = .next t) ∧
    (∃ t, (withEvents [issue 6]).status.busy = false ∧ (withEvents [issue 6]).inbox = [issue 6] ∧
      step (withEvents [issue 6]) = .next t) ∧
    (∃ t, (2 : Word).getLsbD 1 = true ∧
      step (withEvents [.regWrite .b32 (State.reset.params.base + 0x010) 2]) = .next t) ∧
    (∃ t, let s := { withEvents [.regWrite .b32 (State.reset.params.base + 0x00C) 1] with
            status := { Status.atReset with done := true } }
      (1 : Word).getLsbD 0 = true ∧ s.status.done = true ∧ step s = .next t) ∧
    ∃ t, (withEvents [.reset]).inbox = [.reset] ∧ step (withEvents [.reset]) = .next t :=
  ⟨⟨_, rfl, rfl⟩, ⟨_, rfl, rfl, rfl⟩, ⟨_, rfl, rfl⟩, ⟨_, rfl, rfl, rfl⟩, ⟨_, rfl, rfl⟩⟩

/-- An idle state, and a busy one with an input byte that the command may not write. -/
theorem test_witness_ResetSetsRegistersAndKeepsDmem :
    (withEvents [.reset]).inbox = [.reset] ∧ (withEvents [.reset]).status.busy = false ∧
    (busySalsa [.reset]).inbox = [.reset] ∧ (busySalsa [.reset]).status.busy = true ∧
    decode (busySalsa [.reset]).latch.cmd = .ok (.salsaCore 0) ∧
    (operandTable (.salsaCore 0) (busySalsa [.reset]).latch).mayWrite 0x100 = false := by decide +kernel

/-- A busy state that meets the invariant. -/
theorem busyBlk_inv : (busyBlk []).Inv :=
  ⟨by decide +kernel, by constructor <;> decide, by constructor <;> decide +kernel,
    fun _ => ⟨rfl, .pbkdf2Blk, by decide, by decide +kernel⟩⟩

theorem test_witness_StepKeepsInvariant : (busyBlk []).Inv ∧ ∃ t, step (busyBlk []) = .next t :=
  ⟨busyBlk_inv, _, rfl⟩

theorem test_witness_AcceptedCommandsComplete :
    (busyBlk []).Inv ∧ (busyBlk []).status.busy = true ∧ (busyBlk []).inbox = [] := ⟨busyBlk_inv, rfl, rfl⟩

theorem test_witness_CommandsWriteOnlyTheirFootprint :
    (busySalsa []).status.busy = true ∧ ¬ OutputByte (.salsaCore 0) (busySalsa []).latch 0x240 ∧
    OutputByte (.salsaCore 0) (busySalsa []).latch 0x23F := by
  simp only [OutputByte, Inside]
  decide +kernel

/-- Two states with the same latches, pad states and input bytes, whose other bytes differ. -/
theorem test_witness_ResultsDependOnInputsAlone :
    let s := busySalsa []
    let s' := { busySalsa [] with mem := cellsFrom 0x100 (bytesI41 ++ [1, 2]) }
    s.status.busy = true ∧ s'.status.busy = true ∧ s'.latch = s.latch ∧ s'.ist = s.ist ∧ s'.ost = s.ost ∧
    check s.params s.latch (operandTable (.salsaCore 0) s.latch) = none ∧
    (∀ r ∈ (operandTable (.salsaCore 0) s.latch).regions, r.use = .input →
      ∀ a, r.has a = true → byteAt s'.mem a = byteAt s.mem a) := by
  refine ⟨rfl, rfl, rfl, rfl, rfl, by decide +kernel, ?_⟩
  intro r hr hu a ha
  have hs : ∀ k < 64, byteAt (cellsFrom 0x100 (bytesI41 ++ [1, 2])) (0x100 + k) =
      byteAt (cellsFrom 0x100 bytesI41) (0x100 + k) := by decide +kernel
  rcases List.mem_cons.mp hr with rfl | hr
  · have hb : 0x100 ≤ a ∧ a < 0x100 + 64 := by
      rw [Region.has, Bool.and_eq_true, decide_eq_true_eq, decide_eq_true_eq] at ha
      exact ha
    have := hs (a - 0x100) (by omega)
    rwa [Nat.add_sub_cancel' hb.1] at this
  · rw [List.mem_singleton.mp hr] at hu
    cases hu

theorem test_witness_DatapathIsNotObservable : ∃ t, exec .pbkdf2Blk (busyBlk []) = .next t := ⟨_, rfl⟩

/-! ### One step of each command: completion against the vectors of 95_test_vectors.md -/

/-- V41-1, result Words 0 and 15. -/
theorem test_salsaCore_V41_1 :
    after (exec (.salsaCore 0) (busyWith (latched 0x001 [0x100, 0x200]) (cellsFrom 0x100 bytesI41)))
      (fun t => (wordAt t.mem 0x200, wordAt t.mem 0x23C, t.status.word)) =
      some (0x9c851fa4, 0x818f61c7, 0x0000F002) := by decide +kernel

/-- V41-4, `R = 2`, in place: result Word 1. -/
theorem test_chachaCore_V41_4 :
    after (exec (.chachaCore 2) (busyWith (latched 0x901 [0x100, 0x100]) (cellsFrom 0x100 bytesI41)))
      (fun t => wordAt t.mem 0x104) = some 0x9d376032 := by decide +kernel

/-- V42-1, result bytes 0 to 3 and 64 to 67. -/
theorem test_blockmixS_V42_1 :
    after (exec (.blockmixS 0) (busyWith (latched 0x002 [0x100, 0x200, 1]) (cellsFrom 0x100 bytesB42)))
      (fun t => memRead t.mem 0x200 4 ++ memRead t.mem 0x240 4) =
      some (hexBytes 4 0xa41f859c ++ hexBytes 4 0x20edc975) := by decide +kernel

/-- V42-2, result Words 0 and 16. -/
theorem test_blockmixC_V42_2 :
    after (exec (.blockmixC 0) (busyWith (latched 0x102 [0x100, 0x200, 1]) (cellsFrom 0x100 bytesB42)))
      (fun t => (wordAt t.mem 0x200, wordAt t.mem 0x240)) = some (0xbe391734, 0xbfa2ad2c) := by decide +kernel

/-- V42-3: result Words 1, 4 and 17. -/
theorem test_shuffle_V42_3 :
    after (exec .shuffle (busyWith (latched 0x003 [0x100, 0x200, 1]) (cellsFrom 0x100 countingBlock)))
      (fun t => (wordAt t.mem 0x204, wordAt t.mem 0x210, wordAt t.mem 0x244)) = some (5, 12, 21) := by
  decide +kernel

/-- V42-3: `UNSHUFFLE` of the counting Block gives what `SHUFFLE` gives. -/
theorem test_unshuffle_V42_3 :
    after (exec .unshuffle (busyWith (latched 0x004 [0x100, 0x200, 1]) (cellsFrom 0x100 countingBlock)))
      (fun t => (wordAt t.mem 0x208, wordAt t.mem 0x23C, wordAt t.mem 0x240)) = some (10, 3, 16) := by
  decide +kernel

/-- V42-4: Word `k` is `0xFFFFFFFF − k`. -/
theorem test_blkxor_V42_4 :
    after (exec .blkxor (busyWith (latched 0x005 [0x100, 0x180, 1, 0x200])
        (cellsFrom 0x100 (countingBlock ++ List.replicate 128 0xff))))
      (fun t => (wordAt t.mem 0x200, wordAt t.mem 0x27C)) = some (0xffffffff, 0xffffffe0) := by decide +kernel

/-- V43-2, `N = 1`: result bytes 0 to 3, the first bytes of slot 0, `ITER` and `JIDX`. -/
theorem test_romixS_V43_2 :
    after (exec (.romixS 0) (busyWith (latched 0x008 [0x100, 0x200, 1, 1]) (cellsFrom 0x100 bytesB42)))
      (fun t => (memRead t.mem 0x200 4 ++ memRead t.mem 0x10000 4, t.iter, t.jidx)) =
      some (hexBytes 4 0xd297dfe8 ++ hexBytes 4 0xf7ce0b65, 0, 0) := by decide +kernel

/-- V43-4, `N = 2`: the first bytes of slot 1. -/
theorem test_romixC_V43_4 :
    after (exec (.romixC 0) (busyWith (latched 0x108 [0x100, 0x200, 1, 2]) (cellsFrom 0x100 bytesB42)))
      (fun t => memRead t.mem 0x10080 4) = some (hexBytes 4 0x341739be) := by decide +kernel

/-- V43-5, `N = 2`: result bytes 0 to 3 and the first bytes of the second slot of each table. -/
theorem test_romix2_V43_5 :
    after (exec (.romix2 0) (busyWith (latched 0x009 [0x100, 0x200, 1, 2]) (cellsFrom 0x100 bytesB42)))
      (fun t => memRead t.mem 0x200 4 ++ memRead t.mem 0x10080 4 ++ memRead t.mem 0x10180 4) =
      some (hexBytes 4 0x28422ee6 ++ hexBytes 4 0xa41f859c ++ hexBytes 4 0x341739be) := by decide +kernel

/-- R27, R28 of 10_state.md: `HMAC.INIT` leaves `ITER` and `JIDX` 0. -/
theorem test_hmacInit_progress :
    after (exec .hmacInit { busyWith (latched 0x010 [0x1000, 6]) with iter := 7, jidx := 9 })
      (fun t => (t.iter, t.jidx, t.status.busy, t.status.done)) = some (0, 0, false, true) := by decide +kernel

/-- R33 of 10_state.md: `PBKDF2.BLK` reads the pad states and leaves them. -/
theorem test_pbkdf2Blk_keeps_pads :
    after (exec .pbkdf2Blk { busyWith (latched 0x011 [0x1000, 4, 1, 0x2000]) with ist := Vector.replicate 8 5 })
      (fun t => (t.ist[7], t.iter, t.status.done)) = some (5, 0, true) := by decide +kernel

theorem test_pbkdf2_progress :
    after (exec .pbkdf2 { busyWith (latched 0x012 [0x1000, 6, 0x1100, 4, 1, 0x2000, 64]) with iter := 7 })
      (fun t => (t.iter, t.jidx, t.status.done)) = some (0, 0, true) := by decide +kernel

/-- R27 of 10_state.md: `ITER` is `N − 1`. -/
theorem test_scrypt_iter :
    after (exec .scrypt (busyWith (latched 0x020 [0x1000, 6, 0x1100, 4, 16, 1, 1, 0x2000, 64])))
      (fun t => (t.iter, t.status.done)) = some (15, true) := by decide +kernel

theorem test_powhash_iter :
    after (exec .powhash (busyWith (latched 0x021 [0x1000, 80, 0x2000])))
      (fun t => (t.iter, t.status.done)) = some (1023, true) := by decide +kernel

theorem test_powhash3_iter :
    after (exec .powhash3 (busyWith (latched 0x022 [0x1000, 80, 0x2000])))
      (fun t => (t.iter, t.status.done)) = some (1023, true) := by decide +kernel

theorem test_powhash4_iter :
    after (exec .powhash4 (busyWith (latched 0x023 [0x1000, 80, 0x2000])))
      (fun t => (t.iter, t.status.done)) = some (1023, true) := by decide +kernel

/-! ### The constructions of 44_pbkdf2.md

A compression function to run the constructions of 44_pbkdf2.md with: that of FIPS 180-4, which the spec
names for its vectors (95_test_vectors.md, conventions). The model itself uses the opaque
`Config.sha256Compress`. -/

/-- The primes below 312, the first 64: a number below 18² is prime where no smaller number up to 17 divides it. -/
def primes64 : List Nat :=
  (List.range 312).filter fun n => 2 ≤ n && (List.range 18).all fun d => d < 2 || n ≤ d || n % d != 0

/-- The greatest `r` below `2^n` with `r³ ≤ v`, found bit by bit from the top. -/
def cubeRoot (n v : Nat) : Nat :=
  (List.range n).foldl (fun r k => if (r + 2 ^ (n - 1 - k)) ^ 3 ≤ v then r + 2 ^ (n - 1 - k) else r) 0

/-- The round constants: the first 32 fractional bits of the cube roots of the first 64 primes. -/
def roundConstants : List Word := primes64.map fun p => BitVec.ofNat 32 (cubeRoot 35 (p * 2 ^ 96))

/-- The message schedule, newest Word first. -/
def schedule : Nat → List Word → List Word
  | 0, w => w
  | n + 1, w =>
    let s0 := rotl (nth w 14) 25 ^^^ rotl (nth w 14) 14 ^^^ (nth w 14 >>> 3)
    let s1 := rotl (nth w 1) 15 ^^^ rotl (nth w 1) 13 ^^^ (nth w 1 >>> 10)
    schedule n ((nth w 15 + s0 + nth w 6 + s1) :: w)

/-- The rounds, each with its constant and its schedule Word. -/
def rounds64 : List (Word × Word) → List Word → List Word
  | (k, w) :: kw, [a, b, c, d, e, f, g, h] =>
    let t1 := h + (rotl e 26 ^^^ rotl e 21 ^^^ rotl e 7) + ((e &&& f) ^^^ (~~~e &&& g)) + k + w
    let t2 := (rotl a 30 ^^^ rotl a 19 ^^^ rotl a 10) + ((a &&& b) ^^^ (a &&& c) ^^^ (b &&& c))
    rounds64 kw [t1 + t2, a, b, c, d + t1, e, f, g]
  | _, x => x

/-- The FIPS 180-4 compression function. -/
def fips : Compress := fun H m =>
  let ws := (List.range 16).map fun i =>
    le32 (m.toList.getD (4 * i + 3) 0) (m.toList.getD (4 * i + 2) 0) (m.toList.getD (4 * i + 1) 0)
      (m.toList.getD (4 * i) 0)
  let x := addWords (rounds64 (roundConstants.zip (schedule 48 ws.reverse).reverse) H.toList) H.toList
  #v[nth x 0, nth x 1, nth x 2, nth x 3, nth x 4, nth x 5, nth x 6, nth x 7]

/-- The string `"passwd"`. -/
def passwd : List Byte := [0x70, 0x61, 0x73, 0x73, 0x77, 0x64]

/-- The string `"salt"`. -/
def salt : List Byte := [0x73, 0x61, 0x6c, 0x74]

/-- V44-1: `SHA256("abc")`, its first 4 bytes. -/
theorem test_sha256_abc : (sha256 fips [0x61, 0x62, 0x63]).take 4 = hexBytes 4 0xba7816bf := by decide +kernel

/-- V44-2: `IST0` and `OST7` of `HMAC.INIT` with the key `"passwd"`. -/
theorem test_hmacInit_V44_2 :
    (hmacInner fips passwd)[0] = 0xbb7dcf14 ∧ (hmacOuter fips passwd)[7] = 0xce1389a8 := by decide +kernel

/-- V44-3: `PBKDF2.BLK` at index 2, the first 4 bytes. -/
theorem test_pbkdf2Blk_V44_3 :
    (pbkdf2Block fips (hmacInner fips passwd) (hmacOuter fips passwd) salt 2).take 4 = hexBytes 4 0x49ca9ccc := by
  decide +kernel

/-- V44-4, its first 4 bytes, as a key of 4 bytes. -/
theorem test_pbkdf2_V44_4 : pbkdf2 fips passwd salt 1 4 = hexBytes 4 0x55ac046e := by decide +kernel

end Sys2Proof.Tests
end

section
/-! The scope statements (00_scope.md): the reset state meets the invariant, and no command's step reads which
datapaths are present or permitted (R10). -/

namespace Sys2Proof.Machine

/-- The reset value of `STATUS` (10_state.md R41) is one the rules can leave. -/
theorem Status.ok_atReset : Status.atReset.Ok where
  busy_quiet := by decide
  code_le := by decide
  arg_ne := by decide
  no_error := fun _ => rfl
  idle_phase := fun _ => ⟨rfl, rfl⟩

/-- Nothing has been written at power-up, so no byte lies outside DMEM (70_reset_and_hazards.md R231). -/
theorem memoryOk_reset : MemoryOk State.reset.params State.reset.mem where
  wf := reset_mem_wf
  inside := fun _ hc => absurd hc List.not_mem_nil

/-- `s` with other datapaths present, permitted and latched as permitted (00_scope.md R10): `CAP_SIMD`,
`CAP_BATCH3`, `CAP_BATCH4`, `CTRL.ACCEL_EN` and `LACCEL`. -/
def State.withDatapath (simd b3 b4 accel : Bool) (s : State) : State :=
  { s with
    params := { s.params with capSimd := simd, capBatch3 := b3, capBatch4 := b4 }
    ctrl := { s.ctrl with accelEn := accel }
    latch := { s.latch with accel := accel } }

section
variable (simd b3 b4 accel : Bool) (s : State) (i : Instr)

@[simp] theorem withDatapath_status : (s.withDatapath simd b3 b4 accel).status = s.status := rfl
@[simp] theorem withDatapath_cmd : (s.withDatapath simd b3 b4 accel).cmd = s.cmd := rfl
@[simp] theorem withDatapath_args : (s.withDatapath simd b3 b4 accel).args = s.args := rfl
@[simp] theorem withDatapath_ist : (s.withDatapath simd b3 b4 accel).ist = s.ist := rfl
@[simp] theorem withDatapath_ost : (s.withDatapath simd b3 b4 accel).ost = s.ost := rfl
@[simp] theorem withDatapath_iter : (s.withDatapath simd b3 b4 accel).iter = s.iter := rfl
@[simp] theorem withDatapath_jidx : (s.withDatapath simd b3 b4 accel).jidx = s.jidx := rfl
@[simp] theorem withDatapath_mem : (s.withDatapath simd b3 b4 accel).mem = s.mem := rfl

/-- No operand table reads `LACCEL`. -/
@[simp] theorem operandTable_withDatapath :
    operandTable i (s.withDatapath simd b3 b4 accel).latch = operandTable i s.latch := by
  cases i <;> rfl

/-- No check reads the datapath: of the parameters the checks use `MEM_SIZE` and `R_MAX` alone. -/
@[simp] theorem check_withDatapath (t : OperandTable) :
    check (s.withDatapath simd b3 b4 accel).params (s.withDatapath simd b3 b4 accel).latch t =
      check s.params s.latch t := rfl

/-- No command's results depend on the datapath. -/
@[simp] theorem resultsOf_withDatapath : resultsOf i (s.withDatapath simd b3 b4 accel) = resultsOf i s := by
  cases i <;> rfl

end

end Sys2Proof.Machine

namespace Sys2Proof.Proofs

open Sys2Proof.Machine

/-- Settles O55: each part of the invariant at reset; nothing is asked of the latch, for no command executes. -/
theorem invariantAtReset : Obligations.InvariantAtReset where
  params := by decide
  status := Status.ok_atReset
  memory := memoryOk_reset
  busy := fun hb => absurd hb Bool.false_ne_true

/-- Settles O60, by the three things a command's step can do (`exec_cases`): the datapath is not read by the
results a completion writes, nor by the checks that choose between the error end and the start. -/
theorem datapathIsNotObservable : Obligations.DatapathIsNotObservable := by
  intro i s t simd b3 b4 accel ht
  change ∃ t', exec i (s.withDatapath simd b3 b4 accel) = .next t' ∧ _
  rcases exec_cases i s with ⟨hb, hx⟩ | ⟨hb, e, hc, hx⟩ | ⟨hb, hw, hc, hx⟩
  · obtain rfl : complete (resultsOf i s) s = t := Host.Outcome.next.inj (hx.symm.trans ht)
    refine ⟨_, exec_busy i (by simpa using hb), ?_⟩
    simp
  · obtain rfl : errorEnd e s = t := Host.Outcome.next.inj (hx.symm.trans ht)
    refine ⟨_, exec_error (by simpa using hb) (by simpa using hc), ?_⟩
    simp
  · obtain rfl : beginExec s = t := Host.Outcome.next.inj (hx.symm.trans ht)
    refine ⟨_, exec_accepted (by simpa using hb) (by simpa [checkRounds, hw] using hc), ?_⟩
    simp

end Sys2Proof.Proofs
end

section
/-! What one step of the machine can do, as one relation on states: every statement about two successive states
is a case split on it. -/

namespace Sys2Proof.Machine

open Sys2Proof.Spec

section
variable (s : State) (rest : List Event) (v : Word) (r : Reg)

@[simp] theorem pop_params : (pop s rest).params = s.params := rfl
@[simp] theorem pop_ctrl : (pop s rest).ctrl = s.ctrl := rfl
@[simp] theorem pop_status : (pop s rest).status = s.status := rfl
@[simp] theorem pop_cmd : (pop s rest).cmd = s.cmd := rfl
@[simp] theorem pop_iter : (pop s rest).iter = s.iter := rfl
@[simp] theorem pop_jidx : (pop s rest).jidx = s.jidx := rfl
@[simp] theorem pop_scratchBase : (pop s rest).scratchBase = s.scratchBase := rfl
@[simp] theorem pop_scratchLimit : (pop s rest).scratchLimit = s.scratchLimit := rfl
@[simp] theorem pop_args : (pop s rest).args = s.args := rfl
@[simp] theorem pop_ist : (pop s rest).ist = s.ist := rfl
@[simp] theorem pop_ost : (pop s rest).ost = s.ost := rfl
@[simp] theorem pop_latch : (pop s rest).latch = s.latch := rfl
@[simp] theorem pop_mem : (pop s rest).mem = s.mem := rfl
@[simp] theorem pop_draws : (pop s rest).draws = s.draws := rfl
@[simp] theorem pop_inbox : (pop s rest).inbox = rest := rfl
@[simp] theorem pop_replies : (pop s rest).replies = s.replies := rfl
@[simp] theorem executing_pop : executing (pop s rest) = executing s := rfl
@[simp] theorem activeTable_pop : activeTable (pop s rest) = activeTable s := rfl

/-- The command the latch holds is the one its word decodes to. -/
theorem executing_eq_some {s : State} {i : Instr} : executing s = some i ↔ decode s.latch.cmd = .ok i := by
  unfold executing
  cases decode s.latch.cmd <;> simp

/-- Of all registers only `STATUS` changes `STATUS` when written (10_state.md R26). -/
theorem writeReg_status : (writeReg r v s).status = if r = .status then s.status.write v else s.status := by
  cases r with
  | ist i => simp only [writeReg]; split <;> rfl
  | ost i => simp only [writeReg]; split <;> rfl
  | _ => rfl

@[simp] theorem Status.write_busy (st : Status) : (st.write v).busy = st.busy := rfl

/-- No host write to a register but `CMD` changes `BUSY`. -/
@[simp] theorem writeReg_busy : (writeReg r v s).status.busy = s.status.busy := by
  rw [writeReg_status]; split <;> rfl

/-- While busy a host write to `IST` is ignored (10_state.md R33). -/
theorem writeReg_ist_of_busy (h : s.status.busy = true) : (writeReg r v s).ist = s.ist := by
  cases r with
  | ist i => rw [writeReg, if_pos h]
  | ost i => rw [writeReg, if_pos h]
  | _ => rfl

/-- While busy a host write to `OST` is ignored (10_state.md R33). -/
theorem writeReg_ost_of_busy (h : s.status.busy = true) : (writeReg r v s).ost = s.ost := by
  cases r with
  | ist i => rw [writeReg, if_pos h]
  | ost i => rw [writeReg, if_pos h]
  | _ => rfl

end

/-- The error a `CMD` write of `w` in `s` can end with: the decoder's, which names no register, or that of the first
check the decoded command fails (40_command_protocol.md R92, R94). -/
def EndsWith (s : State) (w : Word) (e : CmdError) : Prop :=
  e.arg = noArg ∨ ∃ i, check s.params (latchCommand w s).latch (operandTable i (latchCommand w s).latch) = some e

/-- The states in which the CORE has its turn in a step from `s` (log 1): at the CORE event, when the inbox is empty,
and at a `wait` with no poll left, which stays in the inbox. -/
inductive CoreTurnIn (s : State) : State → Prop
  | atEvent (rest : List Event) : s.inbox = .core :: rest → CoreTurnIn s (pop s rest)
  | atEmpty : s.inbox = [] → CoreTurnIn s s
  | atWait (rest : List Event) : s.inbox = .wait 0 :: rest → CoreTurnIn s s

/-- Everything a step from `s` to a next state can be. -/
inductive Transition (s : State) : State → Prop
  /-- A host read answers. -/
  | answered (v : Word) (inbox : List Event) : Transition s (reply v (pop s inbox))
  /-- A host write to a register other than `CMD`. -/
  | regWritten (r : Reg) (v : Word) (rest : List Event) : Transition s (writeReg r v (pop s rest))
  /-- A `CMD` write while busy (40_command_protocol.md R91). -/
  | dropped (rest : List Event) : s.status.busy = true → Transition s (overrun (pop s rest))
  /-- A `CMD` write that ends with an error (60_exceptions.md R201). -/
  | ended (w : Word) (e : CmdError) (rest : List Event) : s.status.busy = false → EndsWith s w e →
      Transition s (errorEnd e (latchCommand w (pop s rest)))
  /-- A `CMD` write that starts a command (40_command_protocol.md R93). -/
  | started (w : Word) (i : Instr) (rest : List Event) : s.status.busy = false →
      s.inbox = .regWrite .b32 (s.params.base + 0x014) w :: rest → decode w = .ok i →
      check s.params (latchCommand w s).latch (operandTable i (latchCommand w s).latch) = none →
      Transition s (beginExec (latchCommand w (pop s rest)))
  /-- A host write to DMEM outside the executing command's footprint (20_memory.md R51, R58). -/
  | stored (addr : Nat) (bs : List Byte) (rest : List Event) : addr + bs.length ≤ s.params.memSize →
      (∀ k < bs.length, (activeTable s).inFootprint (addr + k) = false) →
      Transition s { pop s rest with mem := memWrite s.mem addr bs }
  /-- The reset input (70_reset_and_hazards.md R230). -/
  | wasReset (rest : List Event) : s.inbox = .reset :: rest → Transition s (resetCore (pop s rest))
  /-- The CORE completes the latched command (40_command_protocol.md R96). -/
  | completed (u : State) (i : Instr) : CoreTurnIn s u → s.status.busy = true → decode s.latch.cmd = .ok i →
      Transition s (complete (resultsOf i u) u)
  /-- The CORE's turn while idle (60_exceptions.md R218). -/
  | idled (inbox : List Event) : s.status.busy = false → Transition s (pop s inbox)

/-- A step with an event waiting is that event's step. -/
theorem step_eq_runEvent {s : State} {e : Event} {rest : List Event} (h : s.inbox = e :: rest) :
    step s = runEvent e (pop s rest) := by
  simp only [step, nextStep, h]
  rfl

/-- The CORE's turn is taken in a state that differs from `s` in the inbox alone. -/
theorem CoreTurnIn.eq_pop {s u : State} (h : CoreTurnIn s u) : ∃ inbox, u = pop s inbox := by
  cases h with
  | atEvent rest _ => exact ⟨rest, rfl⟩
  | atEmpty _ => exact ⟨s.inbox, rfl⟩
  | atWait rest _ => exact ⟨s.inbox, rfl⟩

/-- A step of `wait` is the CORE's turn only where no poll is left (30_encoding.md R80; log 1). -/
theorem waitStep_turn_or_reply (polls : Nat) (s : State) :
    (polls = 0 ∧ waitStep polls s = coreTurn { s with inbox := .wait 0 :: s.inbox }) ∨
    ∃ v inbox, waitStep polls s = .next (reply v (pop s inbox)) := by
  rcases waitStep_cases polls s with ⟨_, hturn⟩ | hreply
  · cases polls with
    | zero => exact .inl ⟨rfl, hturn⟩
    | succ n =>
      right
      simp only [waitStep, Nat.succ_ne_zero, beq_iff_eq, Bool.and_eq_true, and_false, if_false]
      split
      · exact ⟨_, s.inbox, rfl⟩
      · exact ⟨_, _, rfl⟩
  · exact .inr hreply

section
variable {s t : State} {rest : List Event}

theorem transition_of_coreTurn {u : State} (hu : CoreTurnIn s u) (h : coreTurn u = .next t) : Transition s t := by
  obtain ⟨inbox, rfl⟩ := hu.eq_pop
  rcases coreTurn_cases (pop s inbox) with ⟨hb, hx⟩ | ⟨_, _, hx⟩ | ⟨hb, i, hi, hx⟩
  · obtain rfl := Host.Outcome.next.inj (hx.symm.trans h)
    exact .idled inbox hb
  · rw [hx] at h; cases h
  · obtain rfl := Host.Outcome.next.inj (hx.symm.trans h)
    exact .completed _ i hu hb (executing_eq_some.mp hi)

/-- An error of `exec`'s checks is one a `CMD` write can end with. -/
theorem endsWith_of_checks {w : Word} {i : Instr} {e : CmdError}
    (h : (checkRounds i <|> check s.params (latchCommand w s).latch (operandTable i (latchCommand w s).latch)) = some e) :
    EndsWith s w e := by
  cases hr : checkRounds i with
  | none => rw [hr] at h; exact .inr ⟨i, h⟩
  | some r =>
    obtain rfl : r = e := by rw [hr] at h; exact Option.some.inj h
    unfold checkRounds at hr
    split at hr
    · cases hr
    · exact .inl (by rw [← Option.some.inj hr])

theorem transition_of_issueCommand {w : Word}
    (hin : s.inbox = .regWrite .b32 (s.params.base + 0x014) w :: rest)
    (h : issueCommand w (pop s rest) = .next t) : Transition s t := by
  rcases issueCommand_cases w (pop s rest) with ⟨hb, hx⟩ | ⟨hb, e, _, hx⟩ | ⟨hb, i, hd, hx⟩
  · obtain rfl := Host.Outcome.next.inj (hx.symm.trans h)
    exact .dropped rest hb
  · obtain rfl := Host.Outcome.next.inj (hx.symm.trans h)
    exact .ended w _ rest hb (.inl rfl)
  · rw [hx] at h
    rcases exec_cases i (latchCommand w (pop s rest)) with ⟨hbusy, _⟩ | ⟨_, e, hc, hx⟩ | ⟨_, _, hc, hx⟩
    · exact absurd (hb.symm.trans hbusy) Bool.false_ne_true
    · obtain rfl := Host.Outcome.next.inj (hx.symm.trans h)
      exact .ended w e rest hb (endsWith_of_checks hc)
    · obtain rfl := Host.Outcome.next.inj (hx.symm.trans h)
      exact .started w i rest hb hin hd hc

theorem transition_of_hostRegWrite {w : Width} {addr : Nat} {v : Word} (hin : s.inbox = .regWrite w addr v :: rest)
    (h : hostRegWrite w addr v (pop s rest) = .next t) : Transition s t := by
  rcases hostRegWrite_cases w addr v (pop s rest) with ⟨e, hx⟩ | ⟨rfl, rfl, hx⟩ | ⟨r, _, hx⟩
  · rw [hx] at h; cases h
  · exact transition_of_issueCommand hin (hx.symm.trans h)
  · obtain rfl := Host.Outcome.next.inj (hx.symm.trans h)
    exact .regWritten r v rest

theorem transition_of_hostRegRead {w : Width} {addr : Nat} (h : hostRegRead w addr (pop s rest) = .next t) :
    Transition s t := by
  unfold hostRegRead at h
  split at h
  · cases h
  · obtain rfl := Host.Outcome.next.inj h
    exact .answered _ rest

theorem transition_of_hostDmemWrite {w : Width} {addr : Nat} {v : Word}
    (h : hostDmemWrite w addr v (pop s rest) = .next t) : Transition s t := by
  obtain ⟨n, _, hn, hle, hfree, rfl⟩ := hostDmemWrite_cases h
  have hlen : ((toLE v).take n).length = n := by simp [hn]
  exact .stored addr _ rest (by rwa [hlen]) (by rwa [hlen])

theorem transition_of_waitStep {polls : Nat} (hin : s.inbox = .wait polls :: rest)
    (h : waitStep polls (pop s rest) = .next t) : Transition s t := by
  rcases waitStep_turn_or_reply polls (pop s rest) with ⟨rfl, hx⟩ | ⟨v, inbox, hx⟩
  · refine transition_of_coreTurn (.atWait rest hin) (u := s) ?_
    have hs : { pop s rest with inbox := .wait 0 :: rest } = s := by rw [← hin]; rfl
    rw [← h, hx, pop_inbox, hs]
  · obtain rfl := Host.Outcome.next.inj (hx.symm.trans h)
    exact .answered v inbox

/-- Every step is one of the transitions. -/
theorem step_transition (h : step s = .next t) : Transition s t := by
  cases hin : s.inbox with
  | nil =>
    simp only [step, nextStep, hin] at h
    exact transition_of_coreTurn (.atEmpty hin) h
  | cons e rest =>
    rw [step_eq_runEvent hin] at h
    cases e with
    | regRead w addr => exact transition_of_hostRegRead h
    | regWrite w addr v => exact transition_of_hostRegWrite hin h
    | dmemRead w addr =>
      obtain ⟨v, rfl⟩ := hostDmemRead_cases h
      exact .answered v rest
    | dmemWrite w addr v => exact transition_of_hostDmemWrite h
    | wait polls => exact transition_of_waitStep hin h
    | reset =>
      obtain rfl := Host.Outcome.next.inj h
      exact .wasReset rest hin
    | core => exact transition_of_coreTurn (.atEvent rest hin) h

end

end Sys2Proof.Machine
end

section
/-! The invariant (Safety.lean) over every transition: what the errors of a command may name, where its writes
lie, and the parts of the invariant one by one. -/

namespace Sys2Proof.Machine

open Sys2Proof.Spec

/-! ### `ERRARG` is never 14 (60_exceptions.md R200) -/

/-- The error, where there is one, names a register or none. -/
def NamesRegister (o : Option CmdError) : Prop := ∀ e, o = some e → e.arg ≠ 14

theorem namesRegister_none : NamesRegister none := fun _ h => by cases h

theorem namesRegister_some {e : CmdError} (h : e.arg ≠ 14) : NamesRegister (some e) :=
  fun _ he => Option.some.inj he ▸ h

theorem namesRegister_ite {c : Prop} [Decidable c] {a b : Option CmdError} (ha : NamesRegister a)
    (hb : NamesRegister b) : NamesRegister (if c then a else b) := by
  split
  · exact ha
  · exact hb

theorem NamesRegister.orElse {a b : Option CmdError} (ha : NamesRegister a) (hb : NamesRegister b) :
    NamesRegister (a <|> b) := by
  cases a with
  | none => exact hb
  | some e => exact ha

theorem namesRegister_findSome {α : Type} {l : List α} {f : α → Option CmdError}
    (h : ∀ x ∈ l, NamesRegister (f x)) : NamesRegister (l.findSome? f) := by
  intro e he
  obtain ⟨x, hx, hfx⟩ := List.exists_of_findSome?_eq_some he
  exact h x hx e hfx

theorem namesRegister_bind {α : Type} {o : Option α} {f : α → Option CmdError}
    (h : ∀ x ∈ o, NamesRegister (f x)) : NamesRegister (o.bind f) := by
  cases o with
  | none => exact namesRegister_none
  | some x => exact h x rfl

@[simp] theorem argName_ne (i : Fin 12) : argName i ≠ 14#4 := by revert i; decide

/-- Every region of the table is named by a register, and every overlap pair is reported by one of its regions. -/
structure OperandTable.Named (t : OperandTable) : Prop where
  regions : ∀ r ∈ t.regions, r.arg ≠ 14
  scratch : ∀ r ∈ t.scratch, r.arg ≠ 14
  overlaps : ∀ o ∈ t.overlaps, o.fst.arg ≠ 14

@[simp] theorem inputAt_arg (l : Latch) (i : Fin 12) (n : Nat) (b : Bool) : (inputAt l i n b).arg = argName i := rfl
@[simp] theorem resultAt_arg (l : Latch) (i : Fin 12) (n : Nat) (b : Bool) : (resultAt l i n b).arg = argName i := rfl
@[simp] theorem scratchOf_arg (l : Latch) (n : Nat) : (scratchOf l n).arg = scratchBaseArg := rfl

theorem coreTable_named (l : Latch) : (coreTable l).Named := by
  constructor <;> simp [coreTable]

theorem blockTable_named (l : Latch) : (blockTable l).Named := by
  constructor <;> simp [blockTable]

theorem romixTable_named (l : Latch) (need : Nat) : (romixTable l need).Named := by
  constructor <;> simp [romixTable, scratchBaseArg]

theorem powTable_named (l : Latch) (k : Nat) : (powTable l k).Named := by
  constructor <;> simp [powTable, scratchBaseArg]

theorem operandTable_named (i : Instr) (l : Latch) : (operandTable i l).Named := by
  cases i with
  | salsaCore f => exact coreTable_named l
  | chachaCore f => exact coreTable_named l
  | blockmixS f => exact blockTable_named l
  | blockmixC f => exact blockTable_named l
  | shuffle => exact blockTable_named l
  | unshuffle => exact blockTable_named l
  | blkxor => constructor <;> simp [operandTable, blkxorTable]
  | romixS f => exact romixTable_named l _
  | romixC f => exact romixTable_named l _
  | romix2 f => exact romixTable_named l _
  | hmacInit => constructor <;> simp [operandTable, hmacInitTable]
  | pbkdf2Blk => constructor <;> simp [operandTable, pbkdf2BlkTable]
  | pbkdf2 => constructor <;> simp [operandTable, pbkdf2Table]
  | scrypt => constructor <;> simp [operandTable, scryptTable, scratchBaseArg]
  | powhash => exact powTable_named l 1
  | powhash3 => exact powTable_named l 3
  | powhash4 => exact powTable_named l 4

/-- Each of the ten classes of checks names an `ARG`, a scratch register or a region's register. -/
theorem check_namesRegister (p : Params) (l : Latch) {t : OperandTable} (h : t.Named) :
    NamesRegister (check p l t) := by
  have hzero : NamesRegister (checkZero l t) :=
    namesRegister_findSome fun i _ => namesRegister_ite (namesRegister_some (argName_ne i)) namesRegister_none
  have hpow2 : NamesRegister (checkPow2 l t) :=
    namesRegister_findSome fun i _ => namesRegister_ite namesRegister_none (namesRegister_some (argName_ne i))
  have hheader : NamesRegister (checkHeader l t) :=
    namesRegister_findSome fun i _ => namesRegister_ite namesRegister_none (namesRegister_some (argName_ne i))
  have hrmax : NamesRegister (checkRMax p l t) :=
    namesRegister_findSome fun i _ => namesRegister_ite (namesRegister_some (argName_ne i)) namesRegister_none
  have hlimit : NamesRegister (checkLimit l t) :=
    namesRegister_bind fun _ _ => namesRegister_ite (namesRegister_some (by decide)) namesRegister_none
  have halign : NamesRegister (checkAlign t) :=
    namesRegister_findSome fun r hr => namesRegister_ite (namesRegister_some (h.regions r hr)) namesRegister_none
  have hsalign : NamesRegister (checkScratchAlign t) :=
    namesRegister_bind fun r hr => namesRegister_ite (namesRegister_some (h.scratch r hr)) namesRegister_none
  have hbounds : NamesRegister (checkBounds p t) :=
    namesRegister_findSome fun r hr => namesRegister_ite namesRegister_none (namesRegister_some (h.regions r hr))
  have halloc : NamesRegister (checkAlloc p t) :=
    namesRegister_bind fun r hr => namesRegister_ite namesRegister_none (namesRegister_some (h.scratch r hr))
  have hoverlap : NamesRegister (checkOverlap t) :=
    namesRegister_findSome fun o ho => namesRegister_ite (namesRegister_some (h.overlaps o ho)) namesRegister_none
  exact hzero.orElse (hpow2.orElse (hheader.orElse (hrmax.orElse (hlimit.orElse (halign.orElse (hsalign.orElse
    (hbounds.orElse (halloc.orElse hoverlap))))))))

theorem EndsWith.arg_ne {s : State} {w : Word} {e : CmdError} (h : EndsWith s w e) : e.arg ≠ 14 := by
  rcases h with hnone | ⟨i, hi⟩
  · rw [hnone]; decide
  · exact check_namesRegister _ _ (operandTable_named i _) e hi

/-- The codes of the errors are 1 to 11 (60_exceptions.md R200). -/
theorem errBits_range (c : ErrCode) : errBits c ≠ 0 ∧ errBits c ≤ 11 := by cases c <;> decide

/-! ### `STATUS` -/

namespace Status.Ok

variable {st : Status}

theorem write (h : st.Ok) (v : Word) : (st.write v).Ok :=
  { h with busy_quiet := fun hb => ⟨by simp [Status.write, (h.busy_quiet hb).1], (h.busy_quiet hb).2⟩ }

/-- `OVERRUN` is free (40_command_protocol.md R91). -/
theorem setOverrun (h : st.Ok) (b : Bool) : ({ st with overrun := b } : Status).Ok := { h with }

/-- An error end of an accepted command (60_exceptions.md R201). -/
theorem ended (h : st.Ok) (hidle : st.busy = false) {e : CmdError} (he : e.arg ≠ 14) :
    ({ st with done := true, errcode := errBits e.code, errarg := e.arg } : Status).Ok where
  busy_quiet hb := absurd (hidle.symm.trans hb) Bool.false_ne_true
  code_le := (errBits_range e.code).2
  arg_ne := he
  no_error h0 := absurd h0 (errBits_range e.code).1
  idle_phase := h.idle_phase

/-- The start of an accepted command (40_command_protocol.md R92, R93). -/
theorem started : ({ st with busy := true, done := false, errcode := 0, errarg := noArg } : Status).Ok where
  busy_quiet _ := ⟨rfl, rfl⟩
  code_le := (by decide : (0 : BitVec 4) ≤ 11)
  arg_ne := (by decide : noArg ≠ 14)
  no_error _ := rfl
  idle_phase hb := absurd hb.symm Bool.false_ne_true

/-- A completion (40_command_protocol.md R96). -/
theorem completed (h : st.Ok) : ({ st with busy := false, done := true, phase := 0, lane := 0 } : Status).Ok :=
  { h with busy_quiet := fun hb => absurd hb Bool.false_ne_true, idle_phase := fun _ => ⟨rfl, rfl⟩ }

end Status.Ok

/-! ### DMEM -/

/-- The region is empty or lies in DMEM (20_memory.md R53). -/
def Region.Within (p : Params) (r : Region) : Prop := r.len = 0 ∨ r.base + r.len ≤ p.memSize

/-- Every region of a command that passed its checks lies in DMEM. -/
theorem within_of_check {p : Params} {l : Latch} {t : OperandTable} (h : check p l t = none) :
    ∀ r ∈ t.allRegions, r.Within p := by
  obtain ⟨_, _, _, _, _, _, _, hbounds, halloc, _⟩ := (check_eq_none p l t).mp h
  intro r hr
  rcases List.mem_append.mp hr with hr | hr
  · exact bounds_of_checkBounds hbounds r hr
  · exact bounds_of_checkAlloc halloc r (Option.mem_toList.mp hr)

/-- Writes inside regions that lie in DMEM lie in DMEM. -/
theorem WritesInside.within {p : Params} {t : OperandTable} {ws : List (Nat × List Byte)} (h : WritesInside t ws)
    (ht : ∀ r ∈ t.allRegions, r.Within p) : ∀ w ∈ ws, w.2 = [] ∨ w.1 + w.2.length ≤ p.memSize := by
  intro w hw
  rcases h w hw with hnil | ⟨r, hr, _, hbase, hend⟩
  · exact .inl hnil
  · rcases ht r hr with h0 | hle
    · exact .inl (List.eq_nil_of_length_eq_zero (by omega))
    · exact .inr (by omega)

theorem MemoryOk.memWrites {p : Params} {m : Memory} (h : MemoryOk p m) {ws : List (Nat × List Byte)}
    (hw : ∀ w ∈ ws, w.2 = [] ∨ w.1 + w.2.length ≤ p.memSize) : MemoryOk p (memWrites m ws) where
  wf := memWrites_wf h.wf ws
  inside := memWrites_inside h.inside hw

theorem MemoryOk.memWrite {p : Params} {m : Memory} (h : MemoryOk p m) {a : Nat} {v : List Byte}
    (hv : a + v.length ≤ p.memSize) : MemoryOk p (memWrite m a v) where
  wf := memWrite_wf h.wf a v
  inside := memWrite_inside h.inside a v (.inr hv)

/-- What a reset scrambles lies in the results and the scratch of the executing command (70_reset_and_hazards.md
R232). -/
theorem scrambled_inside (s : State) : WritesInside (activeTable s) (scrambled s) := by
  intro w hw
  obtain ⟨r, hr, rfl⟩ := List.mem_map.mp hw
  obtain ⟨hr, huse⟩ := List.mem_filter.mp hr
  exact .inr ⟨r, hr, by simpa using huse, Nat.le_refl _, by simp⟩

/-- In a state the invariant allows, every region of the executing command lies in DMEM. -/
theorem State.Inv.active_within {s : State} (h : s.Inv) : ∀ r ∈ (activeTable s).allRegions, r.Within s.params := by
  cases hb : s.status.busy with
  | false => simp [hb, OperandTable.allRegions]
  | true =>
    obtain ⟨_, i, hi, hc⟩ := h.busy hb
    rw [activeTable_busy hb (executing_eq_some.mpr hi)]
    exact within_of_check hc

/-! ### Every transition -/

/-- While idle nothing is asked of the latch. -/
theorem BusyOk.of_idle {s : State} (h : s.status.busy = false) : BusyOk s :=
  fun hb => absurd (h.symm.trans hb) Bool.false_ne_true

namespace Transition

variable {s t : State}

/-- No step changes the parameters (log 3). -/
theorem params_eq (h : Transition s t) : t.params = s.params := by
  cases h with
  | completed u i hu hb hi => obtain ⟨inbox, rfl⟩ := hu.eq_pop; rfl
  | regWritten r v rest => exact writeReg_params _ v r
  | _ => rfl

theorem keeps_status (h : Transition s t) (hs : s.status.Ok) : t.status.Ok := by
  cases h with
  | answered v inbox => exact hs
  | regWritten r v rest =>
    rw [writeReg_status]
    split
    · exact hs.write v
    · exact hs
  | dropped rest hb => exact hs.setOverrun true
  | ended w e rest hidle he => exact hs.ended hidle he.arg_ne
  | started w i rest hidle hin hd hc => exact Status.Ok.started
  | stored addr bs rest hle hfree => exact hs
  | wasReset rest hin => exact Status.ok_atReset
  | completed u i hu hb hi => obtain ⟨inbox, rfl⟩ := hu.eq_pop; exact hs.completed
  | idled inbox hidle => exact hs

theorem keeps_memory (h : Transition s t) (hs : s.Inv) : MemoryOk s.params t.mem := by
  cases h with
  | regWritten r v rest => rw [writeReg_mem]; exact hs.memory
  | stored addr bs rest hle hfree => exact hs.memory.memWrite hle
  | wasReset rest hin => exact hs.memory.memWrites ((scrambled_inside s).within hs.active_within)
  | completed u i hu hb hi =>
    obtain ⟨inbox, rfl⟩ := hu.eq_pop
    have hwithin := hs.active_within
    rw [activeTable_busy hb (executing_eq_some.mpr hi)] at hwithin
    exact hs.memory.memWrites ((resultsOf_inside i (pop s inbox)).within hwithin)
  | _ => exact hs.memory

theorem keeps_busyOk (h : Transition s t) (hs : BusyOk s) : BusyOk t := by
  cases h with
  | regWritten r v rest =>
    simp only [BusyOk, writeReg_busy, writeReg_cmd, writeReg_latch, writeReg_params]
    exact hs
  | ended w e rest hidle he => exact .of_idle hidle
  | started w i rest hidle hin hd hc => exact fun _ => ⟨rfl, i, hd, hc⟩
  | wasReset rest hin => exact .of_idle rfl
  | completed u i hu hb hi => exact .of_idle rfl
  | _ => exact hs

theorem keeps_inv (h : Transition s t) (hs : s.Inv) : t.Inv where
  params := h.params_eq ▸ hs.params
  status := h.keeps_status hs.status
  memory := h.params_eq ▸ h.keeps_memory hs
  busy := h.keeps_busyOk hs.busy

end Transition

end Sys2Proof.Machine

namespace Sys2Proof.Proofs

open Sys2Proof.Machine Sys2Proof.Spec

/-- Settles O56, by a case split on what the step was (`step_transition`): the checks of the executing command bound
every write of its completion and of a reset that stops it, and the error ends are bounded by the operand tables. -/
theorem stepKeepsInvariant : Obligations.StepKeepsInvariant :=
  fun _ _ hs h => (step_transition h).keeps_inv hs

end Sys2Proof.Proofs
end

section
/-! Statements about two successive states: when `BUSY` changes, what stays while a command executes, and the reset
input. -/

namespace Sys2Proof.Machine

open Sys2Proof.Spec

/-! ### `BUSY`, and the snapshot of the executing command -/

/-- What the results of the executing command depend on: the pad states, the latches, the parameters and the bytes of
its footprint (10_state.md R37; 20_memory.md R57). -/
structure SameSnapshot (s t : State) : Prop where
  ist : t.ist = s.ist
  ost : t.ost = s.ost
  latch : t.latch = s.latch
  params : t.params = s.params
  footprint : ∀ a, (activeTable s).inFootprint a = true → byteAt t.mem a = byteAt s.mem a

theorem CoreTurnIn.exec_eq {s u : State} (hu : CoreTurnIn s u) (i : Instr) (hb : s.status.busy = true) :
    exec i u = .next (complete (resultsOf i u) u) := by
  obtain ⟨inbox, rfl⟩ := hu.eq_pop
  exact exec_busy i hb

/-- The CORE's turn, told by the inbox of the state before it. -/
theorem CoreTurnIn.inbox {s u : State} (hu : CoreTurnIn s u) :
    (∃ rest, s.inbox = .core :: rest ∧ u = pop s rest) ∨
    (s.inbox = [] ∨ ∃ rest, s.inbox = .wait 0 :: rest) ∧ u = s := by
  cases hu with
  | atEvent rest hin => exact .inl ⟨rest, hin, rfl⟩
  | atEmpty hin => exact .inr ⟨.inl hin, rfl⟩
  | atWait rest hin => exact .inr ⟨.inr ⟨rest, hin⟩, rfl⟩

namespace Transition

variable {s t : State}

/-- `BUSY` rises only at an accepted `CMD` write of a word that decodes (40_command_protocol.md R93). -/
theorem busy_rises (h : Transition s t) (hs : s.status.busy = false) (ht : t.status.busy = true) :
    ∃ w i rest, s.inbox = .regWrite .b32 (s.params.base + 0x014) w :: rest ∧ decode w = .ok i ∧ t.cmd = w := by
  cases h with
  | started w i rest hidle hin hd hc => exact ⟨w, i, rest, hin, hd, rfl⟩
  | regWritten r v rest => rw [writeReg_busy] at ht; exact absurd (hs.symm.trans ht) Bool.false_ne_true
  | wasReset rest hin => exact absurd ht Bool.false_ne_true
  | completed u i hu hb hi => exact absurd (hs.symm.trans hb) Bool.false_ne_true
  | _ => exact absurd (hs.symm.trans ht) Bool.false_ne_true

/-- `BUSY` falls only at reset and at the completion of the latched command (40_command_protocol.md R96, R97). -/
theorem busy_falls (h : Transition s t) (hs : s.status.busy = true) (ht : t.status.busy = false) :
    (∃ rest, s.inbox = .reset :: rest) ∨
    t.status.done = true ∧ ∃ i u, decode s.latch.cmd = .ok i ∧ CoreTurnIn s u ∧ exec i u = .next t := by
  cases h with
  | wasReset rest hin => exact .inl ⟨rest, hin⟩
  | completed u i hu hb hi => exact .inr ⟨rfl, i, u, hi, hu, hu.exec_eq i hb⟩
  | regWritten r v rest => rw [writeReg_busy] at ht; exact absurd (ht.symm.trans hs) Bool.false_ne_true
  | started w i rest hidle hin hd hc => exact absurd (hidle.symm.trans hs) Bool.false_ne_true
  | _ => exact absurd (ht.symm.trans hs) Bool.false_ne_true

/-- While a command executes and goes on executing, no step changes its snapshot: it is a read, a register write, a
dropped `CMD` write, or a DMEM write outside the footprint. -/
theorem keeps_snapshot (h : Transition s t) (hs : s.status.busy = true) (ht : t.status.busy = true) :
    SameSnapshot s t := by
  cases h with
  | answered v inbox => exact ⟨rfl, rfl, rfl, rfl, fun _ _ => rfl⟩
  | regWritten r v rest =>
    exact ⟨writeReg_ist_of_busy _ v r hs, writeReg_ost_of_busy _ v r hs, writeReg_latch _ v r, writeReg_params _ v r,
      fun _ _ => by rw [writeReg_mem, pop_mem]⟩
  | dropped rest hb => exact ⟨rfl, rfl, rfl, rfl, fun _ _ => rfl⟩
  | stored addr bs rest hle hfree =>
    refine ⟨rfl, rfl, rfl, rfl, fun a ha => byteAt_memWrite_outside ?_⟩
    rintro ⟨hle, hlt⟩
    have hout := hfree (a - addr) (by omega)
    rw [Nat.add_sub_cancel' hle, ha] at hout
    cases hout
  | wasReset rest hin => exact absurd ht Bool.false_ne_true
  | completed u i hu hb hi => exact absurd ht Bool.false_ne_true
  | ended w e rest hidle he => exact absurd (hidle.symm.trans hs) Bool.false_ne_true
  | started w i rest hidle hin hd hc => exact absurd (hidle.symm.trans hs) Bool.false_ne_true
  | idled inbox hidle => exact absurd (hidle.symm.trans hs) Bool.false_ne_true

end Transition

/-! ### Reset -/

/-- A byte of the region, `Region.has` said without `Bool`. -/
theorem Region.has_iff {r : Region} {a : Nat} : r.has a = true ↔ r.base ≤ a ∧ a < r.base + r.len := by
  simp [Region.has]

/-- A reset keeps every byte the executing command may not write (70_reset_and_hazards.md R232). -/
theorem byteAt_resetCore {s : State} {a : Nat} (h : (activeTable s).mayWrite a = false) :
    byteAt (resetCore s).mem a = byteAt s.mem a := by
  refine byteAt_memWrites_outside fun w hw => ?_
  obtain ⟨r, hr, rfl⟩ := List.mem_map.mp hw
  obtain ⟨hr, huse⟩ := List.mem_filter.mp hr
  rintro ⟨hle, hlt⟩
  rw [List.length_map, List.length_range] at hlt
  have hmay : (activeTable s).mayWrite a = true :=
    List.any_eq_true.mpr ⟨r, hr, by rw [huse, Region.has_iff.mpr ⟨hle, hlt⟩]; rfl⟩
  exact absurd (h.symm.trans hmay) Bool.false_ne_true

/-- Right after a reset every register but `CAP`, which shows the parameters, reads as in the model's reset state
(10_state.md R41). -/
theorem readReg_resetCore (s : State) (r : Reg) :
    readReg (resetCore s) r = if r = .cap then readReg s .cap else readReg State.reset r := by
  cases r <;> rfl

end Sys2Proof.Machine

namespace Sys2Proof.Proofs

open Sys2Proof.Machine Sys2Proof.Spec

/-- Settles O9, by a case split on what the step was: only the start of a command raises `BUSY`, only a reset and a
completion lower it, and a completion is `exec` of the latched command. -/
theorem busyChangesOnlyAtItsEvents : Obligations.BusyChangesOnlyAtItsEvents := by
  intro s t h
  refine ⟨(step_transition h).busy_rises, fun hs ht => ?_⟩
  rcases (step_transition h).busy_falls hs ht with hreset | ⟨hdone, i, u, hi, hu, hx⟩
  · exact .inl hreset
  · refine .inr ⟨hdone, i, hi, ?_⟩
    rcases hu.inbox with ⟨rest, hin, rfl⟩ | ⟨hin, rfl⟩
    · exact .inl ⟨rest, hin, hx⟩
    · exact .inr ⟨hin, hx⟩

/-- Settles O52, by a case split on what the step was: each one that leaves a command executing keeps its snapshot. -/
theorem snapshotIsStableWhileBusy : Obligations.SnapshotIsStableWhileBusy := by
  intro s t hs h ht
  obtain ⟨hist, host, hlatch, hparams, hmem⟩ := (step_transition h).keeps_snapshot hs ht
  exact ⟨hist, host, hlatch, hparams, hmem⟩

/-- Settles O54: the registers are those of the model's reset state but for `CAP`, and the bytes a reset scrambles
are those the executing command may write. -/
theorem resetSetsRegistersAndKeepsDmem : Obligations.ResetSetsRegistersAndKeepsDmem := by
  intro s rest hin
  refine ⟨resetCore (pop s rest), step_eq_runEvent hin, rfl, rfl, ?_, ?_, ?_, ?_⟩
  · intro x
    rw [readReg_resetCore]
    cases x with
    | arg i => simp [readReg, State.reset]
    | ist i => simp [readReg, settled, State.reset, Status.atReset]
    | ost i => simp [readReg, settled, State.reset, Status.atReset]
    | _ => rfl
  · intro x hx
    rw [readReg_resetCore, if_neg hx]
  · intro hidle a
    exact byteAt_resetCore (s := pop s rest) (by simp [hidle, OperandTable.mayWrite, OperandTable.allRegions])
  · intro i hb hi a ha
    exact byteAt_resetCore (s := pop s rest) (by rwa [activeTable_pop, activeTable_busy hb (executing_eq_some.mpr hi)])

end Sys2Proof.Proofs
end

section
/-! The register port (10_state.md R20 to R40): one rule for a read and one for a write of a register at its offset,
and what the words of `CTRL`, `STATUS` and `CAP` hold bit by bit. -/

namespace Sys2Proof.Machine

open Sys2Proof.Spec

/-! ### Reads and writes by register -/

section
variable {s : State} {rest : List Event} {v : Word} {r : Reg}

theorem answers_reply (v : Word) (s : State) : Answers (.next (reply v s)) v s := ⟨_, rfl⟩

/-- A host read at a register's offset answers what the register reads, and changes nothing else. -/
theorem answers_readReg (h : s.inbox = .regRead .b32 (s.params.base + r.offset) :: rest) :
    Answers (step s) (readReg (pop s rest) r) (pop s rest) := by
  rw [step_regRead h r.offset_ok.1 r.offset_ok.2, Reg.ofOffset_offset]
  exact answers_reply _ _

/-- A host write at a register's offset is that register's write. -/
theorem step_writeReg (hr : r ≠ .cmd) (h : s.inbox = .regWrite .b32 (s.params.base + r.offset) v :: rest) :
    step s = .next (writeReg r v (pop s rest)) := by
  rw [step_regWrite h r.offset_ok.1 r.offset_ok.2 (by rwa [Reg.ofOffset_offset]), Reg.ofOffset_offset]
  rfl

/-- A narrower, wider or misaligned read of the block is refused (10_state.md R40). -/
theorem step_regRead_refused {w : Width} {off : Nat} (hlt : off < 4096) (hw : w ≠ .b32 ∨ off % 4 ≠ 0)
    (h : s.inbox = .regRead w (s.params.base + off) :: rest) : step s = .refused .registerAccess := by
  rw [step_eq_runEvent h]
  simp only [runEvent, hostRegRead, show regRefusal w (s.params.base + off) (pop s rest) = some .registerAccess from
    regRefusal_some (s := pop s rest) hlt hw]

/-- A narrower, wider or misaligned write to the block is refused (10_state.md R40). -/
theorem step_regWrite_refused {w : Width} {off : Nat} (hlt : off < 4096) (hw : w ≠ .b32 ∨ off % 4 ≠ 0)
    (h : s.inbox = .regWrite w (s.params.base + off) v :: rest) : step s = .refused .registerAccess := by
  rw [step_eq_runEvent h]
  simp only [runEvent, hostRegWrite, show regRefusal w (s.params.base + off) (pop s rest) = some .registerAccess from
    regRefusal_some (s := pop s rest) hlt hw]

/-- A settled register reads its value while idle (10_state.md R27, R28, R33). -/
theorem settled_of_idle {s : State} (h : s.status.busy = false) (slot : Nat) (v : Word) : settled s slot v = v := by
  rw [settled, h]; rfl

end

/-- The registers that host writes leave alone (10_state.md R20). -/
def readOnlyRegs : List Reg := [.id, .version, .cap, .iter, .jidx]

theorem writeReg_readOnly {r : Reg} (hr : r ∈ readOnlyRegs) (v : Word) (s : State) : writeReg r v s = s := by
  simp only [readOnlyRegs, List.mem_cons, List.not_mem_nil, or_false] at hr
  rcases hr with rfl | rfl | rfl | rfl | rfl <;> rfl

/-! ### The fields of `CTRL`, `STATUS` and `CAP` -/

namespace Ctrl

variable (c : Ctrl)

theorem word_ie : c.word.getLsbD 0 = c.ie := by simp only [word, BitVec.getLsbD_append]; simp
theorem word_accelEn : c.word.getLsbD 1 = c.accelEn := by simp only [word, BitVec.getLsbD_append]; simp
theorem word_reserved : c.word.extractLsb' 2 30 = 0 := by
  simp (disch := decide) only [word, BitVec.extractLsb'_append_eq_of_le, BitVec.extractLsb'_eq_self, Nat.reduceSub]

end Ctrl

/-- A write keeps bits 1:0 of `CTRL` (10_state.md R24). -/
theorem ctrlOf_word (v : Word) : (ctrlOf v).word = v &&& 3 := by
  apply BitVec.eq_of_getLsbD_eq
  intro i hi
  rw [BitVec.getLsbD_and]
  match i with
  | 0 => rw [Ctrl.word_ie]; simp [ctrlOf]
  | 1 => rw [Ctrl.word_accelEn]; simp [ctrlOf]
  | n + 2 =>
    simp only [Ctrl.word, BitVec.getLsbD_append]
    simp [BitVec.getLsbD_ofNat, Nat.testBit_add]

namespace Status

variable (st : Status)

theorem word_busy : st.word.getLsbD 0 = st.busy := by simp only [word, BitVec.getLsbD_append]; simp
theorem word_done : st.word.getLsbD 1 = st.done := by simp only [word, BitVec.getLsbD_append]; simp
theorem word_err : st.word.getLsbD 2 = true ↔ st.errcode ≠ 0 := by
  simp only [word, BitVec.getLsbD_append]; simp [err]
theorem word_overrun : st.word.getLsbD 3 = st.overrun := by simp only [word, BitVec.getLsbD_append]; simp
theorem word_bits_4_7 : st.word.extractLsb' 4 4 = 0 := by
  simp (disch := decide) only [word, BitVec.extractLsb'_append_eq_of_le, BitVec.extractLsb'_append_eq_right, Nat.reduceSub]
theorem word_errcode : st.word.extractLsb' 8 4 = st.errcode := by
  simp (disch := decide) only [word, BitVec.extractLsb'_append_eq_of_le, BitVec.extractLsb'_append_eq_right, Nat.reduceSub]
theorem word_errarg : st.word.extractLsb' 12 4 = st.errarg := by
  simp (disch := decide) only [word, BitVec.extractLsb'_append_eq_of_le, BitVec.extractLsb'_append_eq_right, Nat.reduceSub]
theorem word_phase : st.word.extractLsb' 16 3 = st.phase := by
  simp (disch := decide) only [word, BitVec.extractLsb'_append_eq_of_le, BitVec.extractLsb'_append_eq_right, Nat.reduceSub]
theorem word_bits_19_23 : st.word.extractLsb' 19 5 = 0 := by
  simp (disch := decide) only [word, BitVec.extractLsb'_append_eq_of_le, BitVec.extractLsb'_append_eq_right, Nat.reduceSub]
theorem word_lane : st.word.extractLsb' 24 2 = st.lane := by
  simp (disch := decide) only [word, BitVec.extractLsb'_append_eq_of_le, BitVec.extractLsb'_append_eq_right, Nat.reduceSub]
theorem word_bits_26_31 : st.word.extractLsb' 26 6 = 0 := by
  simp (disch := decide) only [word, BitVec.extractLsb'_append_eq_of_le, BitVec.extractLsb'_eq_self, Nat.reduceSub]

/-- `Status.write` as 10_state.md R26 words it. -/
theorem write_eq (v : Word) : st.write v =
    { st with
      done := if v.getLsbD 1 then false else st.done
      overrun := if v.getLsbD 3 then false else st.overrun } := by
  unfold write
  cases v.getLsbD 1 <;> cases v.getLsbD 3 <;> simp

/-- While busy `DONE` is 0 already, so that a write without bit 3 changes nothing. -/
theorem Ok.write_of_busy {st : Status} (h : st.Ok) (hb : st.busy = true) {v : Word} (hv : v.getLsbD 3 = false) :
    st.write v = st := by
  obtain ⟨hdone, _⟩ := h.busy_quiet hb
  unfold Status.write
  rw [hdone, hv, Bool.false_and, Bool.not_false, Bool.and_true, ← hdone]

end Status

section
variable (p : Params)

theorem capWord_simd : (capWord p).getLsbD 0 = p.capSimd := by simp only [capWord, BitVec.getLsbD_append]; simp
theorem capWord_batch3 : (capWord p).getLsbD 1 = p.capBatch3 := by simp only [capWord, BitVec.getLsbD_append]; simp
theorem capWord_batch4 : (capWord p).getLsbD 2 = p.capBatch4 := by simp only [capWord, BitVec.getLsbD_append]; simp
theorem capWord_bits_3_7 : (capWord p).extractLsb' 3 5 = 0 := by
  simp (disch := decide) only [capWord, BitVec.extractLsb'_append_eq_of_le, BitVec.extractLsb'_append_eq_right, Nat.reduceSub]
theorem capWord_rMax : (capWord p).extractLsb' 8 8 = BitVec.ofNat 8 p.rMax := by
  simp (disch := decide) only [capWord, BitVec.extractLsb'_append_eq_of_le, BitVec.extractLsb'_append_eq_right, Nat.reduceSub]
theorem capWord_bits_16_31 : (capWord p).extractLsb' 16 16 = 0 := by
  simp (disch := decide) only [capWord, BitVec.extractLsb'_append_eq_of_le, BitVec.extractLsb'_eq_self, Nat.reduceSub]

end

/-! ### `PHASE` and `LANE` as a read shows them -/

theorem shownStatus_of_idle {s : State} (h : s.status.busy = false) : shownStatus s = s.status := by
  simp [shownStatus, h]

theorem shownStatus_of_executing {s : State} {i : Instr} (h : s.status.busy = true)
    (hi : decode s.latch.cmd = .ok i) :
    shownStatus s = { s.status with phase := drawnPhase i s.draws, lane := drawnLane i s.draws } := by
  simp [shownStatus, h, executing_eq_some.mpr hi]

/-! A read shows every other field of `STATUS` as it is. -/
@[simp] theorem shownStatus_busy (s : State) : (shownStatus s).busy = s.status.busy := by
  unfold shownStatus; split <;> rfl
@[simp] theorem shownStatus_done (s : State) : (shownStatus s).done = s.status.done := by
  unfold shownStatus; split <;> rfl
@[simp] theorem shownStatus_overrun (s : State) : (shownStatus s).overrun = s.status.overrun := by
  unfold shownStatus; split <;> rfl
@[simp] theorem shownStatus_errcode (s : State) : (shownStatus s).errcode = s.status.errcode := by
  unfold shownStatus; split <;> rfl
@[simp] theorem shownStatus_errarg (s : State) : (shownStatus s).errarg = s.status.errarg := by
  unfold shownStatus; split <;> rfl

theorem getD_mod_mem {α : Type} {l : List α} (h : l ≠ []) (k : Nat) (d : α) : l.getD (k % l.length) d ∈ l := by
  have hlt : k % l.length < l.length := Nat.mod_lt k (List.length_pos_iff.mpr h)
  rw [List.getD_eq_getElem?_getD, List.getElem?_eq_getElem hlt]
  exact List.getElem_mem hlt

theorem drawnPhase_mem (i : Instr) (n : Nat) : drawnPhase i n ∈ phases i :=
  getD_mod_mem (by cases i <;> simp [phases]) _ _

theorem laneCount_range (i : Instr) : 0 < laneCount i ∧ laneCount i ≤ 4 := by cases i <;> simp [laneCount]

theorem drawnLane_lt (i : Instr) (n : Nat) : (drawnLane i n).toNat < laneCount i := by
  obtain ⟨hpos, hle⟩ := laneCount_range i
  have hlt := Nat.mod_lt (Config.freeWord n 1).toNat hpos
  rw [drawnLane, BitVec.toNat_ofNat, Nat.mod_eq_of_lt (by omega)]
  exact hlt

end Sys2Proof.Machine

namespace Sys2Proof.Proofs

open Sys2Proof.Machine Sys2Proof.Spec

/-- Settles O42: each read by its register (`answers_readReg`), the bits of `CAP` by its layout, and the writes
because no register of `readOnlyRegs` takes one. -/
theorem readOnlyRegisters : Obligations.ReadOnlyRegisters := by
  intro s rest
  refine ⟨answers_readReg (r := .id), answers_readReg (r := .version), fun h => ?_, fun h => ?_, fun h => ?_, ?_⟩
  · exact ⟨_, answers_readReg (r := .cap) h, capWord_simd _, capWord_batch3 _, capWord_batch4 _, capWord_bits_3_7 _,
      capWord_rMax _, capWord_bits_16_31 _⟩
  · exact ⟨_, answers_readReg (r := .iter) h, fun hidle => settled_of_idle (s := pop s rest) hidle 0 s.iter⟩
  · exact ⟨_, answers_readReg (r := .jidx) h, fun hidle => settled_of_idle (s := pop s rest) hidle 0 s.jidx⟩
  · intro off hoff v h
    obtain ⟨r, hr, rfl⟩ : ∃ r ∈ readOnlyRegs, r.offset = off := List.mem_map.mp hoff
    have hcmd : r ≠ .cmd := by rintro rfl; exact absurd hr (by decide)
    rw [step_writeReg hcmd h, writeReg_readOnly hr]

/-- Settles O43: every such offset names the register `reserved` (`Reg.ofOffset_reserved`). -/
theorem reservedOffsetsAreInert : Obligations.ReservedOffsetsAreInert := by
  intro s rest off h4 hoff
  have hreg : Reg.ofOffset off = .reserved := Reg.ofOffset_reserved (by omega)
  refine ⟨fun h => ?_, fun v h => ?_⟩
  · rw [step_regRead h h4 (by omega), hreg]
    exact answers_reply _ _
  · rw [step_regWrite h h4 (by omega) (by rw [hreg]; decide), hreg]
    rfl

/-- Settles O44: the register port refuses such an access before it looks at the register (`regRefusal_some`). -/
theorem otherRegisterAccessesAreRefused : Obligations.OtherRegisterAccessesAreRefused :=
  fun _ _ _ _ _ hlt hw => ⟨step_regRead_refused hlt hw, step_regWrite_refused hlt hw⟩

/-- Settles O45: the layout of `STATUS`, the fields a read shows, and the draws of `PHASE` and `LANE`. -/
theorem statusReads : Obligations.StatusReads := by
  intro s rest h
  refine ⟨_, answers_readReg (r := .status) h, ?_⟩
  simp only [readReg, Status.word_busy, Status.word_done, Status.word_err, Status.word_overrun, Status.word_bits_4_7,
    Status.word_errcode, Status.word_errarg, Status.word_phase, Status.word_bits_19_23, Status.word_lane,
    Status.word_bits_26_31, shownStatus_busy, shownStatus_done, shownStatus_overrun, shownStatus_errcode,
    shownStatus_errarg, pop_status, true_and]
  refine ⟨fun hidle => ?_, fun i hb hi => ?_⟩
  · rw [shownStatus_of_idle (s := pop s rest) hidle]
    exact ⟨rfl, rfl⟩
  · rw [shownStatus_of_executing (s := pop s rest) hb hi]
    have hphase := drawnPhase_mem i s.draws
    have hlane := drawnLane_lt i s.draws
    constructor
    · cases i <;> simpa [phases] using hphase
    · cases i <;> simpa [laneCount] using hlane

/-- Settles O46, by `Status.write_eq`; while busy the invariant has `DONE` at 0. -/
theorem statusWriteOneToClear : Obligations.StatusWriteOneToClear := by
  intro s rest v h
  have hstep := step_writeReg (r := .status) (by decide) h
  refine ⟨by rw [hstep, ← Status.write_eq]; rfl, fun hinv hb hv => ?_⟩
  rw [hstep, writeReg, pop_status, hinv.status.write_of_busy hb hv]
  rfl

/-- Settles O47, register by register (`answers_readReg`, `step_writeReg`). -/
theorem readWriteRegistersHoldWrites : Obligations.ReadWriteRegistersHoldWrites := by
  intro s rest v
  refine ⟨fun h => ?_, answers_readReg (r := .cmd), answers_readReg (r := .scratchBase),
    answers_readReg (r := .scratchLimit), fun i h => ?_, fun h => ?_, step_writeReg (r := .scratchBase) (by decide),
    step_writeReg (r := .scratchLimit) (by decide), fun i h => ?_⟩
  · exact ⟨_, answers_readReg (r := .ctrl) h, Ctrl.word_ie _, Ctrl.word_accelEn _, Ctrl.word_reserved _⟩
  · rw [Nat.add_assoc] at h
    exact answers_readReg (r := .arg i) h
  · exact ⟨step_writeReg (r := .ctrl) (by decide) h, ctrlOf_word v⟩
  · rw [Nat.add_assoc] at h
    refine ⟨step_writeReg (r := .arg i) (by simp) h, fun j => ?_⟩
    simp [readReg, Vector.getElem_set, Fin.ext_iff, eq_comm]

/-- Settles O48: the pad registers read as settled registers and take a host write while idle alone. -/
theorem padRegistersAnswerAndHoldWhileIdle : Obligations.PadRegistersAnswerAndHoldWhileIdle := by
  intro s rest v i
  refine ⟨fun h => ?_, fun h => ?_, fun h => ?_, fun h => ?_⟩ <;> rw [Nat.add_assoc] at h
  · exact ⟨_, answers_readReg (r := .ist i) h, fun hidle => settled_of_idle (s := pop s rest) hidle 0 s.ist[i]⟩
  · exact ⟨_, answers_readReg (r := .ost i) h, fun hidle => settled_of_idle (s := pop s rest) hidle 0 s.ost[i]⟩
  · exact step_writeReg (r := .ist i) (by simp) h
  · exact step_writeReg (r := .ost i) (by simp) h

end Sys2Proof.Proofs
end

section
/-! The DMEM port (20_memory.md R51, R58): which accesses it admits, and what an admitted read and write do. -/

namespace Sys2Proof.Machine

open Sys2Proof.Spec

/-! ### The bytes of a Word -/

theorem toLE_getD (v : Word) {k : Nat} (hk : k < 4) : (toLE v).getD k 0 = v.extractLsb' (8 * k) 8 := by
  match k with
  | 0 | 1 | 2 | 3 => rfl

/-- Byte `k` of `LE32` is its operand `k` (00_scope.md R12). -/
theorem le32_extractLsb' (b : Nat → Byte) {k : Nat} (hk : k < 4) :
    (le32 (b 0) (b 1) (b 2) (b 3)).extractLsb' (8 * k) 8 = b k := by
  match k with
  | 0 | 1 | 2 | 3 =>
    simp (disch := decide) only [le32, BitVec.extractLsb'_append_eq_of_le, BitVec.extractLsb'_append_eq_right,
      BitVec.extractLsb'_eq_self, Nat.reduceSub, Nat.reduceMul]

theorem wordAt_eq_leWord (m : Memory) (a : Nat) : wordAt m a = leWord m a := rfl

/-- Four bytes that are those of `v` read as the Word `v`. -/
theorem leWord_eq_of_bytes {m : Memory} {a : Nat} {v : Word}
    (h : ∀ k < 4, byteAt m (a + k) = v.extractLsb' (8 * k) 8) : leWord m a = v := by
  have h0 : byteAt m a = v.extractLsb' 0 8 := h 0 (by decide)
  rw [leWord, h 3 (by decide), h 2 (by decide), h 1 (by decide), h0]
  exact le32_toLE v

theorem memRead_getD (m : Memory) (a : Nat) {n k : Nat} (hk : k < n) :
    (memRead m a n).getD k 0 = byteAt m (a + k) := by
  simp [memRead, hk]

theorem nth_readWords (m : Memory) (a : Nat) {n k : Nat} (hk : k < n) :
    nth (readWords m a n) k = wordAt m (a + 4 * k) := by
  simp [nth, readWords, hk]

/-- Byte `4i + k` of a serialization is byte `k` of Word `i` (45_drivers.md R180). -/
theorem bytesOf_getD (ws : List Word) {i k : Nat} (hi : i < ws.length) (hk : k < 4) :
    (bytesOf ws).getD (4 * i + k) 0 = (nth ws i).extractLsb' (8 * k) 8 := by
  induction ws generalizing i with
  | nil => exact absurd hi (Nat.not_lt_zero i)
  | cons w ws ih =>
    change (toLE w ++ bytesOf ws).getD (4 * i + k) 0 = _
    cases i with
    | zero =>
      rw [List.getD_append _ _ _ _ (by simpa using hk)]
      rw [Nat.mul_zero, Nat.zero_add]
      exact toLE_getD w hk
    | succ i =>
      rw [List.getD_append_right _ _ _ _ (by rw [toLE_length]; omega), toLE_length,
        show 4 * (i + 1) + k - 4 = 4 * i + k by omega]
      exact ih (Nat.lt_of_succ_lt_succ hi)

/-! ### Which accesses the port admits -/

theorem dmemSpan_b8 {s : State} {a : Nat} (h : a < s.params.memSize) : dmemSpan .b8 a s = .ok 1 := if_pos h

theorem dmemSpan_b32 {s : State} {a : Nat} (h4 : a % 4 = 0) (h : a + 4 ≤ s.params.memSize) :
    dmemSpan .b32 a s = .ok 4 := by
  rw [dmemSpan, if_neg (not_not_intro h4), if_pos h]

/-- No access of the port spans more than a Word. -/
theorem dmemSpan_le {w : Width} {a n : Nat} {s : State} (h : dmemSpan w a s = .ok n) : n ≤ 4 := by
  cases w with
  | b8 | b32 => grind [dmemSpan]
  | b16 | b64 => cases h

/-- The port admits no misaligned 32-bit access and none at an address `≥ MEM_SIZE`. -/
theorem dmemSpan_error {w : Width} {a : Nat} {s : State} (h : (w = .b32 ∧ a % 4 ≠ 0) ∨ s.params.memSize ≤ a) :
    ∃ e, dmemSpan w a s = .error e := by
  cases w with
  | b8 => exact ⟨_, if_neg (by grind)⟩
  | b16 => exact ⟨_, rfl⟩
  | b32 =>
    by_cases h4 : a % 4 = 0
    · exact ⟨_, by rw [dmemSpan, if_neg (not_not_intro h4), if_neg (by grind)]⟩
    · exact ⟨_, by rw [dmemSpan, if_pos h4]⟩
  | b64 => exact ⟨_, rfl⟩

section
variable {s : State} {rest : List Event} {w : Width} {a n : Nat} {v : Word}

theorem step_dmemRead_refused {e : Refusal} (hin : s.inbox = .dmemRead w a :: rest)
    (hspan : dmemSpan w a s = .error e) : step s = .refused e := by
  rw [step_eq_runEvent hin]
  simp only [runEvent, hostDmemRead, show dmemSpan w a (pop s rest) = .error e from hspan]

theorem step_dmemWrite_refused {e : Refusal} (hin : s.inbox = .dmemWrite w a v :: rest)
    (hspan : dmemSpan w a s = .error e) : step s = .refused e := by
  rw [step_eq_runEvent hin]
  simp only [runEvent, hostDmemWrite, show dmemSpan w a (pop s rest) = .error e from hspan]

/-! ### Reads -/

/-- A byte the executing command may not write reads as it is (20_memory.md R58). -/
theorem hostByte_of_not_mayWrite (h : (activeTable s).mayWrite a = false) : hostByte s a = byteAt s.mem a := by
  rw [hostByte, h]; rfl

/-- While idle every byte reads as it is. -/
theorem hostByte_of_idle (h : s.status.busy = false) (a : Nat) : hostByte s a = byteAt s.mem a :=
  hostByte_of_not_mayWrite (by simp [h, OperandTable.mayWrite, OperandTable.allRegions])

theorem answers_dmemRead_b8 (hin : s.inbox = .dmemRead .b8 a :: rest) (h : a < s.params.memSize) :
    Answers (step s) ((hostByte s a).setWidth 32) (pop s rest) := by
  rw [step_eq_runEvent hin]
  simp only [runEvent, hostDmemRead, dmemSpan_b8 (s := pop s rest) h]
  exact answers_reply _ _

theorem answers_dmemRead_b32 (hin : s.inbox = .dmemRead .b32 a :: rest) (h4 : a % 4 = 0)
    (h : a + 4 ≤ s.params.memSize) :
    Answers (step s) (le32 (hostByte s a) (hostByte s (a + 1)) (hostByte s (a + 2)) (hostByte s (a + 3)))
      (pop s rest) := by
  rw [step_eq_runEvent hin]
  simp only [runEvent, hostDmemRead, dmemSpan_b32 (s := pop s rest) h4 h]
  exact answers_reply _ _

/-- While idle a 32-bit read answers the little-endian Word. -/
theorem answers_leWord_of_idle (hidle : s.status.busy = false) (hin : s.inbox = .dmemRead .b32 a :: rest)
    (h4 : a % 4 = 0) (h : a + 4 ≤ s.params.memSize) : Answers (step s) (leWord s.mem a) (pop s rest) := by
  have hread := answers_dmemRead_b32 hin h4 h
  simp only [hostByte_of_idle hidle] at hread
  exact hread

/-! ### Writes -/

/-- `s` after an admitted host write of the first `n` bytes of `v` at `a`. -/
def portStored (s : State) (rest : List Event) (a n : Nat) (v : Word) : State :=
  { pop s rest with mem := memWrite s.mem a ((toLE v).take n) }

/-- Everything an admitted host write does to the state it leaves. -/
structure Stores (s : State) (rest : List Event) (a n : Nat) (v : Word) (t : State) : Prop where
  only_mem : t = { pop s rest with mem := t.mem }
  bytes : ∀ k < n, byteAt t.mem (a + k) = v.extractLsb' (8 * k) 8
  untouched : Untouched s t (Inside a n)

theorem stores_portStored (hn : n ≤ 4) : Stores s rest a n v (portStored s rest a n v) := by
  have hlen : ((toLE v).take n).length = n := by simp [hn]
  refine ⟨rfl, fun k hk => ?_, fun x hx => ?_⟩
  · simp only [portStored]
    rw [byteAt_memWrite, if_pos (by omega), Nat.add_sub_cancel_left, ← toLE_getD v (by omega)]
    simp [List.getD_eq_getElem?_getD, hk]
  · exact byteAt_memWrite_outside (by rwa [hlen])

/-- A write that reaches no byte of the footprint stores its bytes (20_memory.md R51). -/
theorem step_dmemWrite (hin : s.inbox = .dmemWrite w a v :: rest) (hspan : dmemSpan w a s = .ok n)
    (hfree : ∀ k < n, (activeTable s).inFootprint (a + k) = false) :
    ∃ t, step s = .next t ∧ Stores s rest a n v t := by
  refine ⟨_, ?_, stores_portStored (dmemSpan_le hspan)⟩
  rw [step_eq_runEvent hin]
  simp only [runEvent, hostDmemWrite, show dmemSpan w a (pop s rest) = .ok n from hspan, activeTable_pop]
  exact if_neg (by simpa using hfree)

/-- A write that reaches a byte of the footprint is a fault (20_memory.md R58). -/
theorem step_dmemWrite_fault (hin : s.inbox = .dmemWrite w a v :: rest) (hspan : dmemSpan w a s = .ok n)
    {k : Nat} (hk : k < n) (hfoot : (activeTable s).inFootprint (a + k) = true) :
    step s = .fault .footprintWrite := by
  rw [step_eq_runEvent hin]
  simp only [runEvent, hostDmemWrite, show dmemSpan w a (pop s rest) = .ok n from hspan, activeTable_pop]
  exact if_pos (List.any_eq_true.mpr ⟨k, List.mem_range.mpr hk, hfoot⟩)

/-- While idle no byte is owned. -/
theorem step_dmemWrite_of_idle (hidle : s.status.busy = false) (hin : s.inbox = .dmemWrite w a v :: rest)
    (hspan : dmemSpan w a s = .ok n) : ∃ t, step s = .next t ∧ Stores s rest a n v t :=
  step_dmemWrite hin hspan fun _ _ => by simp [hidle, OperandTable.inFootprint, OperandTable.allRegions]

end

end Sys2Proof.Machine

namespace Sys2Proof.Proofs

open Sys2Proof.Machine Sys2Proof.Spec

/-- Settles O49: the port's rules while idle (`answers_leWord_of_idle`, `step_dmemWrite_of_idle`), and the bytes of
what the commands read and write. -/
theorem dmemPortStoresWords : Obligations.DmemPortStoresWords := by
  refine ⟨fun s rest a v hidle => ⟨fun h4 h => ⟨fun hin => ?_, fun hin => ?_, fun hin => ?_⟩,
    fun h => ⟨fun hin => ?_, fun hin => ?_⟩⟩, fun m a n => ?_, fun ws => ?_⟩
  · exact answers_leWord_of_idle hidle hin h4 h
  · obtain ⟨t, hstep, hmem, hbytes, hout⟩ := step_dmemWrite_of_idle hidle hin (dmemSpan_b32 h4 h)
    exact ⟨t, hstep, hmem, hbytes, hout⟩
  · obtain ⟨t, hstep, hmem, hbytes, hout⟩ := step_dmemWrite_of_idle hidle hin (dmemSpan_b32 h4 h)
    have hread : Answers (step t) v (pop t rest) := by
      rw [← leWord_eq_of_bytes hbytes]
      exact answers_leWord_of_idle (by rw [hmem]; exact hidle) (by rw [hmem]; rfl) h4 (by rw [hmem]; exact h)
    obtain ⟨d, hread⟩ := hread
    exact ⟨t, _, hstep, hread, by rw [hmem]; rfl, rfl, hbytes, hout⟩
  · rw [← hostByte_of_idle hidle]
    exact answers_dmemRead_b8 hin h
  · obtain ⟨t, hstep, hmem, hbytes, hout⟩ := step_dmemWrite_of_idle hidle hin (dmemSpan_b8 h)
    exact ⟨t, hstep, hmem, hbytes 0 Nat.one_pos, hout⟩
  · exact ⟨wordAt_eq_leWord m a, memRead_length m a n, fun _ => memRead_getD m a, readWords_length m a n,
      fun _ => nth_readWords m a⟩
  · exact ⟨wordsOf_bytesOf ws, bytesOf_length ws, fun _ hi _ => bytesOf_getD ws hi⟩

/-- Settles O50: the port admits no such access (`dmemSpan_error`), whether it reads or writes. -/
theorem badDmemAccessesAreRefused : Obligations.BadDmemAccessesAreRefused := by
  intro s rest w a v h
  obtain ⟨e, hspan⟩ := dmemSpan_error h
  exact ⟨fun hin => ⟨e, step_dmemRead_refused hin hspan⟩, fun hin => ⟨e, step_dmemWrite_refused hin hspan⟩⟩

end Sys2Proof.Proofs
end

section
/-! The regions of every operand table against the lists of each command's own rule (20_memory.md R56), and what a
completion leaves outside them. -/

namespace Sys2Proof.Machine

open Sys2Proof.Spec

/-! ### The regions of the operand tables -/

section
variable (l : Latch) (i : Fin 12) (n a : Nat) (b : Bool)

@[simp] theorem inputAt_use : (inputAt l i n b).use = .input := rfl
@[simp] theorem resultAt_use : (resultAt l i n b).use = .result := rfl
@[simp] theorem scratchOf_use : (scratchOf l n).use = .scratch := rfl
@[simp] theorem inputAt_has : (inputAt l i n b).has a = true ↔ Inside (l.arg i) n a := Region.has_iff
@[simp] theorem resultAt_has : (resultAt l i n b).has a = true ↔ Inside (l.arg i) n a := Region.has_iff
@[simp] theorem scratchOf_has : (scratchOf l n).has a = true ↔ Inside l.sbase n a := Region.has_iff

end

/-- `a` lies in an input region of the table. -/
def OperandTable.Reads (t : OperandTable) (a : Nat) : Prop := ∃ r ∈ t.regions, r.use = .input ∧ r.has a = true

namespace OperandTable

variable {t : OperandTable} {a : Nat}

theorem mayWrite_iff : t.mayWrite a = true ↔ ∃ r ∈ t.allRegions, r.use ≠ .input ∧ r.has a = true := by
  simp [mayWrite]

/-- A footprint is its input bytes and the bytes the command may write, where the scratch region is no input. -/
theorem inFootprint_iff (hs : ∀ r ∈ t.scratch, r.use = .scratch) :
    t.inFootprint a = true ↔ t.Reads a ∨ t.mayWrite a = true := by
  rw [mayWrite_iff, inFootprint, List.any_eq_true]
  constructor
  · rintro ⟨r, hr, ha⟩
    by_cases huse : r.use = .input
    · rcases List.mem_append.mp hr with hreg | hscr
      · exact .inl ⟨r, hreg, huse, ha⟩
      · rw [hs r (Option.mem_toList.mp hscr)] at huse
        cases huse
    · exact .inr ⟨r, hr, huse, ha⟩
  · rintro (⟨r, hr, _, ha⟩ | ⟨r, hr, _, ha⟩)
    · exact ⟨r, List.mem_append_left _ hr, ha⟩
    · exact ⟨r, hr, ha⟩

end OperandTable

/-- The table's input bytes, its result and scratch bytes are those given, and its scratch region is used as one. -/
structure OperandTable.Lists (t : OperandTable) (input output : Nat → Prop) : Prop where
  reads : ∀ a, t.Reads a ↔ input a
  mayWrite : ∀ a, t.mayWrite a = true ↔ output a
  scratch : ∀ r ∈ t.scratch, r.use = .scratch

section
open OperandTable
variable (l : Latch)

theorem coreTable_lists : (coreTable l).Lists (Inside (l.arg 0) 64) (Inside (l.arg 1) 64) := by
  constructor <;> simp [Reads, mayWrite_iff, allRegions, coreTable]

theorem blockTable_lists :
    (blockTable l).Lists (Inside (l.arg 0) (128 * l.arg 2)) (Inside (l.arg 1) (128 * l.arg 2)) := by
  constructor <;> simp [Reads, mayWrite_iff, allRegions, blockTable]

theorem romixTable_lists (need : Nat) :
    (romixTable l need).Lists (Inside (l.arg 0) (128 * l.arg 2))
      (fun a => Inside (l.arg 1) (128 * l.arg 2) a ∨ Inside l.sbase need a) := by
  constructor <;> simp [Reads, mayWrite_iff, allRegions, romixTable]

theorem powTable_lists (k : Nat) :
    (powTable l k).Lists (Inside (l.arg 0) (80 * k))
      (fun a => Inside (l.arg 2) (32 * k) a ∨ Inside l.sbase (laneBytes * k) a) := by
  constructor <;> simp [Reads, mayWrite_iff, allRegions, powTable]

/-- Every table lists the regions of its command's own rule. -/
theorem operandTable_lists (i : Instr) : (operandTable i l).Lists (InputByte i l) (OutputByte i l) := by
  cases i with
  | salsaCore _ | chachaCore _ => exact coreTable_lists l
  | blockmixS _ | blockmixC _ | shuffle | unshuffle => exact blockTable_lists l
  | romixS _ | romixC _ => exact romixTable_lists l _
  | romix2 _ =>
    have hlists := romixTable_lists l (2 * (128 * l.arg 2 * l.arg 3))
    exact ⟨hlists.reads, fun a => (hlists.mayWrite a).trans (by simp only [OutputByte, Nat.mul_assoc]),
      hlists.scratch⟩
  | powhash => exact powTable_lists l 1
  | powhash3 => exact powTable_lists l 3
  | powhash4 => exact powTable_lists l 4
  | blkxor =>
    constructor <;> simp [Reads, mayWrite_iff, allRegions, operandTable, blkxorTable, InputByte, OutputByte]
  | hmacInit =>
    constructor <;> simp [Reads, mayWrite_iff, allRegions, operandTable, hmacInitTable, InputByte, OutputByte]
  | pbkdf2Blk =>
    constructor <;> simp [Reads, mayWrite_iff, allRegions, operandTable, pbkdf2BlkTable, InputByte, OutputByte]
  | pbkdf2 =>
    constructor <;> simp [Reads, mayWrite_iff, allRegions, operandTable, pbkdf2Table, InputByte, OutputByte]
  | scrypt =>
    constructor <;> simp [Reads, mayWrite_iff, allRegions, operandTable, scryptTable, InputByte, OutputByte]

theorem mayWrite_iff_outputByte (i : Instr) (a : Nat) :
    (operandTable i l).mayWrite a = true ↔ OutputByte i l a := (operandTable_lists l i).mayWrite a

theorem inFootprint_iff_footprintByte (i : Instr) (a : Nat) :
    (operandTable i l).inFootprint a = true ↔ FootprintByte i l a := by
  obtain ⟨hreads, hwrites, hscratch⟩ := operandTable_lists l i
  rw [inFootprint_iff hscratch, hreads, hwrites, FootprintByte]

end

/-! ### The bytes a completion leaves alone -/

/-- Writes in the results and the scratch of a table leave every other byte as it is. -/
theorem WritesInside.untouched {t : OperandTable} {ws : List (Nat × List Byte)} (h : WritesInside t ws) {a : Nat}
    (ha : ¬ t.mayWrite a = true) (m : Memory) : byteAt (memWrites m ws) a = byteAt m a := by
  refine byteAt_memWrites_outside fun w hw hin => ha ?_
  rcases h w hw with hnil | ⟨r, hr, huse, hbase, hend⟩
  · rw [hnil, List.length_nil] at hin
    omega
  · exact OperandTable.mayWrite_iff.mpr ⟨r, hr, huse, Region.has_iff.mpr ⟨by omega, by omega⟩⟩

end Sys2Proof.Machine

namespace Sys2Proof.Proofs

open Sys2Proof.Machine Sys2Proof.Spec

/-- Settles O58: each write of a completion lies in a result or the scratch region (`resultsOf_inside`), and the
operand tables list the regions of the rules (`operandTable_lists`). -/
theorem commandsWriteOnlyTheirFootprint : Obligations.CommandsWriteOnlyTheirFootprint := by
  refine ⟨fun i s hb => ⟨_, exec_busy i hb, fun a ha => ?_⟩, fun i l a =>
    ⟨mayWrite_iff_outputByte l i a, inFootprint_iff_footprintByte l i a⟩⟩
  rw [← mayWrite_iff_outputByte] at ha
  exact (resultsOf_inside i s).untouched ha s.mem

end Sys2Proof.Proofs
end

section
/-! The DMEM port while a command executes (20_memory.md R58; 70_reset_and_hazards.md R242): the footprint of the
active table is the one its command's rule lists. -/

namespace Sys2Proof.Machine

open Sys2Proof.Spec

section
variable {s : State} {i : Instr} {rest : List Event} {w : Width} {a n : Nat} {v : Word}

theorem inFootprint_active_iff (hb : s.status.busy = true) (hi : decode s.latch.cmd = .ok i) (a : Nat) :
    (activeTable s).inFootprint a = true ↔ FootprintByte i s.latch a := by
  rw [activeTable_busy hb (executing_eq_some.mpr hi), inFootprint_iff_footprintByte]

theorem hostByte_of_not_outputByte (hb : s.status.busy = true) (hi : decode s.latch.cmd = .ok i)
    (ha : ¬ OutputByte i s.latch a) : hostByte s a = byteAt s.mem a := by
  rw [← mayWrite_iff_outputByte, ← activeTable_busy hb (executing_eq_some.mpr hi)] at ha
  exact hostByte_of_not_mayWrite (Bool.eq_false_of_not_eq_true ha)

theorem step_dmemWrite_in_footprint (hb : s.status.busy = true) (hi : decode s.latch.cmd = .ok i)
    (hin : s.inbox = .dmemWrite w a v :: rest) (hspan : dmemSpan w a s = .ok n)
    (hfoot : ∃ k < n, FootprintByte i s.latch (a + k)) : step s = .fault .footprintWrite := by
  obtain ⟨k, hk, hfoot⟩ := hfoot
  exact step_dmemWrite_fault hin hspan hk ((inFootprint_active_iff hb hi _).mpr hfoot)

theorem step_dmemWrite_outside_footprint (hb : s.status.busy = true) (hi : decode s.latch.cmd = .ok i)
    (hin : s.inbox = .dmemWrite w a v :: rest) (hspan : dmemSpan w a s = .ok n)
    (hfree : ∀ k < n, ¬ FootprintByte i s.latch (a + k)) : ∃ t, step s = .next t ∧ Stores s rest a n v t :=
  step_dmemWrite hin hspan fun k hk =>
    Bool.eq_false_of_not_eq_true (mt (inFootprint_active_iff hb hi _).mp (hfree k hk))

end

end Sys2Proof.Machine

namespace Sys2Proof.Proofs

open Sys2Proof.Machine Sys2Proof.Spec

/-- Settles O51: a write by whether it reaches the footprint (`step_dmemWrite_in_footprint`,
`step_dmemWrite_outside_footprint`), a read byte by byte (`hostByte_of_not_outputByte`). -/
theorem footprintIsOwnedWhileBusy : Obligations.FootprintIsOwnedWhileBusy := by
  intro s i rest a v hb hi
  refine ⟨fun h => ⟨fun hin => ⟨fun hfoot => ?_, fun hfree => ?_⟩, fun hin => ?_⟩,
    fun h4 h => ⟨fun hin => ⟨fun hfoot => ?_, fun hfree => ?_⟩, fun hin => ?_⟩⟩
  · exact step_dmemWrite_in_footprint hb hi hin (dmemSpan_b8 h) ⟨0, Nat.one_pos, hfoot⟩
  · obtain ⟨t, hstep, hmem, hbytes, hout⟩ := step_dmemWrite_outside_footprint hb hi hin (dmemSpan_b8 h)
      fun k hk => Nat.lt_one_iff.mp hk ▸ hfree
    exact ⟨t, hstep, hmem, hbytes 0 Nat.one_pos, hout⟩
  · exact ⟨_, answers_dmemRead_b8 hin h, hostByte_of_not_outputByte hb hi⟩
  · exact step_dmemWrite_in_footprint hb hi hin (dmemSpan_b32 h4 h) hfoot
  · obtain ⟨t, hstep, hmem, hbytes, hout⟩ := step_dmemWrite_outside_footprint hb hi hin (dmemSpan_b32 h4 h) hfree
    exact ⟨t, hstep, hmem, hbytes, hout⟩
  · refine ⟨_, answers_dmemRead_b32 hin h4 h, fun k hk ha => ?_⟩
    rw [← hostByte_of_not_outputByte hb hi ha]
    exact le32_extractLsb' (fun k => hostByte s (a + k)) hk

end Sys2Proof.Proofs
end

section
/-! Two runs of one command (20_memory.md R57; 40_command_protocol.md R98): its results are computed from the latches,
the pad states and its input bytes, and its writes cover every result and scratch byte. -/

namespace Sys2Proof.Machine

open Sys2Proof.Spec

/-! ### The results are a function of the inputs -/

/-- The two memories hold the same bytes in the region `(a, n)`. -/
abbrev SameBytes (m m' : Memory) (a n : Nat) : Prop := ∀ x, Inside a n x → byteAt m' x = byteAt m x

/-- The two states have the same latches and pad states. -/
structure SameOperands (s s' : State) : Prop where
  latch : s'.latch = s.latch
  ist : s'.ist = s.ist
  ost : s'.ost = s.ost

theorem memRead_congr {m m' : Memory} {a n : Nat} (h : SameBytes m m' a n) : memRead m' a n = memRead m a n := by
  refine List.map_congr_left fun k hk => h (a + k) ?_
  rw [List.mem_range] at hk
  omega

theorem readWords_congr {m m' : Memory} {a n : Nat} (h : SameBytes m m' a (4 * n)) :
    readWords m' a n = readWords m a n := by
  rw [readWords_eq_wordsOf, readWords_eq_wordsOf, memRead_congr h]

namespace SameOperands

variable {s s' : State} (h : SameOperands s s')
include h

theorem writing_eq (ws : List (Nat × List Byte)) : Results.writing s' ws = Results.writing s ws := by
  rw [Results.writing, Results.writing, h.ist, h.ost]

theorem blockAt_eq {i : Fin 12} (hin : SameBytes s.mem s'.mem (s.latch.arg i) (128 * s.latch.arg 2)) :
    blockAt s' i = blockAt s i := by
  rw [blockAt, blockAt, h.latch]
  exact readWords_congr (by rwa [← Nat.mul_assoc])

theorem bytesAt_eq {i j : Fin 12} (hin : SameBytes s.mem s'.mem (s.latch.arg i) (s.latch.arg j)) :
    bytesAt s' i j = bytesAt s i j := by
  rw [bytesAt, bytesAt, h.latch, memRead_congr hin]

theorem headerAt_eq {k l : Nat} (hin : SameBytes s.mem s'.mem (s.latch.arg 0) (80 * k)) (hl : l < k) :
    headerAt s' l = headerAt s l := by
  rw [headerAt, headerAt, h.latch]
  exact memRead_congr fun x hx => hin x (by omega)

theorem coreResults_eq (alg : Alg) (f : BitVec 6) (hin : SameBytes s.mem s'.mem (s.latch.arg 0) 64) :
    coreResults alg f s' = coreResults alg f s := by
  rw [coreResults, coreResults, h.writing_eq, h.latch, readWords_congr hin]

theorem romixResults_eq (alg : Alg) (f : BitVec 6)
    (hin : SameBytes s.mem s'.mem (s.latch.arg 0) (128 * s.latch.arg 2)) :
    romixResults alg f s' = romixResults alg f s := by
  simp only [romixResults, h.writing_eq, h.latch, h.blockAt_eq hin]

theorem powResults_eq (F : Compress) {k : Nat} (hk : 0 < k) (hin : SameBytes s.mem s'.mem (s.latch.arg 0) (80 * k)) :
    powResults F k s' = powResults F k s := by
  have hlanes : ∀ l ∈ List.range k, laneWrites F s' l = laneWrites F s l := fun l hl => by
    simp only [laneWrites, h.latch, h.headerAt_eq hin (List.mem_range.mp hl)]
  simp only [powResults, List.flatMap_congr hlanes, h.headerAt_eq hin (Nat.sub_one_lt_of_lt hk)]

/-- What a command computes depends on its latches, the pad states and its input bytes alone. -/
theorem resultsOf_eq {i : Instr} (hin : ∀ a, InputByte i s.latch a → byteAt s'.mem a = byteAt s.mem a) :
    resultsOf i s' = resultsOf i s := by
  cases i with
  | salsaCore f | chachaCore f => exact h.coreResults_eq _ f hin
  | blockmixS f | blockmixC f =>
    simp only [resultsOf, blockmixResults, h.writing_eq, h.latch, h.blockAt_eq hin]
  | shuffle => simp only [resultsOf, shuffleResults, h.writing_eq, h.latch, h.blockAt_eq hin]
  | unshuffle => simp only [resultsOf, unshuffleResults, h.writing_eq, h.latch, h.blockAt_eq hin]
  | blkxor =>
    simp only [resultsOf, blkxorResults, h.writing_eq, h.latch, h.blockAt_eq fun a ha => hin a (.inl ha),
      h.blockAt_eq fun a ha => hin a (.inr ha)]
  | romixS f | romixC f => exact h.romixResults_eq _ f hin
  | romix2 f => simp only [resultsOf, romix2Results, h.writing_eq, h.latch, h.blockAt_eq hin]
  | hmacInit => simp only [resultsOf, hmacInitResults, h.writing_eq, h.bytesAt_eq hin]
  | pbkdf2Blk =>
    simp only [resultsOf, pbkdf2BlkResults, h.writing_eq, h.latch, h.ist, h.ost, h.bytesAt_eq hin]
  | pbkdf2 =>
    simp only [resultsOf, pbkdf2Results, h.writing_eq, h.latch, h.bytesAt_eq fun a ha => hin a (.inl ha),
      h.bytesAt_eq fun a ha => hin a (.inr ha)]
  | scrypt =>
    simp only [resultsOf, scryptResults, h.latch, h.bytesAt_eq fun a ha => hin a (.inl ha),
      h.bytesAt_eq fun a ha => hin a (.inr ha)]
  | powhash | powhash3 | powhash4 => exact h.powResults_eq _ (by decide) hin

end SameOperands

/-! ### The writes cover the results and the scratch -/

/-- One of the writes holds the byte `a`. -/
def Covers (ws : List (Nat × List Byte)) (a : Nat) : Prop := ∃ w ∈ ws, Inside w.1 w.2.length a

/-- A covered byte holds the same value whatever memory is written to. -/
theorem Covers.byteAt_memWrites {ws : List (Nat × List Byte)} {a : Nat} (h : Covers ws a) (m m' : Memory) :
    byteAt (memWrites m' ws) a = byteAt (memWrites m ws) a := by
  induction ws generalizing m m' with
  | nil =>
    obtain ⟨w, hw, _⟩ := h
    cases hw
  | cons w ws ih =>
    rw [memWrites_cons, memWrites_cons]
    by_cases hrest : Covers ws a
    · exact ih hrest _ _
    · have hout : ∀ y ∈ ws, ¬ Inside y.1 y.2.length a := fun y hy hya => hrest ⟨y, hy, hya⟩
      have hw : Inside w.1 w.2.length a := by
        obtain ⟨y, hy, hya⟩ := h
        rcases List.mem_cons.mp hy with rfl | hy
        · exact hya
        · exact absurd hya (hout y hy)
      rw [byteAt_memWrites_outside hout, byteAt_memWrites_outside hout, byteAt_memWrite, byteAt_memWrite, if_pos hw,
        if_pos hw]

section
variable {w : Nat × List Byte} {ws : List (Nat × List Byte)} {n a : Nat}

theorem Covers.head (hlen : w.2.length = n) (ha : Inside w.1 n a) : Covers (w :: ws) a :=
  ⟨w, List.mem_cons_self, hlen.symm ▸ ha⟩

theorem Covers.tail (h : Covers ws a) : Covers (w :: ws) a := by
  obtain ⟨y, hy, ha⟩ := h
  exact ⟨y, List.mem_cons_of_mem _ hy, ha⟩

end

/-- A region of `n + m` bytes is one of `n` bytes and one of `m` after it. -/
theorem inside_add {b n m a : Nat} : Inside b (n + m) a ↔ Inside b n a ∨ Inside (b + n) m a := by omega

theorem block_bytes_length {ws : List Word} {r : Nat} (h : ws.length = 32 * r) : (bytesOf ws).length = 128 * r := by
  rw [bytesOf_length, h]; omega

/-- The table the driver leaves, where it mixes a sub-block at all (45_drivers.md R180). -/
theorem scryptMix_last_table_length (F : Compress) (P S : List Byte) {N r p : Nat} (hN : N ≤ 2 ^ 32) (hp : p ≠ 0)
    (d : RomixRun) : (tableBytes ((scryptMix F P S N r p).getLastD d).table).length = 128 * r * N := by
  have hruns := scryptRuns_blocks (N := N) (pbkdf2_length F P S 1 (128 * r * p)) hN
  rcases List.eq_nil_or_concat (scryptMix F P S N r p) with hnil | ⟨init, last, hlast⟩
  · have hlen := scryptRuns_length (pbkdf2 F P S 1 (128 * r * p)) N r p
    rw [← scryptMix, hnil] at hlen
    exact absurd hlen.symm hp
  · rw [← scryptMix, hlast] at hruns
    rw [hlast, List.concat_eq_append, List.getLastD_concat]
    exact (hruns last (by simp)).2

theorem scryptMix_mixedBytes_length (F : Compress) (P S : List Byte) {N r p : Nat} (hN : N ≤ 2 ^ 32) :
    (mixedBytes (scryptMix F P S N r p)).length = 128 * r * p := by
  have hruns := scryptRuns_blocks (N := N) (pbkdf2_length F P S 1 (128 * r * p)) hN
  rw [scryptMix, mixedBytes_length fun run hrun => (hruns run hrun).1, scryptRuns_length]

section
variable {s : State} {a : Nat}

theorem blockResult_covers {b r : Nat} {ws : List Word} (hlen : ws.length = 32 * r)
    (ha : Inside b (128 * r) a) : Covers [(b, bytesOf ws)] a := .head (block_bytes_length hlen) ha

theorem coreResults_covers (alg : Alg) (f : BitVec 6) (ha : Inside (s.latch.arg 1) 64 a) :
    Covers (coreResults alg f s).writes a := .head (by simp) ha

theorem romixResults_covers (alg : Alg) (f : BitVec 6)
    (ha : Inside (s.latch.arg 1) (128 * s.latch.arg 2) a ∨
      Inside s.latch.sbase (128 * s.latch.arg 2 * s.latch.arg 3) a) :
    Covers (romixResults alg f s).writes a := by
  rcases ha with hresult | hscratch
  · exact .tail (blockResult_covers (roMix_x_length (blockAt_length s 0) (s.latch.arg_le 3)) hresult)
  · exact .head (roMix_tableBytes_length (blockAt_length s 0)) hscratch

theorem romix2Results_covers (f : BitVec 6)
    (ha : Inside (s.latch.arg 1) (128 * s.latch.arg 2) a ∨
      Inside s.latch.sbase (2 * 128 * s.latch.arg 2 * s.latch.arg 3) a) :
    Covers (romix2Results f s).writes a := by
  have hneed : 2 * 128 * s.latch.arg 2 * s.latch.arg 3 =
      128 * s.latch.arg 2 * s.latch.arg 3 + 128 * s.latch.arg 2 * s.latch.arg 3 := by
    simp only [← Nat.two_mul, Nat.mul_assoc]
  rw [hneed, inside_add] at ha
  have hx (alg : Alg) := roMix_x_length (alg := alg) (R := roundCount f) (blockAt_length s 0) (s.latch.arg_le 3)
  rcases ha with hresult | hsalsa | hchacha
  · exact .tail (.tail (blockResult_covers (by rw [xorWords_length, hx, hx, Nat.min_self]) hresult))
  · exact .head (roMix_tableBytes_length (blockAt_length s 0)) hsalsa
  · exact .tail (.head (roMix_tableBytes_length (blockAt_length s 0)) hchacha)

theorem scryptResults_covers (F : Compress) (hp : s.latch.arg 6 ≠ 0)
    (ha : Inside (s.latch.arg 7) (s.latch.arg 8) a ∨
      Inside s.latch.sbase (128 * s.latch.arg 5 * (s.latch.arg 6 + s.latch.arg 4)) a) :
    Covers (scryptResults F s).writes a := by
  rw [Nat.mul_add, inside_add] at ha
  rcases ha with hkey | hmixed | htable
  · exact .tail (.tail (.head (pbkdf2_length ..) hkey))
  · exact .head (scryptMix_mixedBytes_length _ _ _ (s.latch.arg_le 4)) hmixed
  · exact .tail (.head (scryptMix_last_table_length _ _ _ (s.latch.arg_le 4) hp _) htable)

/-- Lane `l` covers part `l` of the results and of the scratch (45_drivers.md R185). -/
theorem powResults_covers (F : Compress) (k : Nat)
    (ha : Inside (s.latch.arg 2) (32 * k) a ∨ Inside s.latch.sbase (laneBytes * k) a) :
    Covers (powResults F k s).writes a := by
  have hlane : ∀ l < k, Covers (laneWrites F s l) a → Covers (powResults F k s).writes a := by
    rintro l hl ⟨w, hw, ha⟩
    exact ⟨w, List.mem_flatMap.mpr ⟨l, List.mem_range.mpr hl, hw⟩, ha⟩
  rcases ha with hdigest | hscratch
  · exact hlane ((a - s.latch.arg 2) / 32) (by omega) (.tail (.head (powDigest_length ..) (by dsimp only; omega)))
  · rw [laneBytes] at hscratch
    refine hlane ((a - s.latch.sbase) / 131200) (by omega) (.head (n := 131200) ?_ ?_)
    · simp [powMix_x_length, powMix_tableBytes_length]
    · dsimp only [laneBytes]; omega

end

/-- A command that passed its checks has no zero among its nonzero parameters (40_command_protocol.md R94). -/
theorem nonzero_of_check {p : Params} {l : Latch} {t : OperandTable} (h : check p l t = none) :
    ∀ i ∈ t.nonzero, l.arg i ≠ 0 := by
  obtain ⟨hzero, _⟩ := (check_eq_none p l t).mp h
  intro i hi h0
  have hpass := List.findSome?_eq_none_iff.mp hzero i hi
  rw [if_pos h0] at hpass
  cases hpass

/-- A command that passed its checks writes every byte of its results and of its scratch. -/
theorem resultsOf_covers {i : Instr} {s : State} (hc : check s.params s.latch (operandTable i s.latch) = none)
    {a : Nat} (ha : OutputByte i s.latch a) : Covers (resultsOf i s).writes a := by
  cases i with
  | salsaCore f | chachaCore f => exact coreResults_covers _ f ha
  | blockmixS f | blockmixC f => exact blockResult_covers (blockMix_length _ _ (blockAt_length s 0)) ha
  | shuffle => exact blockResult_covers (shuffle_length _ _) ha
  | unshuffle => exact blockResult_covers (unshuffle_length (blockAt_length s 0)) ha
  | blkxor => exact blockResult_covers (by simp) ha
  | romixS f | romixC f => exact romixResults_covers _ f ha
  | romix2 f => exact romix2Results_covers f ha
  | hmacInit => exact ha.elim
  | pbkdf2Blk => exact .head (pbkdf2Block_length ..) ha
  | pbkdf2 => exact .head (pbkdf2_length ..) ha
  | scrypt => exact scryptResults_covers _ (nonzero_of_check hc 6 (by simp [operandTable, scryptTable])) ha
  | powhash => exact powResults_covers _ 1 ha
  | powhash3 => exact powResults_covers _ 3 ha
  | powhash4 => exact powResults_covers _ 4 ha

end Sys2Proof.Machine

namespace Sys2Proof.Proofs

open Sys2Proof.Machine Sys2Proof.Spec

/-- Settles O59: the two runs compute the same results (`SameOperands.resultsOf_eq`), whose writes cover every byte
the command may write (`resultsOf_covers`). -/
theorem resultsDependOnInputsAlone : Obligations.ResultsDependOnInputsAlone := by
  intro i s s' hb hb' hlatch hist host hc hin
  have hsame : SameOperands s s' := ⟨hlatch, hist, host⟩
  have hres : resultsOf i s' = resultsOf i s := hsame.resultsOf_eq fun a ha => by
    obtain ⟨r, hr, huse, hra⟩ := ((operandTable_lists s.latch i).reads a).mpr ha
    exact hin r hr huse a hra
  have hx' := exec_busy i hb'
  rw [hres] at hx'
  refine ⟨_, _, exec_busy i hb, hx', rfl, rfl, rfl, rfl, fun a ha => ?_⟩
  exact (resultsOf_covers hc ((mayWrite_iff_outputByte s.latch i a).mp ha)).byteAt_memWrites s.mem s'.mem

end Sys2Proof.Proofs
end

section
/-! The command word (30_encoding.md R70 to R79): a word is its three fields, what every row of the opcode map says of
them, and what the decoder answers in each of its four cases. -/

namespace Sys2Proof

open Sys2Proof.Machine Sys2Proof.Spec

/-! ### The fields of a word -/

/-- A word is its selector, its `ROUNDS` field and its bits 31:16 (30_encoding.md R70). -/
theorem word_eq_iff_fields {v w : Word} :
    v = w ↔ selector v = selector w ∧ roundsBits v = roundsBits w ∧ v.extractLsb' 16 16 = w.extractLsb' 16 16 := by
  refine ⟨by rintro rfl; exact ⟨rfl, rfl, rfl⟩, fun ⟨hsel, hrounds, hhigh⟩ => ?_⟩
  have hfields (u : Word) : u = u.extractLsb' 16 16 ++ (roundsBits u ++ selector u) := by
    rw [roundsBits, selector, BitVec.extractLsb'_append_extractLsb'_eq_extractLsb' (show 10 = 0 + 10 from rfl),
      BitVec.extractLsb'_append_extractLsb'_eq_extractLsb' (show 16 = 0 + (6 + 10) from rfl)]
    exact BitVec.extractLsb'_eq_self.symm
  rw [hfields v, hfields w, hsel, hrounds, hhigh]

@[simp] theorem selector_and (v w : Word) : selector (v &&& w) = selector v &&& selector w := BitVec.extractLsb'_and
@[simp] theorem roundsBits_and (v w : Word) : roundsBits (v &&& w) = roundsBits v &&& roundsBits w :=
  BitVec.extractLsb'_and

/-- Bit 10 of the word is the lowest bit of its `ROUNDS` field. -/
theorem roundsBits_bit0 (w : Word) : (roundsBits w).getLsbD 0 = w.getLsbD 10 := by
  simp [roundsBits]

/-- The reserved bits of 30_encoding.md R75, said of the fields. -/
theorem not_strayBit_iff {w : Word} :
    ¬StrayBit w ↔ w.extractLsb' 16 16 = 0 ∧ (selector w ∉ roundsSelectors → roundsBits w = 0) := by
  rw [show StrayBit w ↔ w.extractLsb' 16 16 ≠ 0 ∨ selector w ∉ roundsSelectors ∧ roundsBits w ≠ 0 from Iff.rfl]
  simp only [not_or, not_and, not_not]

/-! ### The rows of the opcode map -/

/-- A selector is known exactly when a row carries it. -/
theorem mem_knownSelectors {q : BitVec 10} : q ∈ knownSelectors ↔ ∃ row ∈ rows, selector row.pattern = q := by
  rw [show knownSelectors = rows.map (selector ·.pattern) by decide, List.mem_map]

/-- The rows that use `ROUNDS` are rows of the map. -/
theorem mem_knownSelectors_of_rounds {q : BitVec 10} (h : q ∈ roundsSelectors) : q ∈ knownSelectors :=
  (show roundsSelectors.Sublist knownSelectors by decide).subset h

/-- The rows have different selectors. -/
theorem row_eq_of_selector {a b : Row} (ha : a ∈ rows) (hb : b ∈ rows)
    (h : selector a.pattern = selector b.pattern) : a = b :=
  List.inj_on_of_nodup_map (f := (selector ·.pattern)) (l := rows) (by decide) ha hb h

/-- The row the decoder takes is the one with the word's selector. -/
theorem find_row {row : Row} (hrow : row ∈ rows) {w : Word} (hsel : selector row.pattern = selector w) :
    rows.find? (fun row => selector row.pattern == selector w) = some row := by
  cases hfind : rows.find? (fun row => selector row.pattern == selector w) with
  | none => exact absurd (beq_iff_eq.mpr hsel) (List.find?_eq_none.mp hfind row hrow)
  | some other =>
    have hother : selector other.pattern = selector w := by simpa using List.find?_some hfind
    rw [row_eq_of_selector (List.mem_of_find?_eq_some hfind) hrow (hother.trans hsel.symm)]

/-- What 30_encoding.md R71 says of each row: nothing but the selector stands in its `match`, its mask leaves out the
`ROUNDS` field exactly where the row uses it, and the rows that use it are the listed ones. -/
theorem row_bits {row : Row} (h : row ∈ rows) :
    roundsBits row.pattern = 0 ∧ row.pattern.extractLsb' 16 16 = 0 ∧
    row.mask = (if row.usesRounds then roundsMask else fullMask) ∧
    (row.usesRounds = true ↔ selector row.pattern ∈ roundsSelectors) := by
  revert row; decide

/-- The command of a row has the row's `match`. -/
theorem row_make_pattern {row : Row} (h : row ∈ rows) (f : BitVec 6) : (row.make f).pattern = row.pattern := by
  revert row; simp [rows, Instr.pattern]

/-- The command of a row keeps the `ROUNDS` field exactly where the row uses it. -/
theorem row_make_roundsField {row : Row} (h : row ∈ rows) (f : BitVec 6) :
    (row.make f).roundsField = if row.usesRounds then some f else none := by
  revert row; simp [rows, Instr.roundsField]

/-- Every command is made by a row from its own `ROUNDS` field. -/
theorem Instr.exists_row (i : Instr) : ∃ row ∈ rows, row.make (i.roundsField.getD 0) = i := by
  cases i <;> simp [rows, Instr.roundsField]

/-- The command of a row is well-formed unless the row uses `ROUNDS` and the field is odd (30_encoding.md R73). -/
theorem row_make_wf {row : Row} (h : row ∈ rows) (f : BitVec 6) :
    (row.make f).wf = true ↔ (row.usesRounds = true → f.getLsbD 0 = false) := by
  rw [Instr.wf, row_make_roundsField h f]
  cases row.usesRounds <;> simp

/-- The test against the row's mask is the test for reserved bits (30_encoding.md R75). -/
theorem masked_eq_pattern_iff {row : Row} (hrow : row ∈ rows) {w : Word} (hsel : selector row.pattern = selector w) :
    w &&& row.mask = row.pattern ↔ ¬StrayBit w := by
  obtain ⟨hrounds, hhigh, hmask, huses⟩ := row_bits hrow
  rw [hsel] at huses
  rw [word_eq_iff_fields, not_strayBit_iff, selector_and, roundsBits_and, BitVec.extractLsb'_and, hsel, hrounds, hhigh,
    hmask, ← huses]
  cases row.usesRounds with
  | true =>
    rw [if_pos rfl, show selector roundsMask = .allOnes 10 by decide, show roundsBits roundsMask = 0#6 by decide,
      show roundsMask.extractLsb' 16 16 = .allOnes 16 by decide]
    simp only [BitVec.and_allOnes, BitVec.and_zero, BitVec.ofNat_eq_ofNat, true_and, not_true_eq_false, false_implies,
      and_true]
  | false =>
    rw [if_neg Bool.false_ne_true, show selector fullMask = .allOnes 10 by decide,
      show roundsBits fullMask = .allOnes 6 by decide, show fullMask.extractLsb' 16 16 = .allOnes 16 by decide]
    simp only [BitVec.and_allOnes, true_and, Bool.false_eq_true, not_false_eq_true, true_implies, and_comm]

/-! ### The decoder's four cases (30_encoding.md R75) -/

section
variable {w : Word}

theorem decode_illegal (h : selector w ∉ knownSelectors) : decode w = .error .illegal := by
  have hfind : rows.find? (fun row => selector row.pattern == selector w) = none :=
    List.find?_eq_none.mpr fun row hrow heq => h (mem_knownSelectors.mpr ⟨row, hrow, beq_iff_eq.mp heq⟩)
  rw [decode, hfind]

variable {row : Row} (hrow : row ∈ rows) (hsel : selector row.pattern = selector w)
include hrow hsel

theorem decode_reserved (h : StrayBit w) : decode w = .error .reserved := by
  rw [decode, find_row hrow hsel]
  exact if_pos fun heq => (masked_eq_pattern_iff hrow hsel).mp heq h

theorem decode_of_not_strayBit (h : ¬StrayBit w) :
    decode w =
      if row.usesRounds && (roundsBits w).getLsbD 0 then .error .rounds else .ok (row.make (roundsBits w)) := by
  rw [decode, find_row hrow hsel]
  exact if_neg (not_not.mpr ((masked_eq_pattern_iff hrow hsel).mpr h))

theorem decode_rounds (h : ¬StrayBit w) (huses : row.usesRounds = true) (hodd : w.getLsbD 10 = true) :
    decode w = .error .rounds := by
  rw [decode_of_not_strayBit hrow hsel h, roundsBits_bit0, huses, hodd]
  rfl

theorem decode_ok (h : ¬StrayBit w) (heven : row.usesRounds = true → w.getLsbD 10 = false) :
    decode w = .ok (row.make (roundsBits w)) := by
  rw [decode_of_not_strayBit hrow hsel h, roundsBits_bit0]
  exact if_neg (by simpa using heven)

end

/-- Everything the decoder can answer. -/
theorem decode_cases (w : Word) :
    (selector w ∉ knownSelectors ∧ decode w = .error .illegal) ∨
    ∃ row ∈ rows, selector row.pattern = selector w ∧
      (StrayBit w ∧ decode w = .error .reserved ∨
        ¬StrayBit w ∧ row.usesRounds = true ∧ w.getLsbD 10 = true ∧ decode w = .error .rounds ∨
        ¬StrayBit w ∧ (row.usesRounds = true → w.getLsbD 10 = false) ∧ decode w = .ok (row.make (roundsBits w))) := by
  by_cases hknown : selector w ∈ knownSelectors
  · obtain ⟨row, hrow, hsel⟩ := mem_knownSelectors.mp hknown
    refine .inr ⟨row, hrow, hsel, ?_⟩
    by_cases hstray : StrayBit w
    · exact .inl ⟨hstray, decode_reserved hrow hsel hstray⟩
    · by_cases hodd : row.usesRounds = true ∧ w.getLsbD 10 = true
      · exact .inr (.inl ⟨hstray, hodd.1, hodd.2, decode_rounds hrow hsel hstray hodd.1 hodd.2⟩)
      · have heven : row.usesRounds = true → w.getLsbD 10 = false := by simpa using hodd
        exact .inr (.inr ⟨hstray, heven, decode_ok hrow hsel hstray heven⟩)
  · exact .inl ⟨hknown, decode_illegal hknown⟩

/-- The words that decode to a command. -/
theorem decode_eq_ok_iff {w : Word} {i : Instr} :
    decode w = .ok i ↔ ∃ row ∈ rows, selector row.pattern = selector w ∧ ¬StrayBit w ∧
      (row.usesRounds = true → w.getLsbD 10 = false) ∧ row.make (roundsBits w) = i := by
  constructor
  · intro h
    rcases decode_cases w with ⟨_, hd⟩ | ⟨row, hrow, hsel, ⟨_, hd⟩ | ⟨_, _, _, hd⟩ | ⟨hstray, heven, hd⟩⟩
    case inr.inr.inr => exact ⟨row, hrow, hsel, hstray, heven, Except.ok.inj (hd.symm.trans h)⟩
    all_goals cases hd.symm.trans h
  · rintro ⟨row, hrow, hsel, hstray, heven, rfl⟩
    exact decode_ok hrow hsel hstray heven

/-! ### The encoder -/

open Laws in
/-- The fields of every command's word, collected from its constructors. -/
theorem encode_fields (i : Instr) : EncodeFields.Statement i := by
  cases i with
  | salsaCore f => exact EncodeFields.salsaCore f
  | chachaCore f => exact EncodeFields.chachaCore f
  | blockmixS f => exact EncodeFields.blockmixS f
  | blockmixC f => exact EncodeFields.blockmixC f
  | shuffle => exact EncodeFields.shuffle
  | unshuffle => exact EncodeFields.unshuffle
  | blkxor => exact EncodeFields.blkxor
  | romixS f => exact EncodeFields.romixS f
  | romixC f => exact EncodeFields.romixC f
  | romix2 f => exact EncodeFields.romix2 f
  | hmacInit => exact EncodeFields.hmacInit
  | pbkdf2Blk => exact EncodeFields.pbkdf2Blk
  | pbkdf2 => exact EncodeFields.pbkdf2
  | scrypt => exact EncodeFields.scrypt
  | powhash => exact EncodeFields.powhash
  | powhash3 => exact EncodeFields.powhash3
  | powhash4 => exact EncodeFields.powhash4

/-- A word encodes the command of a row exactly when it has the row's selector, no reserved bit, and the command's
`ROUNDS` field where the row uses it. -/
theorem encode_make_eq_iff {row : Row} (hrow : row ∈ rows) (f : BitVec 6) (w : Word) :
    encode (row.make f) = w ↔
      selector row.pattern = selector w ∧ ¬StrayBit w ∧ (row.usesRounds = true → roundsBits w = f) := by
  obtain ⟨hsel, hrounds, hhigh⟩ := encode_fields (row.make f)
  obtain ⟨-, -, -, huses⟩ := row_bits hrow
  rw [word_eq_iff_fields, hsel, hrounds, hhigh, row_make_pattern hrow, row_make_roundsField hrow]
  refine and_congr_right fun heq => ?_
  rw [not_strayBit_iff, ← heq, ← huses]
  cases row.usesRounds <;> simp [and_comm, eq_comm]

/-! ### The round count (30_encoding.md R73) -/

theorem roundCount_zero : roundCount 0 = 8 := rfl

theorem roundCount_of_ne_zero {f : BitVec 6} (h : f ≠ 0) : roundCount f = f.toNat := if_neg h

end Sys2Proof

namespace Sys2Proof.Proofs

open Sys2Proof.Machine Sys2Proof.Spec

/-- Settles O1: a word decodes to the command its row makes of its `ROUNDS` field (`decode_eq_ok_iff`), and the words
that encode what a row makes are told by the same fields (`encode_make_eq_iff`). -/
theorem decodeEncodeAgree : Obligations.DecodeEncodeAgree := by
  intro i w
  constructor
  · intro h
    obtain ⟨row, hrow, hsel, hstray, heven, rfl⟩ := decode_eq_ok_iff.mp h
    rw [← roundsBits_bit0] at heven
    exact ⟨(row_make_wf hrow _).mpr heven, (encode_make_eq_iff hrow _ w).mpr ⟨hsel, hstray, fun _ => rfl⟩⟩
  · rintro ⟨hwf, henc⟩
    obtain ⟨row, hrow, hmake⟩ := i.exists_row
    obtain ⟨-, hrounds, -⟩ := encode_fields i
    rw [henc] at hrounds
    rw [← hrounds] at hmake
    subst hmake
    obtain ⟨hsel, hstray, -⟩ := (encode_make_eq_iff hrow _ w).mp henc
    have heven := (row_make_wf hrow _).mp hwf
    rw [roundsBits_bit0] at heven
    exact decode_ok hrow hsel hstray heven

/-- Settles O2: the decoder's cases (`decode_cases`) exclude each other, and each carries the condition of its own
answer. -/
theorem decodeErrorsAreExact : Obligations.DecodeErrorsAreExact := by
  intro w
  change (_ ↔ selector w ∉ knownSelectors) ∧ (_ ↔ selector w ∈ knownSelectors ∧ _) ∧
    (_ ↔ selector w ∈ roundsSelectors ∧ _ ∧ _) ∧ _
  rcases decode_cases w with ⟨hunknown, hd⟩ | ⟨row, hrow, hsel, h⟩
  · have hrounds : selector w ∉ roundsSelectors := mt mem_knownSelectors_of_rounds hunknown
    simp [hd, hunknown, hrounds]
  · have hknown := mem_knownSelectors.mpr ⟨row, hrow, hsel⟩
    obtain ⟨-, -, -, huses⟩ := row_bits hrow
    rw [hsel] at huses
    rcases h with ⟨hstray, hd⟩ | ⟨hstray, hr, hodd, hd⟩ | ⟨hstray, heven, hd⟩
    · simp [hd, hknown, hstray]
    · simp [hd, hknown, hstray, ← huses, hr, hodd]
    · simp only [hd, hknown, hstray, ← huses]
      simpa using heven

/-- Settles O3: each word is the encoding of its command, whose `ROUNDS` field is even. -/
theorem specWordsDecode : Obligations.SpecWordsDecode := by
  have hdecode {i : Instr} {w : Word} (hwf : i.wf = true) (henc : encode i = w) : decode w = .ok i :=
    (decodeEncodeAgree i w).mpr ⟨hwf, henc⟩
  exact ⟨hdecode rfl rfl, hdecode rfl rfl, hdecode rfl rfl, hdecode rfl rfl, hdecode rfl rfl, hdecode rfl rfl,
    hdecode rfl rfl⟩

/-- Settles O4: the field 0 stands for 8, and any other even field is a count from 2 to 62. -/
theorem legalRoundCounts : Obligations.LegalRoundCounts := by
  intro f heven
  by_cases h0 : f = 0
  · subst h0
    simp only [roundCount_zero]
    decide
  · have hpos : f.toNat ≠ 0 := fun h => h0 (BitVec.eq_of_toNat_eq h)
    have hmod : f.toNat % 2 = 0 := by simpa [BitVec.getLsbD, Nat.testBit_zero] using heven
    have h8 : f = 8 ↔ f.toNat = 8 := BitVec.toNat_inj.symm
    rw [roundCount_of_ne_zero h0, h8]
    have hlt := f.isLt
    exact ⟨hmod, by omega, by omega, by simp only [h0, false_or], fun _ => rfl⟩

end Sys2Proof.Proofs
end

section
/-! The `CMD` write of an idle core (40_command_protocol.md R92): the decoded command's step on the latched operands. -/

namespace Sys2Proof.Machine

open Sys2Proof.Spec

section
variable {s : State} {w : Word} {rest : List Event} (hidle : s.status.busy = false)
  (hin : s.inbox = .regWrite .b32 (s.params.base + 0x014) w :: rest)
include hidle hin

/-- The write of a word that decodes is the step of its command. -/
theorem step_cmdWrite_ok {i : Instr} (hd : decode w = .ok i) : step s = exec i (accepted w (pop s rest)) := by
  rw [step_cmdWrite hin]
  simp only [issueCommand, hidle, hd, Bool.false_eq_true, if_false]
  rfl

/-- The write of a word that does not decode ends with the decoder's error, which names no register. -/
theorem step_cmdWrite_error {e : ErrCode} (hd : decode w = .error e) :
    step s = .next (ended (errBits e) 15 (accepted w (pop s rest))) := by
  rw [step_cmdWrite hin]
  simp only [issueCommand, hidle, hd, Bool.false_eq_true, if_false]
  rfl

end

/-- The inbox of a state with a fetched word begins with the `CMD` write of that word. -/
theorem withFetchWord_inbox (s : State) {w : Nat} (hw : w < 2 ^ 32) :
    (s.withFetchWord 32 w).inbox = .regWrite .b32 (s.params.base + 0x014) (BitVec.ofNat 32 w) :: s.inbox := by
  simp only [State.withFetchWord, Nat.mod_eq_of_lt hw]
  rfl

end Sys2Proof.Machine

namespace Sys2Proof.Proofs

open Sys2Proof.Machine Sys2Proof.Spec

/-- Settles O5: a fetched word is the `CMD` write of an idle state, so both kinds of step are the one rule for an
accepted write. -/
theorem stepRunsIssuedCommand : Obligations.StepRunsIssuedCommand := by
  refine ⟨fun s w rest hin hidle => ⟨fun i hd => ?accepts, fun e hd => ?refuses⟩, fun s w i hd hw => ?fetched,
    fun l i => ⟨rfl, rfl⟩, rfl, rfl, rfl⟩
  case accepts => exact step_cmdWrite_ok hidle hin hd
  case refuses => exact step_cmdWrite_error hidle hin hd
  case fetched => exact step_cmdWrite_ok rfl (withFetchWord_inbox s hw) hd

end Sys2Proof.Proofs
end

section
/-! The command protocol (40_command_protocol.md R90 to R97): the CORE's turn, and the two ends of a `CMD` write. -/

namespace Sys2Proof.Machine

open Sys2Proof.Spec

/-! ### The CORE's turn -/

section
variable {s : State} {i : Instr}

theorem coreTurn_of_idle (hidle : s.status.busy = false) : coreTurn s = .next s := by
  simp only [coreTurn, hidle, Bool.false_eq_true, if_false]

theorem coreTurn_of_busy (hb : s.status.busy = true) (hi : decode s.latch.cmd = .ok i) : coreTurn s = exec i s := by
  simp only [coreTurn, hb, executing_eq_some.mpr hi, if_true]

/-- The CORE moves when no event is left (log 1). -/
theorem step_of_inbox_nil (hin : s.inbox = []) : step s = coreTurn s := by
  simp only [step, nextStep, hin]

theorem step_of_inbox_core {rest : List Event} (hin : s.inbox = .core :: rest) : step s = coreTurn (pop s rest) :=
  step_eq_runEvent hin

/-- What the invariant says of a busy core: its latch holds a command, and no error stands in `STATUS`
(40_command_protocol.md R93; 10_state.md R25). -/
theorem State.Inv.busy_no_error (h : s.Inv) (hb : s.status.busy = true) :
    (∃ i, decode s.latch.cmd = .ok i) ∧ s.status.errcode = 0 ∧ s.status.errarg = 15 := by
  obtain ⟨_, i, hi, _⟩ := h.busy hb
  obtain ⟨_, herr⟩ := h.status.busy_quiet hb
  exact ⟨⟨i, hi⟩, herr, h.status.no_error herr⟩

end

/-! ### The `CMD` write -/

/-- While busy a `CMD` write is dropped (40_command_protocol.md R91). -/
theorem issueCommand_of_busy {s : State} (hb : s.status.busy = true) (w : Word) :
    issueCommand w s = .next (overrun s) := by
  simp only [issueCommand, hb, if_true]

/-- While idle a `CMD` write ends with the error of the decoder or of a check, or starts the command
(40_command_protocol.md R92, R93). -/
theorem issueCommand_of_idle {s : State} (hidle : s.status.busy = false) (w : Word) :
    (∃ e, issueCommand w s = .next (errorEnd e (latchCommand w s))) ∨
    issueCommand w s = .next (beginExec (latchCommand w s)) := by
  rcases issueCommand_cases w s with ⟨hb, _⟩ | ⟨_, e, _, hx⟩ | ⟨_, i, _, hx⟩
  · exact absurd (hidle.symm.trans hb) Bool.false_ne_true
  · exact .inl ⟨_, hx⟩
  · rw [hx]
    rcases exec_cases i (latchCommand w s) with ⟨hb, _⟩ | ⟨_, e, _, hend⟩ | ⟨_, _, _, hstart⟩
    · exact absurd (hidle.symm.trans hb) Bool.false_ne_true
    · exact .inl ⟨e, hend⟩
    · exact .inr hstart

/-- The codes of the errors (60_exceptions.md R200), as an interval. -/
theorem errBits_between (c : ErrCode) : 1 ≤ errBits c ∧ errBits c ≤ 11 := by
  obtain ⟨hne, hle⟩ := errBits_range c
  exact ⟨by bv_omega, hle⟩

end Sys2Proof.Machine

namespace Sys2Proof.Proofs

open Sys2Proof.Machine Sys2Proof.Spec

/-- Settles O7: the step of a `CMD` write is the issue of its word (`step_cmdWrite`), which a busy core drops. -/
theorem cmdWriteWhileBusyIsDropped : Obligations.CmdWriteWhileBusyIsDropped :=
  fun s w rest hin hb => (step_cmdWrite hin).trans (issueCommand_of_busy (s := pop s rest) hb w)

/-- Settles O8: both ends of an idle `CMD` write (`issueCommand_of_idle`) change only `CMD`, the latches and
`STATUS`; every error has a code of 1 to 11. -/
theorem acceptanceStartsOrEnds : Obligations.AcceptanceStartsOrEnds := by
  intro s w rest hin hidle
  rcases issueCommand_of_idle (s := pop s rest) hidle w with ⟨e, hend⟩ | hstart
  · refine ⟨_, (step_cmdWrite hin).trans hend, ?_⟩
    simpa [KeepsPads, hidle] using errBits_between e.code
  · refine ⟨_, (step_cmdWrite hin).trans hstart, ?_⟩
    simp [KeepsPads, noArg]

/-- Settles O57: the invariant has the latch of a busy core hold a command, whose step is its completion
(`exec_busy`), and a completion keeps `ERRCODE` and `ERRARG`. -/
theorem acceptedCommandsComplete : Obligations.AcceptedCommandsComplete := by
  intro s hinv hb hin
  obtain ⟨⟨i, hi⟩, hcode, harg⟩ := hinv.busy_no_error hb
  have hstep : step s = .next (complete (resultsOf i s) s) := by
    rw [step_of_inbox_nil hin, coreTurn_of_busy hb hi, exec_busy i hb]
  exact ⟨_, hstep, rfl, rfl, hcode, harg⟩

/-- Settles O6: with a CORE event or an empty inbox the step is the CORE's turn. -/
theorem coreTurnRunsLatchedCommand : Obligations.CoreTurnRunsLatchedCommand := by
  refine ⟨fun s i rest hb hi => ⟨fun hin => ?busyEvent, fun hin => ?busyEmpty⟩,
    fun s rest hidle => ⟨fun hin => ?idleEvent, fun hin => ?idleEmpty⟩⟩
  case busyEvent => exact (step_of_inbox_core hin).trans (coreTurn_of_busy (s := pop s rest) hb hi)
  case busyEmpty => exact (step_of_inbox_nil hin).trans (coreTurn_of_busy hb hi)
  case idleEvent => exact (step_of_inbox_core hin).trans (coreTurn_of_idle (s := pop s rest) hidle)
  case idleEmpty => exact (step_of_inbox_nil hin).trans (coreTurn_of_idle hidle)

end Sys2Proof.Proofs
end

section
/-! The quarter-rounds (41_core_permutation.md R111, R114): the four Words each one computes, and that
every other Word of the state stays as it is. -/

namespace Sys2Proof.Machine

open Sys2Proof.Spec

/-! ### Words of a state -/

theorem nth_of_lt {x : List Word} {i : Nat} (h : i < x.length) : nth x i = x[i] := by
  simp [nth, h]

theorem nth_set_same {x : List Word} {i : Nat} (h : i < x.length) (v : Word) : nth (x.set i v) i = v := by
  simp [nth, h]

theorem nth_set_ne {x : List Word} {i j : Nat} (h : i ≠ j) (v : Word) : nth (x.set i v) j = nth x j := by
  simp [nth, h]

/-- Two states of the same length with the same Words are equal. -/
theorem ext_nth {x y : List Word} (hlen : x.length = y.length) (h : ∀ i < x.length, nth x i = nth y i) : x = y :=
  List.ext_getElem hlen fun i hx hy => by rw [← nth_of_lt hx, ← nth_of_lt hy, h i hx]

/-- Four distinct indices, pair by pair and both ways round. -/
theorem nodup_four {a b c d : Nat} (h : [a, b, c, d].Nodup) :
    (a ≠ b ∧ b ≠ a) ∧ (a ≠ c ∧ c ≠ a) ∧ (a ≠ d ∧ d ≠ a) ∧ (b ≠ c ∧ c ≠ b) ∧ (b ≠ d ∧ d ≠ b) ∧ (c ≠ d ∧ d ≠ c) := by
  simp only [List.nodup_cons, List.mem_cons, List.not_mem_nil, or_false, not_or] at h
  omega

/-- The four Words a quarter-round leaves at its indices `(a, b, c, d)`. -/
structure Quarter where
  a : Word
  b : Word
  c : Word
  d : Word

/-- The updates of 41_core_permutation.md R111 on four Words. -/
def salsaQuarter (a b c d : Word) : Quarter :=
  let b' := b ^^^ rotl (a + d) 7
  let c' := c ^^^ rotl (b' + a) 9
  let d' := d ^^^ rotl (c' + b') 13
  ⟨a ^^^ rotl (d' + c') 18, b', c', d'⟩

/-- The updates of 41_core_permutation.md R114 on four Words: the same four updates twice, with other rotations. -/
def chachaQuarter (a b c d : Word) : Quarter :=
  let a' := a + b
  let d' := rotl (d ^^^ a') 16
  let c' := c + d'
  let b' := rotl (b ^^^ c') 12
  let a'' := a' + b'
  let d'' := rotl (d' ^^^ a'') 8
  let c'' := c' + d''
  ⟨a'', rotl (b' ^^^ c'') 7, c'', d''⟩

/-- `x` with the Words of `q` at the indices `(a, b, c, d)`. -/
def putQuarter (x : List Word) (a b c d : Nat) (q : Quarter) : List Word :=
  (((x.set b q.b).set c q.c).set d q.d).set a q.a

@[simp] theorem putQuarter_length (x : List Word) (a b c d : Nat) (q : Quarter) :
    (putQuarter x a b c d q).length = x.length := by
  simp [putQuarter]

section
variable {x : List Word} {a b c d : Nat} (hlen : x.length = 16) (ha : a < 16) (hb : b < 16) (hc : c < 16)
  (hd : d < 16) (hne : [a, b, c, d].Nodup)
include hlen ha hb hc hd hne

/-- The Words at the four indices are those of `q`, every other Word stays. -/
theorem nth_putQuarter (q : Quarter) :
    nth (putQuarter x a b c d q) a = q.a ∧ nth (putQuarter x a b c d q) b = q.b ∧
    nth (putQuarter x a b c d q) c = q.c ∧ nth (putQuarter x a b c d q) d = q.d ∧
    ∀ k, k ∉ [a, b, c, d] → nth (putQuarter x a b c d q) k = nth x k := by
  obtain ⟨⟨hab, hba⟩, ⟨hac, hca⟩, ⟨had, hda⟩, ⟨hbc, hcb⟩, ⟨hbd, hdb⟩, hcd, hdc⟩ := nodup_four hne
  simp (disch := simp [*]) only [putQuarter, nth_set_same, nth_set_ne, true_and]
  intro k hk
  simp only [List.mem_cons, List.not_mem_nil, or_false, not_or] at hk
  obtain ⟨hka, hkb, hkc, hkd⟩ := hk
  rw [nth_set_ne (Ne.symm hka), nth_set_ne (Ne.symm hkd), nth_set_ne (Ne.symm hkc), nth_set_ne (Ne.symm hkb)]

omit ha in
/-- The Salsa20 quarter-round, whose updates are in the order of `putQuarter`. -/
theorem salsaQR_eq_putQuarter :
    salsaQR x a b c d = putQuarter x a b c d (salsaQuarter (nth x a) (nth x b) (nth x c) (nth x d)) := by
  obtain ⟨⟨hab, hba⟩, ⟨hac, hca⟩, ⟨had, hda⟩, ⟨hbc, hcb⟩, ⟨hbd, hdb⟩, hcd, hdc⟩ := nodup_four hne
  simp (disch := simp [*]) only [salsaQR, salsaQuarter, putQuarter, nth_set_same, nth_set_ne]

/-- The ChaCha quarter-round: its second update of each Word replaces the first. -/
theorem chachaQR_eq_putQuarter :
    chachaQR x a b c d = putQuarter x a b c d (chachaQuarter (nth x a) (nth x b) (nth x c) (nth x d)) := by
  obtain ⟨⟨hab, hba⟩, ⟨hac, hca⟩, ⟨had, hda⟩, ⟨hbc, hcb⟩, ⟨hbd, hdb⟩, hcd, hdc⟩ := nodup_four hne
  simp (disch := simp [*]) only [chachaQR, chachaQuarter, putQuarter, nth_set_same, nth_set_ne]
  simp only [List.set_comm _ _ hab, List.set_comm _ _ hac, List.set_comm _ _ had, List.set_comm _ _ hdc,
    List.set_comm _ _ hdb, List.set_comm _ _ hcb, List.set_set]

end

end Sys2Proof.Machine

namespace Sys2Proof.Proofs

open Sys2Proof.Machine Sys2Proof.Spec

/-- Settles O29: the quarter-round puts the Words of `salsaQuarter` at its four indices (`salsaQR_eq_putQuarter`),
each computed from those before it. -/
theorem salsaQuarterRound : Obligations.SalsaQuarterRound := by
  intro x a b c d hlen ha hb hc hd hne
  obtain ⟨hya, hyb, hyc, hyd, hrest⟩ :=
    nth_putQuarter hlen ha hb hc hd hne (salsaQuarter (nth x a) (nth x b) (nth x c) (nth x d))
  rw [← salsaQR_eq_putQuarter hlen hb hc hd hne] at hya hyb hyc hyd hrest
  simp only [hya, hyb, hyc, hyd]
  exact ⟨rfl, rfl, rfl, rfl, hrest⟩

/-- Settles O30: the quarter-round puts the Words of `chachaQuarter` at its four indices (`chachaQR_eq_putQuarter`),
each computed from those before it. -/
theorem chachaQuarterRound : Obligations.ChachaQuarterRound := by
  intro x a b c d hlen ha hb hc hd hne
  obtain ⟨hya, hyb, hyc, hyd, hrest⟩ :=
    nth_putQuarter hlen ha hb hc hd hne (chachaQuarter (nth x a) (nth x b) (nth x c) (nth x d))
  rw [← chachaQR_eq_putQuarter hlen ha hb hc hd hne] at hya hyb hyc hyd hrest
  simp only [hya, hyb, hyc, hyd]
  exact ⟨rfl, rfl, rfl, rfl, hrest⟩

end Sys2Proof.Proofs
end

section
/-! The cores (41_core_permutation.md R112, R113, R115, R116): a round is the column round of a renumbered state, a core
is its double rounds and the feed-forward; the all-zero sub-block and equal columns. -/

namespace Sys2Proof.Machine

open Sys2Proof.Spec

/-! ### Renumbering the Words of a state -/

/-- `p` renumbers the Words of a state. -/
structure Renumbering (p : Nat → Nat) : Prop where
  lt : ∀ i < 16, p i < 16
  inj : ∀ i < 16, ∀ j < 16, p i = p j → i = j

/-- The state whose Word `i` is Word `p i` of `x`. -/
def renumbered (p : Nat → Nat) (x : List Word) : List Word := (List.range 16).map fun i => nth x (p i)

/-- The indices `(a, b, c, d)` of a quarter-round, each renumbered. -/
def renumberedIndices (p : Nat → Nat) (q : Nat × Nat × Nat × Nat) : Nat × Nat × Nat × Nat :=
  (p q.1, p q.2.1, p q.2.2.1, p q.2.2.2)

section
variable {p : Nat → Nat} {x : List Word}

@[simp] theorem renumbered_length : (renumbered p x).length = 16 := by simp [renumbered]

theorem nth_renumbered {i : Nat} (hi : i < 16) : nth (renumbered p x) i = nth x (p i) := by
  simp [nth, renumbered, hi]

theorem renumbered_set (hp : Renumbering p) (hx : x.length = 16) {i : Nat} (hi : i < 16) (v : Word) :
    (renumbered p x).set i v = renumbered p (x.set (p i) v) := by
  refine ext_nth (by simp) fun k hk => ?_
  have hk : k < 16 := by simpa using hk
  rw [nth_renumbered hk]
  by_cases hik : i = k
  · subst hik
    rw [nth_set_same (by simpa using hi), nth_set_same (by rw [hx]; exact hp.lt i hi)]
  · rw [nth_set_ne hik, nth_set_ne fun heq => hik (hp.inj i hi k hk heq), nth_renumbered hk]

/-- Renumbering there and back. -/
theorem renumbered_renumbered (hx : x.length = 16) {p' : Nat → Nat} (hinv : ∀ i < 16, p' i < 16 ∧ p (p' i) = i) :
    renumbered p' (renumbered p x) = x := by
  refine ext_nth (by simp [hx]) fun i hi => ?_
  have hi : i < 16 := by simpa using hi
  obtain ⟨hlt, heq⟩ := hinv i hi
  rw [nth_renumbered hi, nth_renumbered hlt, heq]

end

/-- A quarter-round that does not depend on how the Words are numbered. -/
structure NumberingFree (qr : List Word → Nat → Nat → Nat → Nat → List Word) : Prop where
  length : ∀ x a b c d, (qr x a b c d).length = x.length
  renumbered : ∀ {p x a b c d}, Renumbering p → x.length = 16 → a < 16 → b < 16 → c < 16 → d < 16 →
    qr (renumbered p x) a b c d = renumbered p (qr x (p a) (p b) (p c) (p d))

theorem salsaQR_numberingFree : NumberingFree salsaQR where
  length := salsaQR_length
  renumbered hp hx ha hb hc hd := by
    simp (disch := simp [*]) only [salsaQR, nth_renumbered, renumbered_set]

theorem chachaQR_numberingFree : NumberingFree chachaQR where
  length := chachaQR_length
  renumbered hp hx ha hb hc hd := by
    simp (disch := simp [*]) only [chachaQR, nth_renumbered, renumbered_set]

/-- The quarter-rounds of a renumbered state are those of the state at the renumbered indices. -/
theorem quarterRounds_renumbered {qr : List Word → Nat → Nat → Nat → Nat → List Word} (hqr : NumberingFree qr)
    {p : Nat → Nat} (hp : Renumbering p) {qs : List (Nat × Nat × Nat × Nat)}
    (hqs : ∀ q ∈ qs, q.1 < 16 ∧ q.2.1 < 16 ∧ q.2.2.1 < 16 ∧ q.2.2.2 < 16) {x : List Word} (hx : x.length = 16) :
    quarterRounds qr (renumbered p x) qs = renumbered p (quarterRounds qr x (qs.map (renumberedIndices p))) := by
  induction qs generalizing x with
  | nil => rfl
  | cons q qs ih =>
    obtain ⟨ha, hb, hc, hd⟩ := hqs q List.mem_cons_self
    simp only [quarterRounds, List.foldl_cons, List.map_cons] at ih ⊢
    rw [hqr.renumbered hp hx ha hb hc hd]
    exact ih (fun q hq => hqs q (List.mem_cons_of_mem _ hq)) ((hqr.length ..).trans hx)

theorem quarterRounds_length {qr : List Word → Nat → Nat → Nat → Nat → List Word} (hqr : NumberingFree qr)
    (qs : List (Nat × Nat × Nat × Nat)) (x : List Word) : (quarterRounds qr x qs).length = x.length := by
  induction qs generalizing x with
  | nil => rfl
  | cons q qs ih => exact (ih _).trans (hqr.length ..)

/-! ### The rounds -/

/-- The Word that the transpose has at `i`. -/
def transposedIndex (i : Nat) : Nat := 4 * (i % 4) + i / 4

/-- The Word that the state with row `k` rotated by `n·k` has at `i`. -/
def rotatedIndex (n i : Nat) : Nat := 4 * (i / 4) + (i + n * (i / 4)) % 4

theorem transposed_eq (x : List Word) : transposed x = renumbered transposedIndex x := rfl

theorem rowsRotated_eq (n : Nat) (x : List Word) : rowsRotated n x = renumbered (rotatedIndex n) x := rfl

theorem transposedIndex_renumbering : Renumbering transposedIndex := ⟨by decide, by decide⟩

theorem rotatedIndex_renumbering : Renumbering (rotatedIndex 1) := ⟨by decide, by decide⟩

/-- The row round is the column round of the transpose (41_core_permutation.md R112). -/
theorem salsaRows_eq_transposed {x : List Word} (hx : x.length = 16) :
    quarterRounds salsaQR x salsaRows = transposed (quarterRounds salsaQR (transposed x) salsaColumns) := by
  simp only [transposed_eq]
  rw [quarterRounds_renumbered salsaQR_numberingFree transposedIndex_renumbering (by decide) hx,
    renumbered_renumbered ((quarterRounds_length salsaQR_numberingFree ..).trans hx) (by decide)]
  rfl

/-- The diagonal round is the column round of the state whose row `k` is rotated by `k` (41_core_permutation.md
R115). -/
theorem chachaDiagonals_eq_rowsRotated {x : List Word} (hx : x.length = 16) :
    quarterRounds chachaQR x chachaDiagonals =
      rowsRotated 3 (quarterRounds chachaQR (rowsRotated 1 x) chachaColumns) := by
  simp only [rowsRotated_eq]
  rw [quarterRounds_renumbered chachaQR_numberingFree rotatedIndex_renumbering (by decide) hx,
    renumbered_renumbered ((quarterRounds_length chachaQR_numberingFree ..).trans hx) (by decide)]
  rfl

theorem salsaDouble_eq (x : List Word) :
    salsaDouble x = quarterRounds salsaQR (quarterRounds salsaQR x salsaColumns) salsaRows := by
  simp only [salsaDouble, quarterRounds, salsaColumns, salsaRows, List.foldl_cons, List.foldl_nil]

theorem chachaDouble_eq (x : List Word) :
    chachaDouble x = quarterRounds chachaQR (quarterRounds chachaQR x chachaColumns) chachaDiagonals := by
  simp only [chachaDouble, quarterRounds, chachaColumns, chachaDiagonals, List.foldl_cons, List.foldl_nil]

/-! ### The cores -/

/-- The double round of a core (41_core_permutation.md R112, R115). -/
def doubleRound : Alg → List Word → List Word
  | .salsa => salsaDouble
  | .chacha => chachaDouble

theorem iterate_eq {α : Type} (f : α → α) (n : Nat) (x : α) : iterate f n x = f^[n] x := by
  induction n generalizing x with
  | zero => rfl
  | succ n ih => exact ih (f x)

/-- Both cores are double rounds and the feed-forward (41_core_permutation.md R113, R116). -/
theorem corePerm_eq (alg : Alg) (x : List Word) (R : Nat) :
    corePerm alg x R = addWords ((doubleRound alg)^[R / 2] x) x := by
  rw [← iterate_eq]
  cases alg <;> rfl

theorem nth_addWords {x y : List Word} {i : Nat} (hx : i < x.length) (hy : i < y.length) :
    nth (addWords x y) i = nth x i + nth y i := by
  rw [nth_of_lt hx, nth_of_lt hy, nth_of_lt (by simp [addWords, hx, hy])]
  simp [addWords]

theorem doubleRound_iterate_length (alg : Alg) (n : Nat) (x : List Word) :
    ((doubleRound alg)^[n] x).length = x.length := by
  rw [← iterate_eq]
  cases alg with
  | salsa => exact iterate_length salsaDouble_length n x
  | chacha => exact iterate_length chachaDouble_length n x

/-- Word `i` of a core is Word `i` after its double rounds plus Word `i` of the input. -/
theorem nth_corePerm (alg : Alg) (n : Nat) {x : List Word} {i : Nat} (hi : i < x.length) :
    nth (corePerm alg x (2 * n)) i = nth ((doubleRound alg)^[n] x) i + nth x i := by
  rw [corePerm_eq, Nat.mul_div_cancel_left n Nat.two_pos]
  exact nth_addWords ((doubleRound_iterate_length alg n x).symm ▸ hi) hi

/-! ### The all-zero sub-block (41_core_permutation.md R117) -/

/-- The all-zero sub-block. -/
def zeros : List Word := List.replicate 16 0

@[simp] theorem nth_zeros (i : Nat) : nth zeros i = 0#32 := by
  rcases Nat.lt_or_ge i 16 with hi | hi
  · exact List.getD_replicate 0 hi
  · exact List.getD_eq_default _ _ (by simpa [zeros] using hi)

@[simp] theorem zeros_set (i : Nat) : zeros.set i 0#32 = zeros := List.set_replicate_self

@[simp] theorem rotl_zero (n : Nat) : rotl 0#32 n = 0#32 := by simp [rotl]

theorem salsaQR_zeros (a b c d : Nat) : salsaQR zeros a b c d = zeros := by simp [salsaQR]

theorem chachaQR_zeros (a b c d : Nat) : chachaQR zeros a b c d = zeros := by simp [chachaQR]

theorem doubleRound_zeros (alg : Alg) : doubleRound alg zeros = zeros := by
  cases alg with
  | salsa => simp [doubleRound, salsaDouble, salsaQR_zeros]
  | chacha => simp [doubleRound, chachaDouble, chachaQR_zeros]

theorem corePerm_zeros (alg : Alg) (R : Nat) : corePerm alg zeros R = zeros := by
  rw [corePerm_eq, Function.iterate_fixed (doubleRound_zeros alg)]
  simp [addWords, zeros]

/-! ### Equal columns (41_core_permutation.md R118) -/

/-- The state whose rows are each one Word of `q` repeated. -/
def equalColumns (q : Quarter) : List Word := rowsOf q.a q.b q.c q.d

@[simp] theorem equalColumns_length (q : Quarter) : (equalColumns q).length = 16 := by
  simp [equalColumns, rowsOf]

/-- The four quarter-rounds of the column round make the same updates, each in its own column. -/
theorem chachaColumns_equalColumns (q : Quarter) :
    quarterRounds chachaQR (equalColumns q) chachaColumns = equalColumns (chachaQuarter q.a q.b q.c q.d) := by
  simp (disch := simp) only [quarterRounds, chachaColumns, List.foldl_cons, List.foldl_nil,
    chachaQR_eq_putQuarter]
  simp only [equalColumns, rowsOf, putQuarter, nth, List.set_cons_zero, List.set_cons_succ, List.getD_cons_zero,
    List.getD_cons_succ]

/-- A diagonal round is a column round between two rotations of rows, which do not change equal columns. -/
theorem chachaDiagonals_equalColumns (q : Quarter) :
    quarterRounds chachaQR (equalColumns q) chachaDiagonals = equalColumns (chachaQuarter q.a q.b q.c q.d) := by
  have rotated_once (q : Quarter) : rowsRotated 1 (equalColumns q) = equalColumns q := rfl
  have rotated_back (q : Quarter) : rowsRotated 3 (equalColumns q) = equalColumns q := rfl
  rw [chachaDiagonals_eq_rowsRotated rfl, rotated_once, chachaColumns_equalColumns, rotated_back]

theorem chachaDouble_equalColumns (q : Quarter) : ∃ q', chachaDouble (equalColumns q) = equalColumns q' :=
  ⟨_, by rw [chachaDouble_eq, chachaColumns_equalColumns, chachaDiagonals_equalColumns]⟩

theorem chachaDouble_iterate_equalColumns (n : Nat) (q : Quarter) :
    ∃ q', chachaDouble^[n] (equalColumns q) = equalColumns q' := by
  induction n generalizing q with
  | zero => exact ⟨q, rfl⟩
  | succ n ih =>
    obtain ⟨q', hq'⟩ := chachaDouble_equalColumns q
    rw [Function.iterate_succ_apply, hq']
    exact ih q'

end Sys2Proof.Machine

namespace Sys2Proof.Proofs

open Sys2Proof.Machine Sys2Proof.Spec

/-- Settles O31: the rows and the diagonals are the columns of a renumbered state (`salsaRows_eq_transposed`,
`chachaDiagonals_eq_rowsRotated`), the feed-forward is Word by Word (`nth_corePerm`), and every update of zeros is zero
(`corePerm_zeros`). -/
theorem coresAreDoubleRoundsPlusInput : Obligations.CoresAreDoubleRoundsPlusInput := by
  refine ⟨fun x hx => ⟨salsaDouble_eq x, ?_, chachaDouble_eq x, ?_, fun n => ⟨?_, ?_, fun i hi => ?_⟩⟩,
    fun x R => ⟨rfl, rfl⟩, fun R => ⟨corePerm_zeros .salsa R, corePerm_zeros .chacha R⟩⟩
  · rw [salsaDouble_eq, salsaRows_eq_transposed ((quarterRounds_length salsaQR_numberingFree ..).trans hx)]
  · rw [chachaDouble_eq,
      chachaDiagonals_eq_rowsRotated ((quarterRounds_length chachaQR_numberingFree ..).trans hx)]
  · exact (corePerm_length .salsa x (2 * n)).trans hx
  · exact (corePerm_length .chacha x (2 * n)).trans hx
  · exact ⟨nth_corePerm .salsa n (hx.symm ▸ hi), nth_corePerm .chacha n (hx.symm ▸ hi)⟩

/-- Settles O32, by induction on the double rounds: each leaves equal columns equal (`chachaDouble_equalColumns`), and
so does the feed-forward. -/
theorem chachaTreatsColumnsAlike : Obligations.ChachaTreatsColumnsAlike := by
  intro R a b c d
  obtain ⟨q, hq⟩ := chachaDouble_iterate_equalColumns (R / 2) ⟨a, b, c, d⟩
  refine ⟨q.a + a, q.b + b, q.c + c, q.d + d, ?_⟩
  calc chacha (rowsOf a b c d) R
      = addWords (chachaDouble^[R / 2] (rowsOf a b c d)) (rowsOf a b c d) := corePerm_eq .chacha _ R
    _ = addWords (equalColumns q) (rowsOf a b c d) := congrArg (addWords · _) hq
    _ = rowsOf (q.a + a) (q.b + b) (q.c + c) (q.d + d) := rfl

end Sys2Proof.Proofs
end

section
/-! The two steps of the core permutation commands (41_core_permutation.md R117, R118): the checks of their operand
table in order, and what a completion that writes one list of Words leaves. -/

namespace Sys2Proof.Machine

open Sys2Proof.Spec

/-! ### Acceptance: the checks as one chain of conditions -/

/-- One check: its error where the condition holds. -/
def failIf (c : Prop) [Decidable c] (e : CmdError) : Option CmdError := if c then some e else none

/-- The state an acceptance leaves when its checks answer `o` (40_command_protocol.md R93; 60_exceptions.md R201). -/
def afterChecks (o : Option CmdError) (s : State) : State :=
  match o with
  | some e => errorEnd e s
  | none => beginExec s

/-- While idle, a command's step is the answer of its checks. -/
theorem exec_idle {s : State} (i : Instr) (h : s.status.busy = false) :
    exec i s = .next (afterChecks ((checkRounds i).or (check s.params s.latch (operandTable i s.latch))) s) := by
  rw [← Option.orElse_eq_or (f := fun _ => check s.params s.latch (operandTable i s.latch))]
  cases hc : (checkRounds i).orElse fun _ => check s.params s.latch (operandTable i s.latch) with
  | some e => exact exec_error h hc
  | none => exact exec_accepted h hc

/-- The first check of a chain ends the command where it fails, and hands over to the rest where it passes. -/
theorem afterChecks_failIf_or (c : Prop) [Decidable c] (e : CmdError) (o : Option CmdError) (s : State) :
    afterChecks ((failIf c e).or o) s = if c then ended (errBits e.code) e.arg s else afterChecks o s := by
  by_cases hc : c
  · simp only [failIf, if_pos hc]; rfl
  · simp only [failIf, if_neg hc]; rfl

/-- The last check of a chain ends the command or lets it start. -/
theorem afterChecks_failIf (c : Prop) [Decidable c] (e : CmdError) (s : State) :
    afterChecks (failIf c e) s = if c then ended (errBits e.code) e.arg s else started s := by
  rw [← Option.or_none (o := failIf c e), afterChecks_failIf_or]
  rfl

/-- The checks of a list, first to last. -/
theorem findSome?_cons_or {α β : Type} (f : α → Option β) (a : α) (l : List α) :
    (a :: l).findSome? f = (f a).or (l.findSome? f) := by
  rw [List.findSome?_cons]
  cases f a <;> rfl

/-- The ten classes of checks, in order (40_command_protocol.md R94). -/
theorem check_eq_or (p : Params) (l : Latch) (t : OperandTable) :
    check p l t =
      (checkZero l t).or ((checkPow2 l t).or ((checkHeader l t).or ((checkRMax p l t).or ((checkLimit l t).or
        ((checkAlign t).or ((checkScratchAlign t).or ((checkBounds p t).or ((checkAlloc p t).or
          (checkOverlap t))))))))) := by
  simp only [check, Option.orElse_eq_orElse, Option.orElse_eq_or]

/-- The `ROUNDS` check of a command with that field (30_encoding.md R73). -/
theorem checkRounds_of_field {i : Instr} {f : BitVec 6} (h : i.roundsField = some f) :
    checkRounds i = failIf (f.getLsbD 0 = true) ⟨.rounds, noArg⟩ := by
  simp only [checkRounds, Instr.wf, h, failIf]
  cases f.getLsbD 0 <;> rfl

theorem checkAlign_eq (t : OperandTable) :
    checkAlign t = t.regions.findSome? fun r => failIf (r.aligned = true ∧ r.base % 4 ≠ 0) ⟨.align, r.arg⟩ := by
  simp only [checkAlign, failIf, Bool.and_eq_true, bne_iff_ne]

theorem checkBounds_eq (p : Params) (t : OperandTable) :
    checkBounds p t = t.regions.findSome? fun r => failIf (¬ Fits p.memSize r.base r.len) ⟨.bounds, r.arg⟩ := by
  simp only [checkBounds, failIf, inbounds_iff, ite_not]

theorem checkOverlap_eq (t : OperandTable) :
    checkOverlap t = t.overlaps.findSome? fun o =>
      failIf (Overlaps o.fst.base o.fst.len o.snd.base o.snd.len ∧
        ¬ (o.sameAllowed = true ∧ o.fst.base = o.snd.base ∧ o.fst.len = o.snd.len)) ⟨.overlap, o.fst.arg⟩ := by
  simp only [checkOverlap, failIf, Bool.and_eq_true, overlap_iff, Bool.not_eq_true', ← Bool.not_eq_true, identical,
    beq_iff_eq]

section
variable (p : Params) (l : Latch)

theorem checkAlign_coreTable :
    checkAlign (coreTable l) =
      (failIf (l.arg 0 % 4 ≠ 0) ⟨.align, 0⟩).or (failIf (l.arg 1 % 4 ≠ 0) ⟨.align, 1⟩) := by
  simp [checkAlign_eq, coreTable, findSome?_cons_or, inputAt, resultAt, argName]

theorem checkBounds_coreTable :
    checkBounds p (coreTable l) =
      (failIf (¬ Fits p.memSize (l.arg 0) 64) ⟨.bounds, 0⟩).or
        (failIf (¬ Fits p.memSize (l.arg 1) 64) ⟨.bounds, 1⟩) := by
  simp [checkBounds_eq, coreTable, findSome?_cons_or, inputAt, resultAt, argName]

theorem checkOverlap_coreTable :
    checkOverlap (coreTable l) =
      failIf (Overlaps (l.arg 1) 64 (l.arg 0) 64 ∧ l.arg 1 ≠ l.arg 0) ⟨.overlap, 1⟩ := by
  simp [checkOverlap_eq, coreTable, inputAt, resultAt, argName]

/-- The checks of the two core permutations in order (41_core_permutation.md R117); the other classes have nothing to
check. -/
theorem check_coreTable :
    check p l (coreTable l) =
      (checkAlign (coreTable l)).or ((checkBounds p (coreTable l)).or (checkOverlap (coreTable l))) :=
  check_eq_or p l (coreTable l)

end

/-! ### Completion -/

/-- A completion leaves `STATUS` and the registers as 40_command_protocol.md R96 says. -/
theorem done_complete (r : Results) (s : State) : Done s (complete r s) := by
  constructor <;> rfl

/-- A command that computes one list of Words at `a` leaves them there and nothing else in DMEM; the pad states stay,
`ITER` and `JIDX` are 0. -/
theorem exec_busy_writing {s : State} {i : Instr} {a n : Nat} {ws : List Word} (hb : s.status.busy = true)
    (hres : resultsOf i s = .writing s [(a, bytesOf ws)]) (hlen : ws.length = n) :
    ∃ t, exec i s = .next t ∧ Done s t ∧ NoProgress t ∧ KeepsPads s t ∧
      readWords t.mem a n = ws ∧ Untouched s t (Inside a (4 * n)) := by
  subst hlen
  refine ⟨_, exec_busy i hb, done_complete _ s, ?_, ?_, ?_, fun x hx => ?_⟩
  · rw [hres]; exact ⟨rfl, rfl⟩
  · rw [hres]; exact ⟨rfl, rfl⟩
  · rw [hres]; exact readWords_memWrite s.mem a ws
  · rw [hres]
    exact byteAt_memWrite_outside (by rwa [bytesOf_length])

end Sys2Proof.Machine

namespace Sys2Proof.Proofs

open Sys2Proof.Machine Sys2Proof.Spec

/-- Settles O10: the step of an idle command is the answer of its checks (`exec_idle`), which for both cores are
`ROUNDS` and the chain of `check_coreTable`. -/
theorem coreCommandAcceptance : Obligations.CoreCommandAcceptance := by
  intro f s i hidle hi
  obtain ⟨hfield, htable⟩ : i.roundsField = some f ∧ operandTable i s.latch = coreTable s.latch := by
    simp only [List.mem_cons, List.not_mem_nil, or_false] at hi
    rcases hi with rfl | rfl <;> exact ⟨rfl, rfl⟩
  rw [exec_idle i hidle, checkRounds_of_field hfield, htable, check_coreTable, checkAlign_coreTable,
    checkBounds_coreTable, checkOverlap_coreTable]
  simp only [Option.or_assoc, afterChecks_failIf_or, afterChecks_failIf]
  rfl

/-- Settles O18: both commands write one list of 16 Words at `ARG1` (`exec_busy_writing`). -/
theorem coreCommandsComplete : Obligations.CoreCommandsComplete := by
  intro f s hb
  have hlen (alg : Alg) : (corePerm alg (readWords s.mem (s.latch.arg 0) 16) (roundCount f)).length = 16 := by
    rw [corePerm_length, readWords_length]
  exact ⟨exec_busy_writing hb rfl (hlen .salsa), exec_busy_writing hb rfl (hlen .chacha)⟩

end Sys2Proof.Proofs
end

section
/-! Acceptance of the Block commands (42_block_mixer.md R125 to R129): the checks of a table with `r` in `ARG2`, in
order. -/

namespace Sys2Proof.Machine

open Sys2Proof.Spec

section
variable (p : Params) (l : Latch)

/-- The checks of a table whose only parameter is `r = ARG2` and that uses no scratch, in order; the other classes have
nothing to check. -/
theorem check_of_blocks (regions : List Region) (overlaps : List OverlapPair) :
    let t : OperandTable := { nonzero := [2], rparam := [2], regions := regions, overlaps := overlaps }
    check p l t =
      (failIf (l.arg 2 = 0) ⟨.zero, 2⟩).or ((failIf (p.rMax < l.arg 2) ⟨.tooLarge, 2⟩).or
        ((checkAlign t).or ((checkBounds p t).or (checkOverlap t)))) := by
  intro t
  have hzero : checkZero l t = failIf (l.arg 2 = 0) ⟨.zero, 2⟩ := by
    simp [checkZero, t, failIf, argName]
  have hrmax : checkRMax p l t = failIf (p.rMax < l.arg 2) ⟨.tooLarge, 2⟩ := by
    simp [checkRMax, t, failIf, argName]
  rw [check_eq_or, hzero, hrmax]
  rfl

/-- The checks of a command from one Block to another, in order (42_block_mixer.md R125, R127). -/
theorem check_blockTable :
    check p l (blockTable l) =
      (failIf (l.arg 2 = 0) ⟨.zero, 2⟩).or ((failIf (p.rMax < l.arg 2) ⟨.tooLarge, 2⟩).or
        ((failIf (l.arg 0 % 4 ≠ 0) ⟨.align, 0⟩).or ((failIf (l.arg 1 % 4 ≠ 0) ⟨.align, 1⟩).or
          ((failIf (¬ Fits p.memSize (l.arg 0) (128 * l.arg 2)) ⟨.bounds, 0⟩).or
            ((failIf (¬ Fits p.memSize (l.arg 1) (128 * l.arg 2)) ⟨.bounds, 1⟩).or
              (failIf (Overlaps (l.arg 1) (128 * l.arg 2) (l.arg 0) (128 * l.arg 2) ∧ l.arg 1 ≠ l.arg 0)
                ⟨.overlap, 1⟩)))))) := by
  rw [blockTable, check_of_blocks]
  simp [checkAlign_eq, checkBounds_eq, checkOverlap_eq, findSome?_cons_or, Option.or_assoc, inputAt, resultAt,
    argName]

/-- The checks of `BLKXOR`, in order (42_block_mixer.md R129). -/
theorem check_blkxorTable :
    check p l (blkxorTable l) =
      (failIf (l.arg 2 = 0) ⟨.zero, 2⟩).or ((failIf (p.rMax < l.arg 2) ⟨.tooLarge, 2⟩).or
        ((failIf (l.arg 0 % 4 ≠ 0) ⟨.align, 0⟩).or ((failIf (l.arg 1 % 4 ≠ 0) ⟨.align, 1⟩).or
          ((failIf (l.arg 3 % 4 ≠ 0) ⟨.align, 3⟩).or
            ((failIf (¬ Fits p.memSize (l.arg 0) (128 * l.arg 2)) ⟨.bounds, 0⟩).or
              ((failIf (¬ Fits p.memSize (l.arg 1) (128 * l.arg 2)) ⟨.bounds, 1⟩).or
                ((failIf (¬ Fits p.memSize (l.arg 3) (128 * l.arg 2)) ⟨.bounds, 3⟩).or
                  ((failIf (Overlaps (l.arg 3) (128 * l.arg 2) (l.arg 0) (128 * l.arg 2) ∧ l.arg 3 ≠ l.arg 0)
                    ⟨.overlap, 3⟩).or
                    (failIf (Overlaps (l.arg 3) (128 * l.arg 2) (l.arg 1) (128 * l.arg 2) ∧ l.arg 3 ≠ l.arg 1)
                      ⟨.overlap, 3⟩))))))))) := by
  rw [blkxorTable, check_of_blocks]
  simp [checkAlign_eq, checkBounds_eq, checkOverlap_eq, findSome?_cons_or, Option.or_assoc, inputAt, resultAt,
    argName]

end

/-- Of the commands from one Block to another only the two BlockMix forms have a `ROUNDS` field to check (log 14). -/
theorem checkRounds_blockCommand {i : Instr} {f : BitVec 6} (h : i ∈ [.blockmixS f, .blockmixC f, .shuffle, .unshuffle]) :
    checkRounds i = failIf (i ∈ [.blockmixS f, .blockmixC f] ∧ f.getLsbD 0 = true) ⟨.rounds, noArg⟩ := by
  simp only [List.mem_cons, List.not_mem_nil, or_false] at h
  rcases h with rfl | rfl | rfl | rfl
  · simp [checkRounds_of_field (i := .blockmixS f) rfl]
  · simp [checkRounds_of_field (i := .blockmixC f) rfl]
  · simp [checkRounds, Instr.wf, Instr.roundsField, failIf]
  · simp [checkRounds, Instr.wf, Instr.roundsField, failIf]

end Sys2Proof.Machine

namespace Sys2Proof.Proofs

open Sys2Proof.Machine Sys2Proof.Spec

/-- Settles O11: the step of an idle command is the answer of its checks (`exec_idle`), which for all four commands are
`ROUNDS` where there is that field, and the chain of `check_blockTable`. -/
theorem blockCommandAcceptance : Obligations.BlockCommandAcceptance := by
  intro f s i hidle hi
  have htable : operandTable i s.latch = blockTable s.latch := by
    simp only [List.mem_cons, List.not_mem_nil, or_false] at hi
    rcases hi with rfl | rfl | rfl | rfl <;> rfl
  rw [exec_idle i hidle, checkRounds_blockCommand hi, htable, check_blockTable]
  simp only [afterChecks_failIf_or, afterChecks_failIf]
  rfl

/-- Settles O12: the step of an idle `BLKXOR` is the answer of its checks (`exec_idle`), the chain of
`check_blkxorTable`. -/
theorem blkxorAcceptance : Obligations.BlkxorAcceptance := by
  intro s hidle
  have hchecks : (checkRounds .blkxor).or (check s.params s.latch (operandTable .blkxor s.latch)) =
      check s.params s.latch (blkxorTable s.latch) := rfl
  rw [exec_idle _ hidle, hchecks, check_blkxorTable]
  simp only [afterChecks_failIf_or, afterChecks_failIf]
  rfl

end Sys2Proof.Proofs
end

section
/-! Blocks as lists of sub-blocks (42_block_mixer.md R120 to R124): the chain of BlockMix, the shuffle of a sub-block as
a renumbering of its Words, and the shuffled datapath. -/

namespace Sys2Proof.Machine

open Sys2Proof.Spec

/-! ### Sub-blocks -/

theorem nth_xorWords {x y : List Word} {i : Nat} (hx : i < x.length) (hy : i < y.length) :
    nth (xorWords x y) i = nth x i ^^^ nth y i := by
  simp [nth, xorWords, hx, hy]

theorem nth_subBlock (B : List Word) (k : Nat) {i : Nat} (hi : i < 16) :
    nth (subBlock B k) i = nth B (16 * k + i) := by
  simp [nth, subBlock, hi]

/-- Every Block is its sub-blocks one after the other. -/
theorem flatMap_subBlock {B : List Word} {n : Nat} (hB : B.length = 16 * n) :
    (List.range n).flatMap (subBlock B) = B := by
  induction n generalizing B with
  | zero => exact (List.eq_nil_of_length_eq_zero hB).symm
  | succ n ih =>
    have hrest : subBlock B ∘ Nat.succ = subBlock (B.drop 16) := by
      funext k
      simp only [Function.comp_apply, subBlock, List.drop_drop, Nat.mul_succ, Nat.add_comm]
    rw [List.range_succ_eq_map, List.flatMap_cons, List.flatMap_map]
    change subBlock B 0 ++ (List.range n).flatMap (subBlock B ∘ Nat.succ) = B
    rw [hrest, ih (by rw [List.length_drop]; omega)]
    exact List.take_append_drop 16 B

/-- Sub-block `k` of the Block made of the sub-blocks `f 0`, `f 1`, … -/
theorem subBlock_flatMap {f : Nat → List Word} {n k : Nat} (hf : ∀ j < n, (f j).length = 16) (hk : k < n) :
    subBlock ((List.range n).flatMap f) k = f k := by
  have hsplit : List.range n = List.range k ++ (k :: (List.range (n - k - 1)).map (k + 1 + ·)) := by
    conv_lhs => rw [show n = (k + 1) + (n - k - 1) by omega, List.range_add, List.range_succ]
    simp
  have hbefore : ((List.range k).flatMap f).length = 16 * k := by
    rw [flatMap_range_length fun j hj => hf j (hj.trans hk), Nat.mul_comm]
  rw [hsplit, List.flatMap_append, List.flatMap_cons, subBlock, List.drop_left' hbefore,
    List.take_left' (hf k hk)]

/-! ### BlockMix -/

/-- The index of the output that BlockMix returns as its sub-block `k` (42_block_mixer.md R120). -/
def outputIndex (r k : Nat) : Nat := if k < r then 2 * k else 2 * (k - r) + 1

/-- The even-indexed members of `Y`, then the odd-indexed ones. -/
def evensThenOdds (Y : List (List Word)) (r : Nat) : List Word :=
  (List.range (2 * r)).flatMap fun k => Y.getD (outputIndex r k) []

theorem outputIndex_lt {r k : Nat} (hk : k < 2 * r) : outputIndex r k < 2 * r := by
  unfold outputIndex; split <;> omega

/-- The two halves BlockMix returns, as one list of sub-blocks. -/
theorem halves_eq_evensThenOdds (Y : List (List Word)) (r : Nat) :
    ((List.range r).flatMap fun k => Y.getD (2 * k) []) ++ ((List.range r).flatMap fun k => Y.getD (2 * k + 1) []) =
      evensThenOdds Y r := by
  rw [evensThenOdds, Nat.two_mul, List.range_add, List.flatMap_append, List.flatMap_map]
  congr 1
  · exact List.flatMap_congr fun k hk => by rw [outputIndex, if_pos (List.mem_range.mp hk)]
  · exact List.flatMap_congr fun k _ => by rw [outputIndex, if_neg (by omega), Nat.add_sub_cancel_left]

/-- The outputs `Y[0]`, `Y[1]`, … of BlockMix of `B` (42_block_mixer.md R120). -/
def outputs (alg : Alg) (B : List Word) (r R : Nat) : List (List Word) :=
  mixChain alg R ((List.range (2 * r)).map (subBlock B)) (subBlock B (2 * r - 1))

theorem blockMix_eq (alg : Alg) (B : List Word) (r R : Nat) :
    blockMix alg B r R = evensThenOdds (outputs alg B r R) r :=
  halves_eq_evensThenOdds _ r

@[simp] theorem outputs_length (alg : Alg) (B : List Word) (r R : Nat) : (outputs alg B r R).length = 2 * r := by
  simp [outputs]

theorem subBlock_mem_length {B : List Word} {n : Nat} (hB : B.length = 16 * n) :
    ∀ b ∈ (List.range n).map (subBlock B), b.length = 16 := by
  intro b hb
  obtain ⟨k, hk, rfl⟩ := List.mem_map.mp hb
  have hk : k < n := List.mem_range.mp hk
  exact subBlock_length (by omega)

section
variable {alg : Alg} {B : List Word} {r R : Nat} (hB : B.length = 32 * r)
include hB

theorem outputs_getD_length {k : Nat} (hk : k < 2 * r) : ((outputs alg B r R).getD k []).length = 16 := by
  have hk : k < (outputs alg B r R).length := by rwa [outputs_length]
  rw [List.getD_eq_getElem _ _ hk]
  exact mixChain_mem_length (subBlock_length (by omega)) (subBlock_mem_length (by omega)) (List.getElem_mem hk)

theorem subBlock_blockMix {k : Nat} (hk : k < 2 * r) :
    subBlock (blockMix alg B r R) k = (outputs alg B r R).getD (outputIndex r k) [] := by
  rw [blockMix_eq]
  exact subBlock_flatMap (fun j hj => outputs_getD_length hB (outputIndex_lt hj)) hk

end

/-- Each output of the chain is the core of the output before it, or of `X` for the first, combined with the sub-block
at its place. -/
theorem mixChain_getD {alg : Alg} {R : Nat} {bs : List (List Word)} {X : List Word} {i : Nat} (hi : i < bs.length) :
    (mixChain alg R bs X).getD i [] =
      corePerm alg (xorWords ((X :: mixChain alg R bs X).getD i []) (bs.getD i [])) R := by
  induction bs generalizing X i with
  | nil => exact absurd hi (Nat.not_lt_zero i)
  | cons b bs ih =>
    cases i with
    | zero => rfl
    | succ i => exact ih (Nat.lt_of_succ_lt_succ hi)

theorem outputs_getD {alg : Alg} {B : List Word} {r R i : Nat} (hi : i < 2 * r) :
    (outputs alg B r R).getD i [] =
      corePerm alg (xorWords ((subBlock B (2 * r - 1) :: outputs alg B r R).getD i []) (subBlock B i)) R := by
  have hb : ((List.range (2 * r)).map (subBlock B)).getD i [] = subBlock B i := by simp [hi]
  rw [← hb]
  exact mixChain_getD (by simpa using hi)

/-! ### Shuffle and unshuffle -/

/-- The index map `σ` as a function (42_block_mixer.md R121). -/
def sigmaIndex (i : Nat) : Nat := sigma.getD i 0

theorem sigmaIndex_renumbering : Renumbering sigmaIndex := ⟨by decide, by decide⟩

/-- `σ` is its own inverse, the reason for R123. -/
theorem sigmaIndex_sigmaIndex : ∀ i < 16, sigmaIndex i < 16 ∧ sigmaIndex (sigmaIndex i) = i := by decide

/-- Writing Word `i` of `b` at `p i`, for each `i` below `n`, leaves it there: no later write goes to the same place. -/
theorem nth_foldl_set {p : Nat → Nat} {b out : List Word} {n : Nat} (hlt : ∀ i < n, p i < out.length)
    (hinj : ∀ i < n, ∀ j < n, p i = p j → i = j) :
    ((List.range n).foldl (fun out i => out.set (p i) (nth b i)) out).length = out.length ∧
      ∀ i < n, nth ((List.range n).foldl (fun out i => out.set (p i) (nth b i)) out) (p i) = nth b i := by
  induction n with
  | zero => exact ⟨rfl, fun i hi => absurd hi (Nat.not_lt_zero i)⟩
  | succ n ih =>
    obtain ⟨hlen, hnth⟩ := ih (fun i hi => hlt i (by omega)) fun i hi j hj => hinj i (by omega) j (by omega)
    rw [List.range_succ, List.foldl_append]
    simp only [List.foldl_cons, List.foldl_nil, List.length_set, hlen, true_and]
    intro i hi
    rcases Nat.lt_succ_iff_lt_or_eq.mp hi with hin | rfl
    · rw [nth_set_ne fun heq => Nat.ne_of_gt hin (hinj n (by omega) i hi heq), hnth i hin]
    · exact nth_set_same (by rw [hlen]; exact hlt i hi) _

/-- On one sub-block both maps renumber the Words by `σ`, because `σ` is its own inverse. -/
theorem unshuffleSub_eq_renumbered {b : List Word} (hb : b.length = 16) : unshuffleSub b = renumbered sigmaIndex b := by
  obtain ⟨_, hnth⟩ := nth_foldl_set (p := sigmaIndex) (b := b) (out := b) (n := 16)
    (fun i hi => by rw [hb]; exact sigmaIndex_renumbering.lt i hi) sigmaIndex_renumbering.inj
  refine ext_nth (by simp [hb]) fun j hj => ?_
  have hj : j < 16 := by simpa [hb] using hj
  obtain ⟨hlt, hback⟩ := sigmaIndex_sigmaIndex j hj
  calc nth (unshuffleSub b) j = nth (unshuffleSub b) (sigmaIndex (sigmaIndex j)) := by rw [hback]
    _ = nth b (sigmaIndex j) := hnth _ hlt
    _ = nth (renumbered sigmaIndex b) j := (nth_renumbered hj).symm

theorem shuffle_eq (B : List Word) (r : Nat) :
    shuffle B r = (List.range (2 * r)).flatMap fun k => renumbered sigmaIndex (subBlock B k) := by
  refine List.flatMap_congr fun k _ => ?_
  have hrow : (sigma.map fun s => nth B (16 * k + s)) = (List.range 16).map fun i => nth B (16 * k + sigmaIndex i) := rfl
  rw [hrow]
  exact List.map_congr_left fun i hi =>
    (nth_subBlock B k (sigmaIndex_renumbering.lt i (List.mem_range.mp hi))).symm

theorem subBlock_shuffle {B : List Word} {r k : Nat} (hk : k < 2 * r) :
    subBlock (shuffle B r) k = renumbered sigmaIndex (subBlock B k) := by
  rw [shuffle_eq]
  exact subBlock_flatMap (fun _ _ => renumbered_length) hk

/-- Word `16k + i` of a shuffled Block (42_block_mixer.md R121). -/
theorem nth_shuffle (B : List Word) {r k i : Nat} (hk : k < 2 * r) (hi : i < 16) :
    nth (shuffle B r) (16 * k + i) = nth B (16 * k + sigmaIndex i) := by
  rw [← nth_subBlock _ k hi, subBlock_shuffle hk, nth_renumbered hi,
    nth_subBlock B k (sigmaIndex_renumbering.lt i hi)]

section
variable {B : List Word} {r : Nat} (hB : B.length = 32 * r)
include hB

theorem unshuffle_eq_shuffle : unshuffle B r = shuffle B r := by
  rw [shuffle_eq]
  refine List.flatMap_congr fun k hk => unshuffleSub_eq_renumbered (subBlock_length ?_)
  have hk : k < 2 * r := List.mem_range.mp hk
  omega

theorem shuffle_shuffle : shuffle (shuffle B r) r = B := by
  calc shuffle (shuffle B r) r
      = (List.range (2 * r)).flatMap (subBlock B) := by
        rw [shuffle_eq]
        refine List.flatMap_congr fun k hk => ?_
        have hk : k < 2 * r := List.mem_range.mp hk
        rw [subBlock_shuffle hk, renumbered_renumbered (subBlock_length (by omega)) sigmaIndex_sigmaIndex]
    _ = B := flatMap_subBlock (by omega)

theorem unshuffle_shuffle : unshuffle (shuffle B r) r = B := by
  rw [unshuffle_eq_shuffle (shuffle_length B r), shuffle_shuffle hB]

end

/-- Word `16k + σ[i]` of an unshuffled Block (42_block_mixer.md R122). -/
theorem nth_unshuffle {B : List Word} {r k i : Nat} (hB : B.length = 32 * r) (hk : k < 2 * r) (hi : i < 16) :
    nth (unshuffle B r) (16 * k + sigmaIndex i) = nth B (16 * k + i) := by
  obtain ⟨hlt, hback⟩ := sigmaIndex_sigmaIndex i hi
  rw [unshuffle_eq_shuffle hB, nth_shuffle B hk hlt, hback]

/-! ### The shuffled datapath -/

theorem simdBlockMix_eq (B : List Word) (r R : Nat) :
    simdBlockMix B r R =
      evensThenOdds (simdChain R ((List.range (2 * r)).map (subBlock B)) (subBlock B (2 * r - 1))) r :=
  halves_eq_evensThenOdds _ r

theorem renumbered_xorWords {p : Nat → Nat} (hp : Renumbering p) {x y : List Word} (hx : x.length = 16)
    (hy : y.length = 16) : renumbered p (xorWords x y) = xorWords (renumbered p x) (renumbered p y) := by
  refine ext_nth (by simp) fun i hi => ?_
  have hi : i < 16 := by simpa using hi
  have hpi := hp.lt i hi
  rw [nth_renumbered hi, nth_xorWords (by omega) (by omega), nth_xorWords (by simpa) (by simpa), nth_renumbered hi,
    nth_renumbered hi]

/-- The SIMD core of a shuffled sub-block is the shuffled Salsa core of the sub-block. -/
theorem simdCore_renumbered {x : List Word} (hx : x.length = 16) (R : Nat) :
    simdCore (renumbered sigmaIndex x) R = renumbered sigmaIndex (corePerm .salsa x R) := by
  have hcore (w : List Word) : simdCore w R = renumbered sigmaIndex (salsa (unshuffleSub w) R) := rfl
  rw [hcore, unshuffleSub_eq_renumbered renumbered_length, renumbered_renumbered hx sigmaIndex_sigmaIndex]
  rfl

/-- The simulation: the SIMD chain over shuffled sub-blocks runs in step with the Salsa chain over the sub-blocks. -/
theorem simdChain_renumbered {R : Nat} {bs : List (List Word)} {X : List Word} (hX : X.length = 16)
    (hbs : ∀ b ∈ bs, b.length = 16) :
    simdChain R (bs.map (renumbered sigmaIndex)) (renumbered sigmaIndex X) =
      (mixChain .salsa R bs X).map (renumbered sigmaIndex) := by
  induction bs generalizing X with
  | nil => rfl
  | cons b bs ih =>
    have hb : b.length = 16 := hbs b List.mem_cons_self
    have hcore : simdCore (xorWords (renumbered sigmaIndex X) (renumbered sigmaIndex b)) R =
        renumbered sigmaIndex (corePerm .salsa (xorWords X b) R) := by
      rw [← renumbered_xorWords sigmaIndex_renumbering hX hb, simdCore_renumbered (by simp [hX, hb])]
    simp only [List.map_cons, simdChain, mixChain, hcore]
    rw [ih (by simp [hX, hb]) fun c hc => hbs c (List.mem_cons_of_mem _ hc)]

/-- BlockMix of a shuffled Block with the SIMD core is the shuffled BlockMix. -/
theorem simdBlockMix_shuffle {B : List Word} {r : Nat} (R : Nat) (hr : 1 ≤ r) (hB : B.length = 32 * r) :
    simdBlockMix (shuffle B r) r R = shuffle (blockMix .salsa B r R) r := by
  have hblocks : (List.range (2 * r)).map (subBlock (shuffle B r)) =
      ((List.range (2 * r)).map (subBlock B)).map (renumbered sigmaIndex) := by
    rw [List.map_map]
    exact List.map_congr_left fun k hk => subBlock_shuffle (List.mem_range.mp hk)
  have hchain : simdChain R ((List.range (2 * r)).map (subBlock (shuffle B r))) (subBlock (shuffle B r) (2 * r - 1)) =
      (outputs .salsa B r R).map (renumbered sigmaIndex) := by
    rw [hblocks, subBlock_shuffle (by omega)]
    exact simdChain_renumbered (subBlock_length (by omega)) (subBlock_mem_length (by omega))
  rw [simdBlockMix_eq, hchain, shuffle_eq]
  refine List.flatMap_congr fun k hk => ?_
  have hk : k < 2 * r := List.mem_range.mp hk
  have hout : outputIndex r k < (outputs .salsa B r R).length := by simpa using outputIndex_lt hk
  rw [subBlock_blockMix hB hk, List.getD_eq_getElem _ _ (by simpa using hout), List.getD_eq_getElem _ _ hout,
    List.getElem_map]

end Sys2Proof.Machine

namespace Sys2Proof.Proofs

open Sys2Proof.Machine Sys2Proof.Spec

/-- Settles O33: the outputs are those of the chain (`outputs_getD`), and `subBlock_blockMix` says which of them each
sub-block of the result is. -/
theorem blockMixOutputs : Obligations.BlockMixOutputs := by
  intro alg B r R hr hB
  refine ⟨fun i => (outputs alg B r R).getD i [], outputs_getD (by omega), fun i hi => outputs_getD hi,
    blockMix_length alg R hB, fun k hk => ⟨?even, ?odd⟩, fun k hk => ⟨subBlock_length (by omega), ?words⟩,
    fun x y hxy => ⟨by simp [hxy], fun i hi => nth_xorWords hi (hxy ▸ hi)⟩⟩
  case even => rw [subBlock_blockMix hB (by omega), outputIndex, if_pos hk]
  case odd => rw [subBlock_blockMix hB (by omega), outputIndex, if_neg (by omega), Nat.add_sub_cancel_left]
  case words => exact fun i hi => nth_subBlock B k hi

/-- Settles O34: on a Block both maps renumber every sub-block by `σ` (`unshuffle_eq_shuffle`), which is its own inverse
(`shuffle_shuffle`). -/
theorem shuffleIsItsOwnInverse : Obligations.ShuffleIsItsOwnInverse :=
  fun _ _ _ hw => ⟨unshuffle_shuffle hw, shuffle_shuffle hw, unshuffle_eq_shuffle hw⟩

/-- Settles O35, by the simulation of the two chains (`simdChain_renumbered`): the SIMD datapath leaves the shuffled
BlockMix, which the unshuffle undoes. -/
theorem shuffledDatapathIsBlockMix : Obligations.ShuffledDatapathIsBlockMix := by
  intro B r R hr hB
  rw [simdBlockMix_shuffle R hr hB, unshuffle_shuffle (blockMix_length .salsa R hB)]

end Sys2Proof.Proofs
end

section
/-! Completion of the Block commands (42_block_mixer.md R125 to R129): each writes one Block, whose Words are those of
the datapath's function. -/

namespace Sys2Proof.Machine

open Sys2Proof.Spec

/-- A command that computes one Block at `a` leaves it there and nothing else in DMEM. -/
theorem exec_busy_writingBlock {s : State} {i : Instr} {a r : Nat} {ws : List Word} (hb : s.status.busy = true)
    (hres : resultsOf i s = .writing s [(a, bytesOf ws)]) (hlen : ws.length = 32 * r) :
    ∃ t, exec i s = .next t ∧ Done s t ∧ NoProgress t ∧ KeepsPads s t ∧
      readWords t.mem a (32 * r) = ws ∧ Untouched s t (Inside a (128 * r)) := by
  have hbytes : 128 * r = 4 * (32 * r) := by omega
  rw [hbytes]
  exact exec_busy_writing hb hres hlen

/-- Word `k` of a Block that stands in DMEM. -/
theorem wordAt_of_readWords {m : Memory} {a n k : Nat} {ws : List Word} (h : readWords m a n = ws) (hk : k < n) :
    wordAt m (a + 4 * k) = nth ws k := by
  rw [← h, nth_readWords m a hk]

theorem nth_blockAt (s : State) (i : Fin 12) {k : Nat} (hk : k < 32 * s.latch.arg 2) :
    nth (blockAt s i) k = wordAt s.mem (s.latch.arg i + 4 * k) :=
  nth_readWords s.mem _ hk

end Sys2Proof.Machine

namespace Sys2Proof.Proofs

open Sys2Proof.Machine Sys2Proof.Spec

/-- Settles O19: both commands write one Block at `ARG1` (`exec_busy_writingBlock`). -/
theorem blockmixCommandsComplete : Obligations.BlockmixCommandsComplete := by
  intro f s hb
  have hlen (alg : Alg) : (blockMix alg (blockAt s 0) (s.latch.arg 2) (roundCount f)).length = 32 * s.latch.arg 2 :=
    blockMix_length alg _ (blockAt_length s 0)
  exact ⟨exec_busy_writingBlock hb rfl (hlen .salsa), exec_busy_writingBlock hb rfl (hlen .chacha)⟩

/-- Settles O20: both commands write one Block at `ARG1` (`exec_busy_writingBlock`), whose Words `nth_shuffle` and
`nth_unshuffle` give. -/
theorem shuffleCommandsComplete : Obligations.ShuffleCommandsComplete := by
  intro s hb
  obtain ⟨t, hx, hdone, hprog, hpads, hwords, hrest⟩ :=
    exec_busy_writingBlock (i := .shuffle) hb rfl (shuffle_length (blockAt s 0) (s.latch.arg 2))
  obtain ⟨u, ux, udone, uprog, upads, uwords, urest⟩ :=
    exec_busy_writingBlock (i := .unshuffle) hb rfl (unshuffle_length (blockAt_length s 0))
  refine ⟨⟨t, hx, hdone, hprog, hpads, fun k hk i hi => ?shuffled, hrest⟩,
    u, ux, udone, uprog, upads, fun k hk i hi => ?unshuffled, urest⟩
  case shuffled =>
    have hsigma := sigmaIndex_renumbering.lt i hi
    calc wordAt t.mem (s.latch.arg 1 + 4 * (16 * k + i))
        = nth (shuffle (blockAt s 0) (s.latch.arg 2)) (16 * k + i) := wordAt_of_readWords hwords (by omega)
      _ = nth (blockAt s 0) (16 * k + sigmaIndex i) := nth_shuffle _ hk hi
      _ = wordAt s.mem (s.latch.arg 0 + 4 * (16 * k + sigmaIndex i)) := nth_blockAt s 0 (by omega)
  case unshuffled =>
    have hsigma := sigmaIndex_renumbering.lt i hi
    calc wordAt u.mem (s.latch.arg 1 + 4 * (16 * k + sigmaIndex i))
        = nth (unshuffle (blockAt s 0) (s.latch.arg 2)) (16 * k + sigmaIndex i) :=
          wordAt_of_readWords uwords (by omega)
      _ = nth (blockAt s 0) (16 * k + i) := nth_unshuffle (blockAt_length s 0) hk hi
      _ = wordAt s.mem (s.latch.arg 0 + 4 * (16 * k + i)) := nth_blockAt s 0 (by omega)

/-- Settles O21: the command writes one Block at `ARG3` (`exec_busy_writingBlock`), whose Words `nth_xorWords` gives. -/
theorem blkxorCompletes : Obligations.BlkxorCompletes := by
  intro s hb
  have hlen : (xorWords (blockAt s 0) (blockAt s 1)).length = 32 * s.latch.arg 2 := by simp
  obtain ⟨t, hx, hdone, hprog, hpads, hwords, hrest⟩ := exec_busy_writingBlock (i := .blkxor) hb rfl hlen
  refine ⟨t, hx, hdone, hprog, hpads, fun k hk => ?_, hrest⟩
  rw [wordAt_of_readWords hwords hk, nth_xorWords (by simpa using hk) (by simpa using hk), nth_blockAt s 0 hk,
    nth_blockAt s 1 hk]

end Sys2Proof.Proofs
end

section
/-! The phases of ROMix in closed form (43_romix.md R141 to R143): each is one function of the Block, iterated. -/

namespace Sys2Proof.Machine

/-! ### The fill phase -/

/-- The fill phase stores the first `n` iterates of BlockMix and leaves the next one (43_romix.md R142). -/
theorem fill_eq (alg : Alg) (r R n : Nat) (X : List Word) :
    fill alg r R n X =
      ((List.range n).map fun i => (fun Y => blockMix alg Y r R)^[i] X, (fun Y => blockMix alg Y r R)^[n] X) := by
  induction n generalizing X with
  | zero => rfl
  | succ n ih =>
    simp only [fill, ih, List.range_succ_eq_map, List.map_cons, List.map_map, Function.iterate_zero, id_eq,
      Function.iterate_succ_apply]
    rfl

theorem fill_slot {alg : Alg} {r R n i : Nat} {X : List Word} (hi : i < n) :
    (fill alg r R n X).1.getD i [] = (fun Y => blockMix alg Y r R)^[i] X := by
  simp [fill_eq, hi]

theorem fill_x (alg : Alg) (r R n : Nat) (X : List Word) :
    (fill alg r R n X).2 = (fun Y => blockMix alg Y r R)^[n] X := by
  rw [fill_eq]

/-- What the fill phase leaves is BlockMix of the last slot. -/
theorem fill_x_of_last_slot {alg : Alg} {r R n : Nat} {X : List Word} (hn : 1 ≤ n) :
    (fill alg r R n X).2 = blockMix alg ((fill alg r R n X).1.getD (n - 1) []) r R := by
  obtain ⟨k, rfl⟩ : ∃ k, n = k + 1 := ⟨n - 1, by omega⟩
  rw [fill_x, Nat.add_sub_cancel, fill_slot (Nat.lt_succ_self k), Function.iterate_succ_apply']

/-! ### The gather phase -/

/-- One iteration of the gather phase (43_romix.md R143). -/
def gatherStep (alg : Alg) (r N R : Nat) (V : List (List Word)) (X : List Word) : List Word :=
  blockMix alg (xorWords X (V.getD (gatherIndex X r N).toNat [])) r R

/-- The gather phase is its iteration repeated, and the index it leaves is the last iteration's. -/
theorem gather_succ (alg : Alg) (r N R : Nat) (V : List (List Word)) (n : Nat) (X : List Word) (j : Word) :
    gather alg r N R V (n + 1) X j =
      ((gatherStep alg r N R V)^[n + 1] X, gatherIndex ((gatherStep alg r N R V)^[n] X) r N) := by
  induction n generalizing X j with
  | zero => rfl
  | succ n ih => exact ih (gatherStep alg r N R V X) (gatherIndex X r N)

section
variable (alg : Alg) (B : List Word) (r N R : Nat)

/-- The `X` of a ROMix run at the start of gather iteration `i`. -/
def gatherBlock (i : Nat) : List Word :=
  (gatherStep alg r N R (roMix alg B r N R).table)^[i] (fill alg r R N B).2

theorem gatherBlock_succ (i : Nat) :
    gatherBlock alg B r N R (i + 1) = gatherStep alg r N R (roMix alg B r N R).table (gatherBlock alg B r N R i) :=
  Function.iterate_succ_apply' ..

variable {N} (hN : 1 ≤ N)
include hN

/-- What a ROMix run of at least one slot leaves (43_romix.md R144). -/
theorem roMix_eq :
    roMix alg B r N R =
      { x := gatherBlock alg B r N R N
        table := (fill alg r R N B).1
        lastJ := gatherIndex (gatherBlock alg B r N R (N - 1)) r N } := by
  obtain ⟨n, rfl⟩ : ∃ n, N = n + 1 := ⟨N - 1, by omega⟩
  simp only [roMix, gather_succ]
  rfl

end

end Sys2Proof.Machine

namespace Sys2Proof.Proofs

open Sys2Proof.Machine Sys2Proof.Spec

/-- Settles O36, from the closed form of the fill phase: slot `i` is the `i`-th iterate of BlockMix (`fill_slot`). -/
theorem fillWritesSuccessiveBlocks : Obligations.FillWritesSuccessiveBlocks := by
  intro alg B r N R hN
  refine ⟨rfl, fill_length alg r R N B, fill_slot hN, fun i hi => ?next, fill_x_of_last_slot hN⟩
  case next => rw [fill_slot hi, fill_slot (Nat.lt_of_succ_lt hi), Function.iterate_succ_apply']

/-- Settles O37, from the closed form of the run (`roMix_eq`): `Z` are its Blocks at the start of each iteration, and
`J` their gather indices. -/
theorem gatherFollowsIntegerify : Obligations.GatherFollowsIntegerify := by
  intro alg B r N R hN
  have hrun := roMix_eq alg B r R hN
  exact ⟨gatherBlock alg B r N R, fun i => gatherIndex (gatherBlock alg B r N R i) r N, fill_x_of_last_slot hN,
    fun i _ => ⟨rfl, gatherBlock_succ alg B r N R i⟩, congrArg RomixRun.x hrun, congrArg RomixRun.lastJ hrun⟩

/-- Settles O38: masking with `2^m - 1` takes the remainder modulo `2^m`. -/
theorem gatherIndexIsRemainder : Obligations.GatherIndexIsRemainder := by
  intro X r m hm
  have hpow : 2 ^ m < 2 ^ 32 := Nat.pow_lt_pow_right (by omega) hm
  have hmask : (BitVec.ofNat 32 (2 ^ m - 1)).toNat = 2 ^ m - 1 := by
    rw [BitVec.toNat_ofNat, Nat.mod_eq_of_lt (by omega)]
  refine ⟨?_, gatherIndex_lt X r Nat.one_le_two_pow hpow.le⟩
  rw [gatherIndex, BitVec.toNat_and, hmask, Nat.and_two_pow_sub_one_eq_mod, integerify]

end Sys2Proof.Proofs
end

section
/-! Acceptance of the ROMix commands (43_romix.md R147 to R149): the checks of their table, in order. -/

namespace Sys2Proof.Machine

open Sys2Proof.Spec

section
variable {l : Latch} {t : OperandTable}

theorem notPow2_iff (l : Latch) (i : Fin 12) : NotPow2 (l.arg i) ↔ ¬ isPow2 l.args[i] = true := by
  rw [isPow2_iff]
  simp [Latch.arg]

/-- The `PARAM_N` check of a table with one power-of-two argument. -/
theorem checkPow2_of_singleton {i : Fin 12} (h : t.pow2 = [i]) :
    checkPow2 l t = failIf (NotPow2 (l.arg i)) ⟨.paramN, argName i⟩ := by
  rw [checkPow2, h, findSome?_cons_or]
  simp only [failIf, notPow2_iff, ite_not]
  exact Option.or_none

section
variable {need : Nat} (h : t.scratch = some (scratchOf l need))
include h

/-- The `TOO_LARGE` check on a scratch need. -/
theorem checkLimit_of_scratch : checkLimit l t = failIf (l.scratchLimit.toNat < need) ⟨.tooLarge, 13⟩ := by
  rw [checkLimit, h]
  rfl

/-- The `ALIGN` check on `SCRATCH_BASE`. -/
theorem checkScratchAlign_of_scratch : checkScratchAlign t = failIf (l.sbase % 128 ≠ 0) ⟨.align, 12⟩ := by
  rw [checkScratchAlign, h]
  rfl

/-- The `ALLOC` check on a scratch need. -/
theorem checkAlloc_of_scratch (p : Params) :
    checkAlloc p t = failIf (¬ Fits p.memSize l.sbase need) ⟨.alloc, 12⟩ := by
  simp only [checkAlloc, h, Option.bind_some, failIf, ite_not, inbounds_iff]
  rfl

end

end

/-- The checks of a ROMix command whose scratch need is `need`, in order (43_romix.md R147). -/
theorem check_romixTable (p : Params) (l : Latch) (need : Nat) :
    check p l (romixTable l need) =
      (failIf (l.arg 2 = 0) ⟨.zero, 2⟩).or ((failIf (NotPow2 (l.arg 3)) ⟨.paramN, 3⟩).or
        ((failIf (p.rMax < l.arg 2) ⟨.tooLarge, 2⟩).or
          ((failIf (l.scratchLimit.toNat < need) ⟨.tooLarge, 13⟩).or
            ((failIf (l.arg 0 % 4 ≠ 0) ⟨.align, 0⟩).or ((failIf (l.arg 1 % 4 ≠ 0) ⟨.align, 1⟩).or
              ((failIf (l.sbase % 128 ≠ 0) ⟨.align, 12⟩).or
                ((failIf (¬ Fits p.memSize (l.arg 0) (128 * l.arg 2)) ⟨.bounds, 0⟩).or
                  ((failIf (¬ Fits p.memSize (l.arg 1) (128 * l.arg 2)) ⟨.bounds, 1⟩).or
                    ((failIf (¬ Fits p.memSize l.sbase need) ⟨.alloc, 12⟩).or
                      ((failIf (Overlaps (l.arg 1) (128 * l.arg 2) (l.arg 0) (128 * l.arg 2) ∧ l.arg 1 ≠ l.arg 0)
                        ⟨.overlap, 1⟩).or
                        ((failIf (Overlaps (l.arg 0) (128 * l.arg 2) l.sbase need) ⟨.overlap, 0⟩).or
                          (failIf (Overlaps (l.arg 1) (128 * l.arg 2) l.sbase need) ⟨.overlap, 1⟩)))))))))))) := by
  have hzero : checkZero l (romixTable l need) = failIf (l.arg 2 = 0) ⟨.zero, 2⟩ := by
    simp [checkZero, romixTable, failIf, argName]
  have hpow : checkPow2 l (romixTable l need) = failIf (NotPow2 (l.arg 3)) ⟨.paramN, 3⟩ :=
    checkPow2_of_singleton rfl
  have hrmax : checkRMax p l (romixTable l need) = failIf (p.rMax < l.arg 2) ⟨.tooLarge, 2⟩ := by
    simp [checkRMax, romixTable, failIf, argName]
  have hscratch : (romixTable l need).scratch = some (scratchOf l need) := rfl
  rw [check_eq_or, hzero, hpow, hrmax, checkLimit_of_scratch hscratch, checkScratchAlign_of_scratch hscratch,
    checkAlloc_of_scratch hscratch]
  simp [checkHeader, checkAlign_eq, checkBounds_eq, checkOverlap_eq, romixTable, findSome?_cons_or, Option.or_assoc,
    inputAt, resultAt, scratchOf, argName]

end Sys2Proof.Machine

namespace Sys2Proof.Proofs

open Sys2Proof.Machine Sys2Proof.Spec

/-- Settles O13: the step of an idle command is the answer of its checks (`exec_idle`), which for all three commands are
`ROUNDS` and the chain of `check_romixTable` at the command's scratch need. -/
theorem romixAcceptance : Obligations.RomixAcceptance := by
  intro f s i hidle hi
  obtain ⟨hfield, htable⟩ : i.roundsField = some f ∧
      operandTable i s.latch = romixTable s.latch
        (if i = .romix2 f then 2 * 128 * s.latch.arg 2 * s.latch.arg 3 else 128 * s.latch.arg 2 * s.latch.arg 3) := by
    simp only [List.mem_cons, List.not_mem_nil, or_false] at hi
    rcases hi with rfl | rfl | rfl
    · exact ⟨rfl, rfl⟩
    · exact ⟨rfl, rfl⟩
    · exact ⟨rfl, by simp only [operandTable, romix2Table, if_true, Nat.mul_assoc]⟩
  rw [exec_idle i hidle, checkRounds_of_field hfield, htable, check_romixTable]
  simp only [afterChecks_failIf_or, afterChecks_failIf]
  rfl

end Sys2Proof.Proofs
end

section
/-! Completion of the ROMix commands (43_romix.md R147 to R149): the slots of a table that stands in DMEM, and the
writes that leave them alone. -/

namespace Sys2Proof.Machine

open Sys2Proof.Spec

/-! ### A table in DMEM -/

/-- A part of a list of Words that stands in DMEM. -/
theorem readWords_part (m : Memory) (a : Nat) {i n k : Nat} (h : i + k ≤ n) :
    readWords m (a + 4 * i) k = ((readWords m a n).drop i).take k := by
  have hlen : k ≤ n - i := by omega
  refine ext_nth (by simpa using hlen) fun j hj => ?_
  have hj : j < k := by simpa using hj
  calc nth (readWords m (a + 4 * i) k) j = wordAt m (a + 4 * i + 4 * j) := nth_readWords m _ hj
    _ = wordAt m (a + 4 * (i + j)) := by rw [Nat.mul_add, Nat.add_assoc]
    _ = nth (readWords m a n) (i + j) := (nth_readWords m a (by omega)).symm
    _ = nth (((readWords m a n).drop i).take k) j := by simp [nth, hj]

/-- A table's bytes are those of its slots' Words, one slot after the other (43_romix.md R140). -/
theorem tableBytes_eq_bytesOf (V : List (List Word)) : tableBytes V = bytesOf V.flatten := by
  induction V with
  | nil => rfl
  | cons v V ih => exact (congrArg (bytesOf v ++ ·) ih).trans List.flatMap_append.symm

/-- Slot `k` of a table whose slots are `n` Words each. -/
theorem flatten_slot {V : List (List Word)} {n k : Nat} (hV : ∀ v ∈ V, v.length = n) (hk : k < V.length) :
    (V.flatten.drop (n * k)).take n = V.getD k [] := by
  induction V generalizing k with
  | nil => exact absurd hk (Nat.not_lt_zero k)
  | cons v V ih =>
    have hv : v.length = n := hV v List.mem_cons_self
    cases k with
    | zero => exact List.take_left' hv
    | succ k =>
      rw [List.flatten_cons, Nat.mul_succ, Nat.add_comm, ← List.drop_drop, List.drop_left' hv]
      exact ih (fun w hw => hV w (List.mem_cons_of_mem _ hw)) (Nat.lt_of_succ_lt_succ hk)

/-- A slot ends where the table ends or before. -/
theorem slot_end_le {r k N : Nat} (hk : k < N) : 128 * r * k + 128 * r ≤ 128 * r * N := by
  rw [← Nat.mul_succ]
  exact Nat.mul_le_mul_left _ hk

/-- What slot `k` of a table just written reads (43_romix.md R140). -/
theorem readWords_slot (m : Memory) (a : Nat) {r k : Nat} {V : List (List Word)} (hV : ∀ v ∈ V, v.length = 32 * r)
    (hk : k < V.length) : readWords (memWrite m a (tableBytes V)) (a + 128 * r * k) (32 * r) = V.getD k [] := by
  have hlen : 4 * V.flatten.length = 128 * r * V.length := by
    rw [← tableBytes_length hV, tableBytes_eq_bytesOf, bytesOf_length]
  have hword : 128 * r * k = 4 * (32 * r * k) := by rw [← Nat.mul_assoc, ← Nat.mul_assoc]
  have hend := slot_end_le (r := r) hk
  rw [tableBytes_eq_bytesOf, hword, readWords_part _ a (n := V.flatten.length) (by omega), readWords_memWrite,
    flatten_slot hV hk]

/-- A write that does not overlap a table leaves every slot alone. -/
theorem readWords_slot_outside {m : Memory} {a base r N k : Nat} {v : List Byte} (hk : k < N)
    (hout : ¬ Overlaps a v.length base (128 * r * N)) :
    readWords (memWrite m a v) (base + 128 * r * k) (32 * r) = readWords m (base + 128 * r * k) (32 * r) := by
  have hend := slot_end_le (r := r) hk
  refine readWords_memWrite_outside ?_
  rw [← List.length_eq_zero_iff]
  omega

/-- What slot `k` of a ROMix run's table reads after a later write that does not overlap the table. -/
theorem readWords_roMix_slot (m : Memory) {alg : Alg} {B : List Word} {a base r N R k : Nat} {v : List Byte}
    (hB : B.length = 32 * r) (hk : k < N) (hout : ¬ Overlaps a v.length base (128 * r * N)) :
    readWords (memWrite (memWrite m base (tableBytes (roMix alg B r N R).table)) a v) (base + 128 * r * k) (32 * r) =
      (roMix alg B r N R).table.getD k [] := by
  rw [readWords_slot_outside hk hout, readWords_slot m base (roMix_table_blocks hB) (by rwa [roMix_table_length])]

/-- A Block just written, read back. -/
theorem readWords_block (m : Memory) (a : Nat) {n : Nat} {X : List Word} (hX : X.length = n) :
    readWords (memWrite m a (bytesOf X)) a n = X := by
  subst hX
  exact readWords_memWrite m a X

/-! ### The two forms of completion -/

/-- A command whose results are one ROMix run's leaves its Block at `ARG1` and its table at `LSBASE`. -/
theorem romixResults_stored (alg : Alg) (f : BitVec 6) (s : State)
    (hout : ¬ Overlaps (s.latch.arg 1) (128 * s.latch.arg 2) s.latch.sbase (128 * s.latch.arg 2 * s.latch.arg 3)) :
    let r := s.latch.arg 2
    let N := s.latch.arg 3
    let run := roMix alg (blockAt s 0) r N (roundCount f)
    let m := memWrites s.mem (romixResults alg f s).writes
    readWords m (s.latch.arg 1) (32 * r) = run.x ∧
      ∀ k < N, readWords m (s.latch.sbase + 128 * r * k) (32 * r) = run.table.getD k [] := by
  intro r N run m
  have hx : run.x.length = 32 * r := roMix_x_length (blockAt_length s 0) (s.latch.arg_le 3)
  have hresult : ¬ Overlaps (s.latch.arg 1) (bytesOf run.x).length s.latch.sbase (128 * r * N) := by
    rwa [block_bytes_length hx]
  exact ⟨readWords_block _ _ hx, fun k hk => readWords_roMix_slot _ (blockAt_length s 0) hk hresult⟩

/-- `ROMIX2` leaves the exclusive OR of the two Blocks at `ARG1`, the Salsa table at `LSBASE` and the ChaCha table after
it. -/
theorem romix2Results_stored (f : BitVec 6) (s : State)
    (hout : ¬ Overlaps (s.latch.arg 1) (128 * s.latch.arg 2) s.latch.sbase (2 * 128 * s.latch.arg 2 * s.latch.arg 3)) :
    let r := s.latch.arg 2
    let N := s.latch.arg 3
    let runS := roMix .salsa (blockAt s 0) r N (roundCount f)
    let runC := roMix .chacha (blockAt s 0) r N (roundCount f)
    let m := memWrites s.mem (romix2Results f s).writes
    readWords m (s.latch.arg 1) (32 * r) = xorWords runS.x runC.x ∧
      (∀ k < N, readWords m (s.latch.sbase + 128 * r * k) (32 * r) = runS.table.getD k []) ∧
      ∀ k < N, readWords m (s.latch.sbase + 128 * r * N + 128 * r * k) (32 * r) = runC.table.getD k [] := by
  intro r N runS runC m
  have hblock : (blockAt s 0).length = 32 * r := blockAt_length s 0
  have hx (alg : Alg) := roMix_x_length (alg := alg) (R := roundCount f) hblock (s.latch.arg_le 3)
  have hxor : (xorWords runS.x runC.x).length = 32 * r := by rw [xorWords_length, hx, hx, Nat.min_self]
  have hneed : 2 * 128 * r * N = 128 * r * N + 128 * r * N := by simp only [← Nat.two_mul, Nat.mul_assoc]
  replace hout : ¬ Overlaps (s.latch.arg 1) (bytesOf (xorWords runS.x runC.x)).length s.latch.sbase
      (128 * r * N + 128 * r * N) := by rwa [block_bytes_length hxor, ← hneed]
  refine ⟨readWords_block _ _ hxor, fun k hk => ?salsa, fun k hk => ?chacha⟩
  case salsa =>
    have hresult : ¬ Overlaps (s.latch.arg 1) (bytesOf (xorWords runS.x runC.x)).length s.latch.sbase
        (128 * r * N) := by omega
    have htable : ¬ Overlaps (s.latch.sbase + 128 * r * N) (tableBytes runC.table).length s.latch.sbase
        (128 * r * N) := by omega
    exact (readWords_slot_outside hk hresult).trans (readWords_roMix_slot _ hblock hk htable)
  case chacha =>
    have hresult : ¬ Overlaps (s.latch.arg 1) (bytesOf (xorWords runS.x runC.x)).length
        (s.latch.sbase + 128 * r * N) (128 * r * N) := by omega
    exact readWords_roMix_slot _ hblock hk hresult

/-- A completion leaves every byte outside the command's results and scratch alone. -/
theorem untouched_complete (i : Instr) (s : State) :
    Untouched s (complete (resultsOf i s) s) (OutputByte i s.latch) := by
  intro a ha
  rw [← mayWrite_iff_outputByte] at ha
  exact (resultsOf_inside i s).untouched ha s.mem

end Sys2Proof.Machine

namespace Sys2Proof.Proofs

open Sys2Proof.Machine Sys2Proof.Spec

/-- Settles O22: both commands complete with the results of one run (`exec_busy`), which stand in DMEM as
`romixResults_stored` says. -/
theorem romixCommandsComplete : Obligations.RomixCommandsComplete := by
  intro f s i alg hb hi hout r N run
  obtain ⟨hres, hbytes⟩ : resultsOf i s = romixResults alg f s ∧
      OutputByte i s.latch = fun a => Inside (s.latch.arg 1) (128 * r) a ∨ Inside s.latch.sbase (128 * r * N) a := by
    simp only [List.mem_cons, List.not_mem_nil, or_false, Prod.mk.injEq] at hi
    rcases hi with ⟨rfl, rfl⟩ | ⟨rfl, rfl⟩ <;> exact ⟨rfl, rfl⟩
  obtain ⟨hblock, htable⟩ := romixResults_stored alg f s hout
  have hexec := exec_busy i hb
  have hrest := untouched_complete i s
  rw [hres] at hexec hrest
  rw [hbytes] at hrest
  exact ⟨_, hexec, done_complete _ s, ⟨rfl, rfl⟩, rfl, rfl, hblock, htable, hrest⟩

/-- Settles O23: the command completes with the results of the two runs (`exec_busy`), which stand in DMEM as
`romix2Results_stored` says. -/
theorem romix2Completes : Obligations.Romix2Completes := by
  intro f s hb hout r N runS runC
  obtain ⟨hblock, hsalsa, hchacha⟩ := romix2Results_stored f s hout
  refine ⟨_, exec_busy _ hb, done_complete _ s, ⟨rfl, rfl⟩, rfl, rfl, fun k hk => ?word,
    fun k hk => ⟨hsalsa k hk, ?slot⟩, untouched_complete _ s⟩
  case word =>
    have hlen (alg : Alg) : k < (roMix alg (blockAt s 0) r N (roundCount f)).x.length := by
      rwa [roMix_x_length (blockAt_length s 0) (s.latch.arg_le 3)]
    exact (wordAt_of_readWords hblock hk).trans (nth_xorWords (hlen .salsa) (hlen .chacha))
  case slot =>
    rw [Nat.mul_add, ← Nat.add_assoc]
    exact hchacha k hk

end Sys2Proof.Proofs
end

section
/-! SHA-256 and HMAC over the black-box compression (44_pbkdf2.md R160 to R163): the bytes of the padding and of a
digest, and the absorption of a padded message block by block. -/

namespace Sys2Proof.Machine

open Sys2Proof.Spec

/-! ### Big-endian forms -/

/-- `be32` byte by byte (00_scope.md R12). -/
theorem toBE_eq_map (w : Word) : toBE w = (List.range 4).map fun k => w.extractLsb' (24 - 8 * k) 8 := rfl

theorem toBE_getD (w : Word) {k : Nat} (hk : k < 4) : (toBE w).getD k 0 = w.extractLsb' (24 - 8 * k) 8 := by
  simp [toBE_eq_map, hk]

/-- A byte of a value held in `w` bits, from the value itself. -/
theorem ofNat_extractLsb' {w b : Nat} (h : b + 8 ≤ w) (v : Nat) :
    (BitVec.ofNat w v).extractLsb' b 8 = BitVec.ofNat 8 (v / 2 ^ b) := by
  refine BitVec.eq_of_getLsbD_eq fun i hi => ?_
  have hb : b + i < w := by omega
  simp only [BitVec.getLsbD_extractLsb', BitVec.getLsbD_ofNat, hi, hb, decide_true, Bool.true_and,
    Nat.testBit_div_two_pow, Nat.add_comm]

/-- `be64` byte by byte (00_scope.md R12). -/
theorem be64_eq_map (v : Nat) :
    be64 v = (List.range 8).map fun k => (BitVec.ofNat 64 v).extractLsb' (56 - 8 * k) 8 := by
  simp (disch := decide) [be64, toBE_eq_map, List.range_succ, ofNat_extractLsb', Nat.div_div_eq_div_mul]

/-- Element `n·i + k` of a concatenation of parts of `n` elements is element `k` of part `i`. -/
theorem flatMap_getD {α β : Type} {f : α → List β} {n : Nat} (hf : ∀ a, (f a).length = n) {l : List α} {i k : Nat}
    (hi : i < l.length) (hk : k < n) (d : β) : (l.flatMap f).getD (n * i + k) d = (f l[i]).getD k d := by
  induction l generalizing i with
  | nil => exact absurd hi (Nat.not_lt_zero i)
  | cons a l ih =>
    rw [List.flatMap_cons]
    cases i with
    | zero =>
      rw [Nat.mul_zero, Nat.zero_add, List.getD_append _ _ _ _ (by rwa [hf])]
      rfl
    | succ i =>
      have hskip : n * (i + 1) + k - n = n * i + k := by rw [Nat.mul_succ]; omega
      rw [List.getD_append_right _ _ _ _ (by rw [hf, Nat.mul_succ]; omega), hf, hskip]
      exact ih (Nat.lt_of_succ_lt_succ hi)

/-- A digest is the eight Words of the state, each most significant byte first (44_pbkdf2.md R160). -/
theorem digestOf_getD (H : Pad) (k : Fin 8) {j : Nat} (hj : j < 4) :
    (digestOf H).getD (4 * k.val + j) 0 = H[k].extractLsb' (24 - 8 * j) 8 := by
  rw [digestOf, flatMap_getD toBE_length (by simp) hj, toBE_getD _ hj]
  rfl

/-! ### The padded message -/

/-- The number of zero bytes in the padding of a message of `total` bytes (44_pbkdf2.md R160). -/
def zeroBytes (total : Nat) : Nat := (64 - (total + 9) % 64) % 64

theorem padded_eq (pre : Nat) (m : List Byte) :
    padded pre m = m ++ [0x80] ++ List.replicate (zeroBytes (pre + m.length)) 0 ++ be64 (8 * (pre + m.length)) := rfl

theorem zeroBytes_fills (total : Nat) : (total + 1 + zeroBytes total + 8) % 64 = 0 := by
  rw [zeroBytes]
  omega

theorem zeroBytes_least {total z : Nat} (h : z < zeroBytes total) : (total + 1 + z + 8) % 64 ≠ 0 := by
  rw [zeroBytes] at h
  omega

/-- After whole blocks the padded message is whole blocks (44_pbkdf2.md R160). -/
theorem padded_length_of_blocks {pre : Nat} (hpre : pre % 64 = 0) (m : List Byte) :
    (padded pre m).length % 64 = 0 := by
  have := padded_length pre m
  omega

/-- Bytes in front of a message may count as absorbed before it: the padding is the same. -/
theorem padded_append (pre : Nat) (b m : List Byte) : padded pre (b ++ m) = b ++ padded (pre + b.length) m := by
  simp only [padded_eq, List.length_append, Nat.add_assoc, List.append_assoc]

/-! ### Absorption -/

theorem blockOf_getElem (M : List Byte) (t : Nat) {i : Nat} (hi : i < 64) :
    (blockOf M t)[i] = M.getD (64 * t + i) 0 := Vector.getElem_ofFn hi

theorem block64_getElem (M : List Byte) {i : Nat} (hi : i < 64) : (block64 M)[i] = M.getD i 0 := by
  simp [block64]

theorem block64_eq_blockOf (M : List Byte) : block64 M = blockOf M 0 := by
  refine Vector.ext fun i hi => ?_
  rw [block64_getElem, blockOf_getElem, Nat.mul_zero, Nat.zero_add]

/-- Block `t` of what follows the first block. -/
theorem blockOf_drop (M : List Byte) (t : Nat) : blockOf (M.drop 64) t = blockOf M (t + 1) := by
  refine Vector.ext fun i hi => ?_
  have hindex : 64 + (64 * t + i) = 64 * (t + 1) + i := by omega
  rw [blockOf_getElem, blockOf_getElem, List.getD_eq_getElem?_getD, List.getElem?_drop, hindex,
    List.getD_eq_getElem?_getD]

/-- The first block of a byte string that begins with 64 known bytes. -/
theorem blockOf_append {b : List Byte} (hb : b.length = 64) (M : List Byte) : blockOf (b ++ M) 0 = blockOf b 0 := by
  refine Vector.ext fun i hi => ?_
  have hlt : 64 * 0 + i < b.length := by omega
  rw [blockOf_getElem, blockOf_getElem, List.getD_append _ _ _ _ hlt]

/-- The compression absorbs the blocks of a byte string in order (44_pbkdf2.md R160). -/
theorem absorb_eq_foldl (F : Compress) (n : Nat) (H : Pad) (M : List Byte) :
    absorb F n H M = (List.range n).foldl (fun H t => F H (blockOf M t)) H := by
  induction n generalizing H M with
  | zero => rfl
  | succ n ih =>
    rw [absorb, ih, List.range_succ_eq_map, List.foldl_cons, List.foldl_map, block64_eq_blockOf]
    simp only [blockOf_drop, Nat.succ_eq_add_one]

/-- A block in front of a byte string is absorbed first. -/
theorem absorb_append (F : Compress) (n : Nat) (H : Pad) {b : List Byte} (hb : b.length = 64) (M : List Byte) :
    absorb F (n + 1) H (b ++ M) = absorb F n (F H (blockOf b 0)) M := by
  rw [absorb, block64_eq_blockOf, blockOf_append hb, List.drop_left' hb]

/-- A block in front of a message is absorbed before `SHA256cont` of the message (44_pbkdf2.md R160). -/
theorem sha256Cont_append (F : Compress) (H : Pad) (pre : Nat) {b : List Byte} (hb : b.length = 64) (m : List Byte) :
    sha256Cont F H pre (b ++ m) = sha256Cont F (F H (blockOf b 0)) (pre + 64) m := by
  have hblocks : (64 + (padded (pre + 64) m).length) / 64 = (padded (pre + 64) m).length / 64 + 1 := by omega
  rw [sha256Cont, sha256Cont, padded_append, hb, List.length_append, hb, hblocks, absorb_append F _ H hb]

/-! ### The pad states -/

theorem sha256IV_eq_initialHash : sha256IV = initialHash := rfl

/-- A pad state is the compression of the padded key combined with the pad byte (44_pbkdf2.md R162). -/
theorem padState_eq (F : Compress) (K : List Byte) (c : Byte) :
    padState F K c = F initialHash (blockOf ((hmacKey F K).map fun b => b ^^^ c) 0) := by
  rw [padState, block64_eq_blockOf, sha256IV_eq_initialHash]

end Sys2Proof.Machine

namespace Sys2Proof.Proofs

open Sys2Proof.Machine Sys2Proof.Spec

/-- Settles O39: the padding has `zeroBytes` zero bytes, `absorb_eq_foldl` and `digestOf_getD` give the digest,
`sha256Cont_append` the block in front, and `padState_eq` the pad states. -/
theorem sha256AndHmacFollowTheRules : Obligations.Sha256AndHmacFollowTheRules := by
  refine ⟨fun pre m => ⟨zeroBytes (pre + m.length), ?padding, zeroBytes_fills _, fun _ => zeroBytes_least⟩, ?cont,
    fun _ _ => rfl, fun F K => ⟨hmacKey_length F K, padState_eq F K 0x36, padState_eq F K 0x5c⟩, fun _ _ _ _ => rfl⟩
  case padding => rw [← be64_eq_map, padded_eq]
  case cont =>
    intro F H pre m hpre M G
    refine ⟨padded_length_of_blocks hpre m, sha256Cont_length F H pre m, fun k j hj => ?_,
      fun b hb => sha256Cont_append F H pre hb m⟩
    rw [sha256Cont, absorb_eq_foldl, digestOf_getD _ k hj]

end Sys2Proof.Proofs
end

section
/-! PBKDF2 (44_pbkdf2.md R164, R165): the iterations of a block, the last one first. -/

namespace Sys2Proof.Machine

/-- The last of `n + 1` further iterations combines one more HMAC of the last `U` into what `n` of them leave
(44_pbkdf2.md R165). -/
theorem pbkdf2Iter_succ (F : Compress) (I O : Pad) (n : Nat) (U T : List Byte) :
    pbkdf2Iter F I O (n + 1) U T = xorBytes (pbkdf2Iter F I O n U T) ((hmacState F I O)^[n + 1] U) := by
  induction n generalizing U T with
  | zero => rfl
  | succ n ih => exact ih (hmacState F I O U) (xorBytes T (hmacState F I O U))

/-- A block of one iteration is `PBKDF2Block` (44_pbkdf2.md R165). -/
theorem pbkdf2T_one (F : Compress) (I O : Pad) (S : List Byte) (i : Nat) :
    pbkdf2T F I O S 1 i = pbkdf2Block F I O S (BitVec.ofNat 32 i) := rfl

/-- One iteration more, for a block of at least one (44_pbkdf2.md R165). -/
theorem pbkdf2T_succ (F : Compress) (I O : Pad) (S : List Byte) {c : Nat} (hc : 1 ≤ c) (i : Nat) :
    pbkdf2T F I O S (c + 1) i =
      xorBytes (pbkdf2T F I O S c i) ((hmacState F I O)^[c] (pbkdf2Block F I O S (BitVec.ofNat 32 i))) := by
  obtain ⟨n, rfl⟩ := Nat.exists_eq_add_of_le' hc
  exact pbkdf2Iter_succ F I O n _ _

theorem hmacState_iterate_length (F : Compress) (I O : Pad) {c : Nat} (hc : 1 ≤ c) (U : List Byte) :
    ((hmacState F I O)^[c] U).length = 32 := by
  obtain ⟨n, rfl⟩ := Nat.exists_eq_add_of_le' hc
  rw [Function.iterate_succ_apply', hmacState_length]

theorem xorBytes_getD {a b : List Byte} {k : Nat} (ha : k < a.length) (hb : k < b.length) :
    (xorBytes a b).getD k 0 = a.getD k 0 ^^^ b.getD k 0 := by
  simp [xorBytes, ha, hb]

end Sys2Proof.Machine

namespace Sys2Proof.Proofs

open Sys2Proof.Machine Sys2Proof.Spec

/-- Settles O40: a block is its first HMAC (`pbkdf2T_one`) combined with one more for each further iteration
(`pbkdf2T_succ`), and the key is the first bytes of the blocks. -/
theorem derivedKeyFollowsTheRule : Obligations.DerivedKeyFollowsTheRule := by
  intro F P S c dkLen hc _ T H U1
  refine ⟨fun i _ => ⟨pbkdf2T_one F _ _ S i, pbkdf2T_length F _ _ S c i, pbkdf2T_length F _ _ S (c + 1) i,
    hmacState_iterate_length F _ _ hc _, fun k hk => ?byte, rfl⟩, rfl, pbkdf2_length F P S c dkLen, rfl⟩
  have hT : k < (T c i).length := by rwa [pbkdf2T_length]
  have hU : k < (H^[c] (U1 i)).length := by rwa [hmacState_iterate_length F _ _ hc]
  exact (congrArg (·.getD k 0) (pbkdf2T_succ F _ _ S hc i)).trans (xorBytes_getD hT hU)

end Sys2Proof.Proofs
end

section
/-! Acceptance of the HMAC commands (44_pbkdf2.md R166 to R168): the checks of their operand tables, in order. -/

namespace Sys2Proof.Machine

open Sys2Proof.Spec

section
variable (p : Params) (l : Latch)

/-- Regions that need no alignment have none to check. -/
theorem checkAlign_of_unaligned {t : OperandTable} (h : ∀ r ∈ t.regions, r.aligned = false) : checkAlign t = none := by
  rw [checkAlign, List.findSome?_eq_none_iff]
  intro r hr
  simp [h r hr]

/-- The checks of a table of byte strings without scratch, in order; the other classes have nothing to check. -/
theorem check_of_byteStrings (nonzero : List (Fin 12)) {regions : List Region} (overlaps : List OverlapPair)
    (h : ∀ r ∈ regions, r.aligned = false) :
    let t : OperandTable := { nonzero := nonzero, regions := regions, overlaps := overlaps }
    check p l t = (checkZero l t).or ((checkBounds p t).or (checkOverlap t)) := by
  intro t
  rw [check_eq_or, checkAlign_of_unaligned (t := t) h]
  rfl

/-- The one check of `HMAC.INIT` (44_pbkdf2.md R166). -/
theorem check_hmacInitTable :
    check p l (hmacInitTable l) = failIf (¬ Fits p.memSize (l.arg 0) (l.arg 1)) ⟨.bounds, 0⟩ := by
  rw [hmacInitTable, check_of_byteStrings p l _ _ (by simp [inputAt])]
  simp [checkZero, checkBounds_eq, checkOverlap_eq, findSome?_cons_or, inputAt, argName]

/-- The checks of `PBKDF2.BLK`, in order (44_pbkdf2.md R167). -/
theorem check_pbkdf2BlkTable :
    check p l (pbkdf2BlkTable l) =
      (failIf (¬ Fits p.memSize (l.arg 0) (l.arg 1)) ⟨.bounds, 0⟩).or
        ((failIf (¬ Fits p.memSize (l.arg 3) 32) ⟨.bounds, 3⟩).or
          (failIf (Overlaps (l.arg 3) 32 (l.arg 0) (l.arg 1)) ⟨.overlap, 3⟩)) := by
  rw [pbkdf2BlkTable, check_of_byteStrings p l _ _ (by simp [inputAt, resultAt])]
  simp [checkZero, checkBounds_eq, checkOverlap_eq, findSome?_cons_or, Option.or_assoc, inputAt, resultAt, argName]

/-- The checks of `PBKDF2`, in order (44_pbkdf2.md R168). -/
theorem check_pbkdf2Table :
    check p l (pbkdf2Table l) =
      (failIf (l.arg 4 = 0) ⟨.zero, 4⟩).or ((failIf (l.arg 6 = 0) ⟨.zero, 6⟩).or
        ((failIf (¬ Fits p.memSize (l.arg 0) (l.arg 1)) ⟨.bounds, 0⟩).or
          ((failIf (¬ Fits p.memSize (l.arg 2) (l.arg 3)) ⟨.bounds, 2⟩).or
            ((failIf (¬ Fits p.memSize (l.arg 5) (l.arg 6)) ⟨.bounds, 5⟩).or
              ((failIf (Overlaps (l.arg 5) (l.arg 6) (l.arg 0) (l.arg 1)) ⟨.overlap, 5⟩).or
                (failIf (Overlaps (l.arg 5) (l.arg 6) (l.arg 2) (l.arg 3)) ⟨.overlap, 5⟩)))))) := by
  have hzero : checkZero l (pbkdf2Table l) =
      (failIf (l.arg 4 = 0) ⟨.zero, 4⟩).or (failIf (l.arg 6 = 0) ⟨.zero, 6⟩) := by
    simp [checkZero, pbkdf2Table, findSome?_cons_or, failIf, argName]
  rw [pbkdf2Table] at hzero ⊢
  rw [check_of_byteStrings p l _ _ (by simp [inputAt, resultAt]), hzero]
  simp [checkBounds_eq, checkOverlap_eq, findSome?_cons_or, Option.or_assoc, inputAt, resultAt, argName]

end

/-- A command with no `ROUNDS` field has no `ROUNDS` to check (30_encoding.md R73). -/
theorem exec_idle_of_no_rounds {s : State} {i : Instr} (hidle : s.status.busy = false) (h : i.roundsField = none) :
    exec i s = .next (afterChecks (check s.params s.latch (operandTable i s.latch)) s) := by
  have hrounds : checkRounds i = none := by simp [checkRounds, Instr.wf, h]
  rw [exec_idle i hidle, hrounds, Option.none_or]

end Sys2Proof.Machine

namespace Sys2Proof.Proofs

open Sys2Proof.Machine Sys2Proof.Spec

/-- Settles O14: the step of an idle command is the answer of its checks (`exec_idle_of_no_rounds`), the chains of
`check_hmacInitTable` and `check_pbkdf2BlkTable`. -/
theorem hmacCommandAcceptance : Obligations.HmacCommandAcceptance := by
  intro s hidle
  constructor
  · rw [exec_idle_of_no_rounds hidle rfl, operandTable, check_hmacInitTable, afterChecks_failIf]
    rfl
  · rw [exec_idle_of_no_rounds hidle rfl, operandTable, check_pbkdf2BlkTable]
    simp only [afterChecks_failIf_or, afterChecks_failIf]
    rfl

/-- Settles O15: the step of an idle `PBKDF2` is the answer of its checks (`exec_idle_of_no_rounds`), the chain of
`check_pbkdf2Table`. -/
theorem pbkdf2Acceptance : Obligations.Pbkdf2Acceptance := by
  intro s hidle
  rw [exec_idle_of_no_rounds hidle rfl, operandTable, check_pbkdf2Table]
  simp only [afterChecks_failIf_or, afterChecks_failIf]
  rfl

end Sys2Proof.Proofs
end

section
/-! Completion of the HMAC commands (44_pbkdf2.md R166 to R168): the pad states and the one byte string they leave. -/

namespace Sys2Proof.Machine

open Sys2Proof.Spec

/-- What a completion that writes one byte string leaves where it wrote it (40_command_protocol.md R96). -/
theorem memRead_complete {r : Results} {s : State} {a n : Nat} {v : List Byte} (hwrites : r.writes = [(a, v)])
    (hlen : v.length = n) : memRead (complete r s).mem a n = v := by
  subst hlen
  rw [complete_mem, hwrites]
  exact memRead_memWrite s.mem a v

end Sys2Proof.Machine

namespace Sys2Proof.Proofs

open Sys2Proof.Machine Sys2Proof.Spec

/-- Settles O24: the command completes with the two pad states of the key (`padState_eq`) and no write. -/
theorem hmacInitCompletes : Obligations.HmacInitCompletes := by
  intro s hb K K' K0
  have hkey : hmacKey Config.sha256Compress (bytesAt s 0 1) = K0 := by
    rw [hmacKey, bytesAt_length]
    rfl
  have hpad (c : Byte) : padState Config.sha256Compress (bytesAt s 0 1) c =
      Config.sha256Compress initialHash (blockOf (K0.map fun b => b ^^^ c) 0) := by rw [padState_eq, hkey]
  exact ⟨_, exec_busy _ hb, done_complete _ s, ⟨rfl, rfl⟩, hpad 0x36, hpad 0x5c, untouched_complete _ s⟩

/-- Settles O25: the command completes with the 32 bytes of `PBKDF2Block` at `ARG3` (`memRead_complete`). -/
theorem pbkdf2BlkCompletes : Obligations.Pbkdf2BlkCompletes := fun s hb =>
  ⟨_, exec_busy _ hb, done_complete _ s, ⟨rfl, rfl⟩, ⟨rfl, rfl⟩,
    memRead_complete rfl (pbkdf2Block_length _ s.ist s.ost (bytesAt s 0 1) s.latch.args[2]), untouched_complete _ s⟩

/-- Settles O26: the command completes with the derived key at `ARG5` (`memRead_complete`) and the pad states of the
password. -/
theorem pbkdf2Completes : Obligations.Pbkdf2Completes := fun s hb =>
  ⟨_, exec_busy _ hb, done_complete _ s, ⟨rfl, rfl⟩, rfl, rfl, memRead_complete rfl (pbkdf2_length ..),
    untouched_complete _ s⟩

end Sys2Proof.Proofs
end

section
/-! The scrypt driver and the coin hash (45_drivers.md R180 to R183): a derived key of whole blocks, the runs of the
sub-blocks, and the coin hash as scrypt of one sub-block. -/

namespace Sys2Proof.Machine

/-- With one iteration, a key of `n` whole blocks is the blocks 1 to `n` (44_pbkdf2.md R165). -/
theorem pbkdf2_one_whole_blocks (F : Compress) (P S : List Byte) (n : Nat) :
    pbkdf2 F P S 1 (32 * n) =
      (List.range n).flatMap fun k =>
        pbkdf2Block F (hmacInner F P) (hmacOuter F P) S (BitVec.ofNat 32 (k + 1)) := by
  have hcount : (32 * n + 31) / 32 = n := by omega
  have hlen := flatMap_range_length (n := n) fun k _ => pbkdf2T_length F (hmacInner F P) (hmacOuter F P) S 1 (k + 1)
  rw [pbkdf2, hcount, List.take_of_length_le (by omega)]
  rfl

/-- The input of the coin hash is derived from the header with itself as salt (45_drivers.md R183). -/
theorem pbkdf2_header_eq_powInput (F : Compress) (h : List Byte) : pbkdf2 F h h 1 128 = powInput F h :=
  pbkdf2_one_whole_blocks F h h 4

/-- A key of 32 bytes is block 1 (45_drivers.md R183). -/
theorem pbkdf2_one_32 (F : Compress) (P S : List Byte) :
    pbkdf2 F P S 1 32 = pbkdf2Block F (hmacInner F P) (hmacOuter F P) S 1 :=
  (pbkdf2_one_whole_blocks F P S 1).trans (List.append_nil _)

/-- The ROMix run of sub-block `l` of `B` (45_drivers.md R180). -/
def subBlockRun (B : List Byte) (N r l : Nat) : RomixRun :=
  roMix .salsa (wordsOf ((B.drop (128 * r * l)).take (128 * r))) r N scryptRounds

theorem scryptRuns_eq_map (B : List Byte) (N r p : Nat) :
    scryptRuns B N r p = (List.range p).map (subBlockRun B N r) := rfl

/-- A single sub-block is the whole of `B`. -/
theorem subBlockRun_zero {B : List Byte} {r : Nat} (hB : B.length = 128 * r) (N : Nat) :
    subBlockRun B N r 0 = roMix .salsa (wordsOf B) r N scryptRounds := by
  rw [subBlockRun, Nat.mul_zero, List.drop_zero, List.take_of_length_le (Nat.le_of_eq hB)]

/-- The one run of scrypt with the parameters of the coin hash is the run of the coin hash (45_drivers.md R183). -/
theorem scryptMix_header (F : Compress) (h : List Byte) : scryptMix F h h 1024 1 1 = [powMix F h] := by
  calc scryptMix F h h 1024 1 1 = scryptRuns (powInput F h) 1024 1 1 :=
        congrArg (scryptRuns · 1024 1 1) (pbkdf2_header_eq_powInput F h)
    _ = [subBlockRun (powInput F h) 1024 1 0] := scryptRuns_eq_map _ 1024 1 1
    _ = [powMix F h] := congrArg (fun run => [run]) (subBlockRun_zero (powInput_length F h) 1024)

theorem powHash_eq_scrypt (F : Compress) (h : List Byte) : powHash F h = scrypt F h h 1024 1 1 32 := by
  have hmixed : mixedBytes [powMix F h] = bytesOf (powMix F h).x := List.append_nil _
  rw [scrypt, scryptMix_header, hmixed, pbkdf2_one_32]
  rfl

end Sys2Proof.Machine

namespace Sys2Proof.Proofs

open Sys2Proof.Machine Sys2Proof.Spec

/-- Settles O41: with one iteration a key of whole blocks is those blocks (`pbkdf2_one_whole_blocks`), so the coin
hash's input and digest are derived keys, and its run is scrypt's one run (`powHash_eq_scrypt`). -/
theorem coinHashIsScrypt : Obligations.CoinHashIsScrypt := by
  refine ⟨fun F P S N r p dkLen => ?driver, fun F h => ⟨fun S i _ => ⟨pbkdf2T_one F _ _ S i, pbkdf2Block_length ..⟩,
    ?blocks, pbkdf2_header_eq_powInput F h, rfl, fun X => pbkdf2_one_32 F h (bytesOf X), rfl, powHash_eq_scrypt F h⟩⟩
  case driver =>
    simp only [scrypt, scryptMix, scryptRuns, mixedBytes, List.flatMap_map]
    rfl
  case blocks =>
    rw [pbkdf2_header_eq_powInput]
    simp [powInput]

end Sys2Proof.Proofs
end

section
/-! Acceptance of the drivers (45_drivers.md R181, R184, R186, R187): the checks of their operand tables, in order. -/

namespace Sys2Proof.Machine

open Sys2Proof.Spec

section
variable (p : Params) (l : Latch)

/-- The checks of a table of byte strings with a scratch region, in order; the byte strings need no alignment. -/
theorem check_of_byteStrings_scratch {t : OperandTable} {need : Nat} (hscratch : t.scratch = some (scratchOf l need))
    (hbytes : ∀ r ∈ t.regions, r.aligned = false) :
    check p l t =
      (checkZero l t).or ((checkPow2 l t).or ((checkHeader l t).or ((checkRMax p l t).or
        ((failIf (l.scratchLimit.toNat < need) ⟨.tooLarge, 13⟩).or ((failIf (l.sbase % 128 ≠ 0) ⟨.align, 12⟩).or
          ((checkBounds p t).or ((failIf (¬ Fits p.memSize l.sbase need) ⟨.alloc, 12⟩).or
            (checkOverlap t)))))))) := by
  rw [check_eq_or, checkLimit_of_scratch hscratch, checkAlign_of_unaligned hbytes, Option.none_or,
    checkScratchAlign_of_scratch hscratch, checkAlloc_of_scratch hscratch]

/-- The checks of `SCRYPT`, in order (45_drivers.md R181). -/
theorem check_scryptTable :
    let need := 128 * l.arg 5 * (l.arg 6 + l.arg 4)
    check p l (scryptTable l) =
      (failIf (l.arg 5 = 0) ⟨.zero, 5⟩).or ((failIf (l.arg 6 = 0) ⟨.zero, 6⟩).or
        ((failIf (l.arg 8 = 0) ⟨.zero, 8⟩).or ((failIf (NotPow2 (l.arg 4)) ⟨.paramN, 4⟩).or
          ((failIf (p.rMax < l.arg 5) ⟨.tooLarge, 5⟩).or
            ((failIf (l.scratchLimit.toNat < need) ⟨.tooLarge, 13⟩).or
              ((failIf (l.sbase % 128 ≠ 0) ⟨.align, 12⟩).or
                ((failIf (¬ Fits p.memSize (l.arg 0) (l.arg 1)) ⟨.bounds, 0⟩).or
                  ((failIf (¬ Fits p.memSize (l.arg 2) (l.arg 3)) ⟨.bounds, 2⟩).or
                    ((failIf (¬ Fits p.memSize (l.arg 7) (l.arg 8)) ⟨.bounds, 7⟩).or
                      ((failIf (¬ Fits p.memSize l.sbase need) ⟨.alloc, 12⟩).or
                        ((failIf (Overlaps (l.arg 7) (l.arg 8) (l.arg 0) (l.arg 1)) ⟨.overlap, 7⟩).or
                          ((failIf (Overlaps (l.arg 7) (l.arg 8) (l.arg 2) (l.arg 3)) ⟨.overlap, 7⟩).or
                            ((failIf (Overlaps (l.arg 0) (l.arg 1) l.sbase need) ⟨.overlap, 0⟩).or
                              ((failIf (Overlaps (l.arg 2) (l.arg 3) l.sbase need) ⟨.overlap, 2⟩).or
                                (failIf (Overlaps (l.arg 7) (l.arg 8) l.sbase need)
                                  ⟨.overlap, 7⟩))))))))))))))) := by
  intro need
  have hzero : checkZero l (scryptTable l) =
      (failIf (l.arg 5 = 0) ⟨.zero, 5⟩).or
        ((failIf (l.arg 6 = 0) ⟨.zero, 6⟩).or (failIf (l.arg 8 = 0) ⟨.zero, 8⟩)) := by
    simp [checkZero, scryptTable, findSome?_cons_or, failIf, argName]
  have hpow : checkPow2 l (scryptTable l) = failIf (NotPow2 (l.arg 4)) ⟨.paramN, 4⟩ := checkPow2_of_singleton rfl
  have hrmax : checkRMax p l (scryptTable l) = failIf (p.rMax < l.arg 5) ⟨.tooLarge, 5⟩ := by
    simp [checkRMax, scryptTable, failIf, argName]
  rw [check_of_byteStrings_scratch p l (need := need) rfl (by simp [scryptTable, inputAt, resultAt]), hzero, hpow,
    hrmax]
  simp [checkHeader, checkBounds_eq, checkOverlap_eq, scryptTable, findSome?_cons_or, Option.or_assoc, inputAt,
    resultAt, scratchOf, argName, need]

/-- The checks of a coin-hash command of `k` lanes, in order (45_drivers.md R184). -/
theorem check_powTable (k : Nat) :
    check p l (powTable l k) =
      (failIf (l.arg 1 ≠ 80) ⟨.length, 1⟩).or
        ((failIf (l.scratchLimit.toNat < laneBytes * k) ⟨.tooLarge, 13⟩).or
          ((failIf (l.sbase % 128 ≠ 0) ⟨.align, 12⟩).or
            ((failIf (¬ Fits p.memSize (l.arg 0) (80 * k)) ⟨.bounds, 0⟩).or
              ((failIf (¬ Fits p.memSize (l.arg 2) (32 * k)) ⟨.bounds, 2⟩).or
                ((failIf (¬ Fits p.memSize l.sbase (laneBytes * k)) ⟨.alloc, 12⟩).or
                  ((failIf (Overlaps (l.arg 2) (32 * k) (l.arg 0) (80 * k)) ⟨.overlap, 2⟩).or
                    ((failIf (Overlaps (l.arg 0) (80 * k) l.sbase (laneBytes * k)) ⟨.overlap, 0⟩).or
                      (failIf (Overlaps (l.arg 2) (32 * k) l.sbase (laneBytes * k)) ⟨.overlap, 2⟩)))))))) := by
  have hheader : checkHeader l (powTable l k) = failIf (l.arg 1 ≠ 80) ⟨.length, 1⟩ := by
    simp [checkHeader, powTable, failIf, argName]
  rw [check_of_byteStrings_scratch p l (need := laneBytes * k) rfl (by simp [powTable, inputAt, resultAt]), hheader]
  simp [checkZero, checkPow2, checkRMax, checkBounds_eq, checkOverlap_eq, powTable, findSome?_cons_or,
    Option.or_assoc, inputAt, resultAt, scratchOf, argName]

end

end Sys2Proof.Machine

namespace Sys2Proof.Proofs

open Sys2Proof.Machine Sys2Proof.Spec

/-- Settles O16: the step of an idle `SCRYPT` is the answer of its checks (`exec_idle_of_no_rounds`), the chain of
`check_scryptTable`. -/
theorem scryptAcceptance : Obligations.ScryptAcceptance := by
  intro s hidle
  rw [exec_idle_of_no_rounds hidle rfl, operandTable, check_scryptTable]
  simp only [afterChecks_failIf_or, afterChecks_failIf]
  rfl

/-- Settles O17: the step of an idle coin-hash command is the answer of its checks (`exec_idle_of_no_rounds`), the chain
of `check_powTable` at the command's lanes. -/
theorem coinHashAcceptance : Obligations.CoinHashAcceptance := by
  intro s i k hidle hi
  obtain ⟨hrounds, htable⟩ : i.roundsField = none ∧ operandTable i s.latch = powTable s.latch k := by
    simp only [List.mem_cons, List.not_mem_nil, or_false, Prod.mk.injEq] at hi
    rcases hi with ⟨rfl, rfl⟩ | ⟨rfl, rfl⟩ | ⟨rfl, rfl⟩ <;> exact ⟨rfl, rfl⟩
  rw [exec_idle_of_no_rounds hidle hrounds, htable, check_powTable]
  simp only [afterChecks_failIf_or, afterChecks_failIf]
  rfl

end Sys2Proof.Proofs
end

section
/-! Completion of the drivers (45_drivers.md R181, R184 to R187): what several writes that do not overlap leave in DMEM,
and the slots of a table that stands there. -/

namespace Sys2Proof.Machine

open Sys2Proof.Spec

/-! ### Writes that do not overlap -/

/-- The two writes do not overlap (20_memory.md R55). -/
abbrev Apart (w v : Nat × List Byte) : Prop := ¬ Overlaps w.1 w.2.length v.1 v.2.length

theorem memRead_memWrites_outside {m : Memory} {a n : Nat} {ws : List (Nat × List Byte)}
    (h : ∀ w ∈ ws, ¬ Overlaps a n w.1 w.2.length) : memRead (memWrites m ws) a n = memRead m a n :=
  memRead_congr fun x hx => byteAt_memWrites_outside fun w hw hin => h w hw (by omega)

/-- Of several writes that do not overlap, each stands in DMEM afterwards. -/
theorem memRead_memWrites (m : Memory) {ws : List (Nat × List Byte)} (h : ws.Pairwise Apart) {w : Nat × List Byte}
    (hw : w ∈ ws) : memRead (memWrites m ws) w.1 w.2.length = w.2 := by
  induction h generalizing m with
  | nil => cases hw
  | @cons v ws hv _ ih =>
    rcases List.mem_cons.mp hw with rfl | hw
    · exact (memRead_memWrites_outside hv).trans (memRead_memWrite m w.1 w.2)
    · exact ih (memWrite m v.1 v.2) hw

/-- What a slot reads of a table that stands in DMEM (43_romix.md R140). -/
theorem readWords_slot_of_memRead {m : Memory} {a r k : Nat} {V : List (List Word)} (hV : ∀ v ∈ V, v.length = 32 * r)
    (hk : k < V.length) (h : memRead m a (tableBytes V).length = tableBytes V) :
    readWords m (a + 128 * r * k) (32 * r) = V.getD k [] := by
  have hlen : 4 * V.flatten.length = 128 * r * V.length := by
    rw [← tableBytes_length hV, tableBytes_eq_bytesOf, bytesOf_length]
  have hwords : readWords m a V.flatten.length = V.flatten := by
    rw [tableBytes_eq_bytesOf, bytesOf_length] at h
    rw [readWords_eq_wordsOf, h, wordsOf_bytesOf]
  have hword : 128 * r * k = 4 * (32 * r * k) := by rw [← Nat.mul_assoc, ← Nat.mul_assoc]
  have hend := slot_end_le (r := r) hk
  rw [hword, readWords_part m a (n := V.flatten.length) (by omega), hwords, flatten_slot hV hk]

/-! ### `SCRYPT` -/

/-- The mixed `B` is laid out as a table of its sub-blocks (45_drivers.md R180). -/
theorem mixedBytes_eq_tableBytes (runs : List RomixRun) : mixedBytes runs = tableBytes (runs.map (·.x)) := by
  rw [tableBytes, List.flatMap_map]
  rfl

theorem scryptRuns_getLastD (B : List Byte) (N r : Nat) {p : Nat} (hp : 1 ≤ p) (d : RomixRun) :
    (scryptRuns B N r p).getLastD d = subBlockRun B N r (p - 1) := by
  obtain ⟨n, rfl⟩ := Nat.exists_eq_add_of_le' hp
  rw [scryptRuns_eq_map, List.range_succ, List.map_append, List.map_singleton, List.getLastD_concat,
    Nat.add_sub_cancel]

/-- A sub-block of `B` is a Block. -/
theorem wordsOf_subBlock_length {B : List Byte} {r p l : Nat} (hB : B.length = 128 * r * p) (hl : l < p) :
    (wordsOf ((B.drop (128 * r * l)).take (128 * r))).length = 32 * r := by
  have hend := slot_end_le (r := r) hl
  refine wordsOf_length _ _ ?_
  rw [List.length_take, List.length_drop]
  omega

/-- The ROMix run `SCRYPT` makes of sub-block `l` (45_drivers.md R181). -/
def commandRun (F : Compress) (s : State) (l : Nat) : RomixRun :=
  subBlockRun (pbkdf2 F (bytesAt s 0 1) (bytesAt s 2 3) 1 (128 * s.latch.arg 5 * s.latch.arg 6)) (s.latch.arg 4)
    (s.latch.arg 5) l

section
variable (F : Compress) (s : State)

theorem commandRun_x_length {l : Nat} (hl : l < s.latch.arg 6) : (commandRun F s l).x.length = 32 * s.latch.arg 5 :=
  roMix_x_length (wordsOf_subBlock_length (pbkdf2_length ..) hl) (s.latch.arg_le 4)

theorem commandRun_table_blocks {l : Nat} (hl : l < s.latch.arg 6) :
    ∀ v ∈ (commandRun F s l).table, v.length = 32 * s.latch.arg 5 :=
  roMix_table_blocks (wordsOf_subBlock_length (pbkdf2_length ..) hl)

theorem commandRun_table_length (l : Nat) : (commandRun F s l).table.length = s.latch.arg 4 :=
  roMix_table_length ..

/-- The sub-blocks of the mixed `B`, in order. -/
def mixedSubBlocks : List (List Word) := (List.range (s.latch.arg 6)).map fun l => (commandRun F s l).x

theorem mixedSubBlocks_blocks : ∀ v ∈ mixedSubBlocks F s, v.length = 32 * s.latch.arg 5 := by
  intro v hv
  obtain ⟨l, hl, rfl⟩ := List.mem_map.mp hv
  exact commandRun_x_length F s (List.mem_range.mp hl)

@[simp] theorem mixedSubBlocks_length : (mixedSubBlocks F s).length = s.latch.arg 6 := by simp [mixedSubBlocks]

theorem mixedSubBlocks_getD {l : Nat} (hl : l < s.latch.arg 6) :
    (mixedSubBlocks F s).getD l [] = (commandRun F s l).x := by
  simp [mixedSubBlocks, hl]

variable (hp : 1 ≤ s.latch.arg 6)
include hp

theorem scryptResults_jidx : (scryptResults F s).jidx = (commandRun F s (s.latch.arg 6 - 1)).lastJ :=
  congrArg RomixRun.lastJ (scryptRuns_getLastD _ _ _ hp _)

/-- The three writes of `SCRYPT`: the mixed `B`, the table of the last run, the derived key (45_drivers.md R181). -/
theorem scryptResults_writes :
    (scryptResults F s).writes =
      [(s.latch.sbase, tableBytes (mixedSubBlocks F s)),
       (s.latch.sbase + 128 * s.latch.arg 5 * s.latch.arg 6, tableBytes (commandRun F s (s.latch.arg 6 - 1)).table),
       (s.latch.arg 7, scrypt F (bytesAt s 0 1) (bytesAt s 2 3) (s.latch.arg 4) (s.latch.arg 5) (s.latch.arg 6)
         (s.latch.arg 8))] := by
  have hmixed : mixedBytes (scryptMix F (bytesAt s 0 1) (bytesAt s 2 3) (s.latch.arg 4) (s.latch.arg 5)
      (s.latch.arg 6)) = tableBytes (mixedSubBlocks F s) := by
    rw [mixedBytes_eq_tableBytes, scryptMix, scryptRuns_eq_map, List.map_map]
    rfl
  have hlast (d : RomixRun) : (scryptMix F (bytesAt s 0 1) (bytesAt s 2 3) (s.latch.arg 4) (s.latch.arg 5)
      (s.latch.arg 6)).getLastD d = commandRun F s (s.latch.arg 6 - 1) := scryptRuns_getLastD _ _ _ hp d
  simp only [scryptResults, scrypt, hmixed, hlast]

/-- The three writes do not overlap where the derived key does not lie in the scratch region. -/
theorem scryptResults_writes_apart
    (hout : ¬ Overlaps (s.latch.arg 7) (s.latch.arg 8) s.latch.sbase
      (128 * s.latch.arg 5 * (s.latch.arg 6 + s.latch.arg 4))) :
    (scryptResults F s).writes.Pairwise Apart := by
  have hmixed : (tableBytes (mixedSubBlocks F s)).length = 128 * s.latch.arg 5 * s.latch.arg 6 := by
    rw [tableBytes_length (mixedSubBlocks_blocks F s), mixedSubBlocks_length]
  have htable : (tableBytes (commandRun F s (s.latch.arg 6 - 1)).table).length =
      128 * s.latch.arg 5 * s.latch.arg 4 := by
    rw [tableBytes_length (commandRun_table_blocks F s (Nat.sub_one_lt_of_lt hp)), commandRun_table_length]
  rw [Nat.mul_add] at hout
  simp only [scryptResults_writes F s hp, List.pairwise_cons, List.forall_mem_cons, Apart, hmixed, htable,
    scrypt_length]
  refine ⟨⟨?_, ?_, nofun⟩, ⟨?_, nofun⟩, nofun, .nil⟩ <;> omega

/-- `SCRYPT` leaves the derived key at `ARG7`, the mixed `B` at `LSBASE` and the last run's table after it. -/
theorem scryptResults_stored
    (hout : ¬ Overlaps (s.latch.arg 7) (s.latch.arg 8) s.latch.sbase
      (128 * s.latch.arg 5 * (s.latch.arg 6 + s.latch.arg 4))) :
    let N := s.latch.arg 4
    let r := s.latch.arg 5
    let p := s.latch.arg 6
    let m := memWrites s.mem (scryptResults F s).writes
    memRead m (s.latch.arg 7) (s.latch.arg 8) =
        scrypt F (bytesAt s 0 1) (bytesAt s 2 3) N r p (s.latch.arg 8) ∧
      (∀ l < p, readWords m (s.latch.sbase + 128 * r * l) (32 * r) = (commandRun F s l).x) ∧
      ∀ k < N, readWords m (s.latch.sbase + 128 * r * p + 128 * r * k) (32 * r) =
        (commandRun F s (p - 1)).table.getD k [] := by
  intro N r p m
  have stands : ∀ w ∈ (scryptResults F s).writes, memRead m w.1 w.2.length = w.2 := fun w hw =>
    memRead_memWrites s.mem (scryptResults_writes_apart F s hp hout) hw
  simp only [scryptResults_writes F s hp, List.forall_mem_cons] at stands
  obtain ⟨hmixed, htable, hkey, -⟩ := stands
  refine ⟨by rwa [scrypt_length] at hkey, fun l hl => ?subBlock, fun k hk => ?slot⟩
  case subBlock =>
    rw [← mixedSubBlocks_getD F s hl]
    exact readWords_slot_of_memRead (mixedSubBlocks_blocks F s) (by rwa [mixedSubBlocks_length]) hmixed
  case slot =>
    exact readWords_slot_of_memRead (commandRun_table_blocks F s (Nat.sub_one_lt_of_lt hp))
      (by rwa [commandRun_table_length]) htable

end

/-! ### The coin hash -/

theorem lastIter_1024 : lastIter 1024 = 1023 := by decide

/-- What a lane of the coin hash leaves in scratch, as a table: its mixed Block, then its 1024 slots (45_drivers.md
R184). -/
def laneTable (F : Compress) (h : List Byte) : List (List Word) := (powMix F h).x :: (powMix F h).table

section
variable (F : Compress) (h : List Byte)

theorem powMix_table_length : (powMix F h).table.length = 1024 := by rw [powMix, roMix_table_length]

@[simp] theorem laneTable_length : (laneTable F h).length = 1025 := by
  rw [laneTable, List.length_cons, powMix_table_length]

theorem laneTable_blocks : ∀ v ∈ laneTable F h, v.length = 32 * 1 := by
  have hB : (wordsOf (powInput F h)).length = 32 * 1 := wordsOf_length _ 32 (powInput_length F h)
  exact List.forall_mem_cons.mpr ⟨powMix_x_length F h, roMix_table_blocks hB⟩

theorem laneTable_zero : (laneTable F h).getD 0 [] = (powMix F h).x := by rw [laneTable, List.getD_cons_zero]

theorem laneTable_succ (j : Nat) : (laneTable F h).getD (j + 1) [] = (powMix F h).table.getD j [] := by
  rw [laneTable, List.getD_cons_succ]

@[simp] theorem laneTable_bytes_length : (tableBytes (laneTable F h)).length = 131200 := by
  rw [tableBytes_length (laneTable_blocks F h), laneTable_length]

@[simp] theorem powHash_length : (powHash F h).length = 32 := powDigest_length ..

end

/-- The two writes of a lane: its table to its part of the scratch, its digest to its part of the results (45_drivers.md
R184, R185). -/
theorem laneWrites_eq (F : Compress) (s : State) (l : Nat) :
    laneWrites F s l =
      [(s.latch.sbase + laneBytes * l, tableBytes (laneTable F (headerAt s l))),
       (s.latch.arg 2 + 32 * l, powHash F (headerAt s l))] := by
  simp only [laneWrites, laneTable, tableBytes, List.flatMap_cons, powHash]

theorem powResults_jidx (F : Compress) (k : Nat) (s : State) :
    (powResults F k s).jidx = (powMix F (headerAt s (k - 1))).lastJ := by
  rw [powResults]

/-- The digests and the scratch regions of the lanes do not overlap where all digests and all scratch do not. -/
theorem powResults_writes_apart (F : Compress) (k : Nat) (s : State)
    (hout : ¬ Overlaps (s.latch.arg 2) (32 * k) s.latch.sbase (laneBytes * k)) :
    (powResults F k s).writes.Pairwise Apart := by
  rw [laneBytes] at hout
  rw [powResults, List.pairwise_flatMap]
  constructor
  · intro l hl
    have hl := List.mem_range.mp hl
    simp only [laneWrites_eq, List.pairwise_pair, Apart, laneTable_bytes_length, powHash_length, laneBytes]
    omega
  · refine List.pairwise_lt_range.imp_of_mem fun {l l'} hl hl' hlt => ?_
    have hl' := List.mem_range.mp hl'
    simp only [laneWrites_eq, List.forall_mem_cons, Apart, laneTable_bytes_length, powHash_length, laneBytes]
    refine ⟨⟨?_, ?_, nofun⟩, ⟨?_, ?_, nofun⟩, nofun⟩ <;> omega

/-- Every lane leaves its digest in its part of the results, and in its part of the scratch its mixed Block and its
table after it (45_drivers.md R184, R185). -/
theorem powResults_stored (F : Compress) (k : Nat) (s : State)
    (hout : ¬ Overlaps (s.latch.arg 2) (32 * k) s.latch.sbase (laneBytes * k)) {l : Nat} (hl : l < k) :
    let m := memWrites s.mem (powResults F k s).writes
    memRead m (s.latch.arg 2 + 32 * l) 32 = powHash F (headerAt s l) ∧
      readWords m (s.latch.sbase + laneBytes * l) 32 = (powMix F (headerAt s l)).x ∧
      ∀ j < 1024, readWords m (s.latch.sbase + laneBytes * l + 128 + 128 * j) 32 =
        (powMix F (headerAt s l)).table.getD j [] := by
  intro m
  have stands : ∀ w ∈ laneWrites F s l, memRead m w.1 w.2.length = w.2 := fun w hw =>
    memRead_memWrites s.mem (powResults_writes_apart F k s hout)
      (List.mem_flatMap.mpr ⟨l, List.mem_range.mpr hl, hw⟩)
  simp only [laneWrites_eq, List.forall_mem_cons] at stands
  obtain ⟨hscratch, hdigest, -⟩ := stands
  have hslot (j : Nat) (hj : j < 1025) : readWords m (s.latch.sbase + laneBytes * l + 128 * 1 * j) (32 * 1) =
      (laneTable F (headerAt s l)).getD j [] :=
    readWords_slot_of_memRead (laneTable_blocks F (headerAt s l)) (by rwa [laneTable_length]) hscratch
  refine ⟨by rwa [powHash_length] at hdigest, ?block, fun j hj => ?slot⟩
  case block =>
    rw [← laneTable_zero]
    exact hslot 0 (by decide)
  case slot =>
    rw [← laneTable_succ, Nat.add_assoc, Nat.add_comm 128]
    exact hslot (j + 1) (by omega)

end Sys2Proof.Machine

namespace Sys2Proof.Proofs

open Sys2Proof.Machine Sys2Proof.Spec

/-- Settles O27: the command completes with its three writes (`exec_busy`), which do not overlap and so stand in DMEM as
`scryptResults_stored` says. -/
theorem scryptCompletes : Obligations.ScryptCompletes := by
  intro s hb hp hout F P S N r p B run
  obtain ⟨hkey, hmixed, htable⟩ := scryptResults_stored F s hp hout
  exact ⟨_, exec_busy _ hb, done_complete _ s, rfl, scryptResults_jidx F s hp, rfl, rfl, hkey, hmixed, htable,
    untouched_complete _ s⟩

/-- Settles O28: the three commands complete with the writes of their lanes (`exec_busy`), which do not overlap and so
stand in DMEM as `powResults_stored` says. -/
theorem coinHashCommandsComplete : Obligations.CoinHashCommandsComplete := by
  intro s i k hb hi hout F header
  obtain ⟨hres, hbytes⟩ : resultsOf i s = powResults F k s ∧
      OutputByte i s.latch = fun a => Inside (s.latch.arg 2) (32 * k) a ∨ Inside s.latch.sbase (131200 * k) a := by
    simp only [List.mem_cons, List.not_mem_nil, or_false, Prod.mk.injEq] at hi
    rcases hi with ⟨rfl, rfl⟩ | ⟨rfl, rfl⟩ | ⟨rfl, rfl⟩ <;> exact ⟨rfl, rfl⟩
  have hexec := exec_busy i hb
  have hrest := untouched_complete i s
  rw [hres] at hexec hrest
  rw [hbytes] at hrest
  have hjidx := (complete_jidx s (powResults F k s)).trans (powResults_jidx F k s)
  exact ⟨_, hexec, done_complete _ s, lastIter_1024, hjidx, rfl, rfl,
    fun l hl => powResults_stored F k s hout hl, hrest⟩

end Sys2Proof.Proofs
end

section
/-! The interrupt output (60_exceptions.md R210, R211): `IRQ` after each event that changes `CTRL.IE` or `DONE`. -/

namespace Sys2Proof.Machine

open Sys2Proof.Spec

section
variable (s : State)

/-- A completion sets `DONE` (40_command_protocol.md R96). -/
@[simp] theorem complete_irq (r : Results) : (complete r s).irq = s.ctrl.ie := Bool.and_true _

/-- An error end sets `DONE` (60_exceptions.md R201). -/
@[simp] theorem errorEnd_irq (e : CmdError) : (errorEnd e s).irq = s.ctrl.ie := Bool.and_true _

/-- An acceptance clears `DONE` (40_command_protocol.md R92), and the start of the command leaves it so. -/
@[simp] theorem beginExec_latchCommand_irq (w : Word) : (beginExec (latchCommand w s)).irq = false := Bool.and_false _

/-- A host write to `STATUS` lowers `IRQ` where its bit 1 clears `DONE` (10_state.md R26). -/
@[simp] theorem writeReg_status_irq (v : Word) : (writeReg .status v s).irq = (s.irq && !v.getLsbD 1) :=
  (Bool.and_assoc ..).symm

/-- A host write to `CTRL` replaces `IE` by its bit 0 (10_state.md R24). -/
@[simp] theorem writeReg_ctrl_irq (v : Word) : (writeReg .ctrl v s).irq = (v.getLsbD 0 && s.status.done) := rfl

@[simp] theorem resetCore_irq : (resetCore s).irq = false := rfl

/-- After a `CMD` write of an idle core `IRQ` is `IE` where the command ended with an error, and 0 where it started. -/
theorem irq_of_issueCommand {s t : State} {w : Word} (hidle : s.status.busy = false)
    (h : issueCommand w s = .next t) : t.irq = (s.ctrl.ie && !t.status.busy) := by
  rcases issueCommand_of_idle hidle w with ⟨e, hend⟩ | hstart
  · obtain rfl := Host.Outcome.next.inj (hend.symm.trans h)
    simp [hidle]
  · obtain rfl := Host.Outcome.next.inj (hstart.symm.trans h)
    simp

end

end Sys2Proof.Machine

namespace Sys2Proof.Proofs

open Sys2Proof.Machine Sys2Proof.Spec

/-- Settles O53: each event's step is one operation (`exec_busy`, `step_cmdWrite`, `step_writeReg`, `step_eq_runEvent`),
and `IRQ` after it is read off that operation's rule. -/
theorem irqIsTheDoneLevel : Obligations.IrqIsTheDoneLevel := by
  refine ⟨fun s => rfl, fun s t i hb h => ?completion, fun s t w rest hidle hin h => ?acceptance,
    fun s t v rest hv hin h => ?doneCleared, fun s t v rest hv hdone hin h => ?enabled,
    fun s t rest hin h => ?resetInput⟩
  case completion =>
    obtain rfl := Host.Outcome.next.inj ((exec_busy i hb).symm.trans h)
    exact complete_irq ..
  case acceptance =>
    exact irq_of_issueCommand (s := pop s rest) hidle ((step_cmdWrite hin).symm.trans h)
  case doneCleared =>
    obtain rfl := Host.Outcome.next.inj ((step_writeReg (r := .status) (by decide) hin).symm.trans h)
    simp [hv]
  case enabled =>
    obtain rfl := Host.Outcome.next.inj ((step_writeReg (r := .ctrl) (by decide) hin).symm.trans h)
    simp [hv, hdone]
  case resetInput =>
    obtain rfl := Host.Outcome.next.inj ((step_eq_runEvent hin).symm.trans h)
    exact resetCore_irq _

end Sys2Proof.Proofs
end
